-- ==== Sys2Proof/Word.lean ====
section
/-! DEFINITION. The engine's fixed-width words: the `byte`/`u8`, `u16` and `u32` of 00_scope.md R7 and R11. -/

namespace Sys2Proof

/-- `byte` = `u8` (00_scope.md R11). -/
abbrev Byte := BitVec 8

/-- `u16`: lengths and the combined checksum (00_scope.md R7). -/
abbrev U16 := BitVec 16

/-- `u32`: the clock, capacities, result values and binary32 bit patterns (00_scope.md R7, R11). -/
abbrev U32 := BitVec 32

end Sys2Proof
end

