-- ==== Sys2Proof/Syntax.lean ====
section
/-! DEFINITION. The instructions: the 24 host commands of 30_encoding.md R152 and the 4 wire frame kinds of
R121, one constructor per row of spec/opcode_table.json; and the two encoded forms they have. -/

namespace Sys2Proof

/-- One constructor per row of spec/opcode_table.json. The operand types are those of 30_encoding.md
R151: an `addr` is a natural number, a signed operand is its two's-complement bit pattern, a float
operand its binary32 bit pattern. -/
inductive Instr where
  | receive
  | transmitAscii (id : Byte)
  | transmitAck (id : Byte) (value : Bool)
  | transmitBinary (id : Byte)
  | transmitString (id : Byte)
  | transmitStringText (id : Byte) (text : Nat)
  | assignBinaryRxBuffer (buf : Option Nat) (cap : U32)
  | assignBinaryTxBuffer (buf : Option Nat) (cap : U32) (length : U16)
  | addUint8 (v : Byte)
  | addUint16 (v : U16)
  | addUint32 (v : U32)
  | addInt8 (v : BitVec 8)
  | addInt16 (v : BitVec 16)
  | addInt32 (v : BitVec 32)
  | addFloat (x : U32)
  | addString (text : Nat)
  | getUint8
  | getUint16
  | getUint32
  | getInt8
  | getInt16
  | getInt32
  | getFloat
  | getString (dest : Nat) (len : U16)
  /-- The delimiter `#` met by RECEIVE's scan (42_frame_reader.md R185, R192). -/
  | frameAscii
  /-- The delimiter `?` met by RECEIVE's scan (R185, R197). -/
  | frameAck
  /-- The delimiter `!` met by RECEIVE's scan (R185, R190, R198). -/
  | frameBinary
  /-- The delimiter `"` met by RECEIVE's scan (R185, R199). -/
  | frameString
  deriving DecidableEq, Repr

/-- A host command as it lies on the command port (30_encoding.md R150): an opcode and the operand
values in operand-list order. A value is a natural number (a signed operand's bit pattern, 0 or 1 for
a `bool`) or `none`, the absent `buf` (R151). DEDUCED from R150, R151 and the encodings of
95_test_vectors.md Part 3 (log 2). -/
structure CommandRecord where
  op : Byte
  operands : List (Option Nat)
  deriving DecidableEq, Repr

/-- The two encoding spaces of 30_encoding.md: a command record, or the first byte of a frame. -/
inductive Encoded where
  | command (r : CommandRecord)
  | wire (b : Byte)
  deriving DecidableEq, Repr

end Sys2Proof
end

