-- ==== Sys2Proof/WellFormed.lean ====
section
/-! DEFINITION. Which encoded forms are well formed: a record whose opcode stands in 30_encoding.md R152 with
operands of the types R151 gives it, or one of the four delimiters of R121. Written apart from the decoder. -/

namespace Sys2Proof

/-- The operand types of 30_encoding.md R151. -/
inductive OperandType where
  | u8
  | u16
  | u32
  | bool
  | addr
  | optAddr
  deriving DecidableEq, Repr

/-- The values a type admits. A signed operand is given as its bit pattern, so `i8`, `i16` and `i32`
operands are listed as `u8`, `u16` and `u32`. -/
def OperandType.admits : OperandType → Option Nat → Bool
  | .u8, some n => n < 2 ^ 8
  | .u16, some n => n < 2 ^ 16
  | .u32, some n => n < 2 ^ 32
  | .bool, some n => n < 2
  | .addr, some _ => true
  | .optAddr, _ => true
  | _, none => false

/-- Every operand is of its type; and there are as many as types: DESIGN CHOICE (log 17). -/
def operandsFit : List OperandType → List (Option Nat) → Bool
  | [], [] => true
  | t :: ts, v :: vs => t.admits v && operandsFit ts vs
  | _, _ => false

/-- The "operands" column of 30_encoding.md R152, for each opcode that is not reserved (R153). -/
def signature (op : Nat) : Option (List OperandType) :=
  match op with
  | 0x01 => some []
  | 0x10 => some [.u8]
  | 0x11 => some [.u8, .bool]
  | 0x12 => some [.u8]
  | 0x13 => some [.u8]
  | 0x14 => some [.u8, .addr]
  | 0x20 => some [.optAddr, .u32]
  | 0x21 => some [.optAddr, .u32, .u16]
  | 0x30 => some [.u8]
  | 0x31 => some [.u16]
  | 0x32 => some [.u32]
  | 0x33 => some [.u8]
  | 0x34 => some [.u16]
  | 0x35 => some [.u32]
  | 0x36 => some [.u32]
  | 0x37 => some [.addr]
  | 0x40 => some []
  | 0x41 => some []
  | 0x42 => some []
  | 0x43 => some []
  | 0x44 => some []
  | 0x45 => some []
  | 0x46 => some []
  | 0x47 => some [.addr, .u16]
  | _ => none

/-- A record that is a command (30_encoding.md R150 to R153). -/
def CommandRecord.wellFormed (r : CommandRecord) : Bool :=
  match signature r.op.toNat with
  | some ts => operandsFit ts r.operands
  | none => false

/-- An encoded form that stands for an instruction: a well-formed record, or a delimiter (R121, R129). -/
def Encoded.wellFormed : Encoded → Bool
  | .command r => r.wellFormed
  | .wire b => b == 0x23#8 || b == 0x3F#8 || b == 0x21#8 || b == 0x22#8

end Sys2Proof
end

