-- ==== Sys2Proof/Decode.lean ====
section
/-! DEFINITION. Character codes, the two decoders (command port and wire), and the encoder. -/

namespace Sys2Proof

/-! ## Character codes (30_encoding.md R120) -/

/-- `#` -/
def chHash : Byte := 0x23#8
/-- `?` -/
def chQuestion : Byte := 0x3F#8
/-- `!` -/
def chBang : Byte := 0x21#8
/-- `"` -/
def chQuote : Byte := 0x22#8
/-- `,` -/
def chComma : Byte := 0x2C#8
/-- `;` -/
def chSemi : Byte := 0x3B#8
/-- `0` -/
def chZero : Byte := 0x30#8
/-- `1` -/
def chOne : Byte := 0x31#8
/-- `-` -/
def chMinus : Byte := 0x2D#8
/-- `.` -/
def chDot : Byte := 0x2E#8
/-- The line terminator. -/
def chNewline : Byte := 0x0A#8
/-- The text terminator. -/
def chNul : Byte := 0x00#8
/-- `nan` (30_encoding.md R132). -/
def chNan : List Byte := [0x6E#8, 0x61#8, 0x6E#8]
/-- `inf` (30_encoding.md R132). -/
def chInf : List Byte := [0x69#8, 0x6E#8, 0x66#8]

/-! ## Decoding -/

/-- Why an encoded form is no instruction. -/
inductive Reject where
  /-- A reserved opcode (30_encoding.md R153). -/
  | reservedOpcode (op : Byte)
  /-- An operand outside its type (60_exceptions.md R348); or the wrong number of operands, which the spec does not
  speak of: DESIGN CHOICE (log 17). -/
  | operandOutOfType (op : Byte)
  /-- A wire byte that starts no frame (30_encoding.md R129). -/
  | notADelimiter (b : Byte)
  deriving DecidableEq, Repr

/-- An N-bit operand: a value below `2^N`. -/
def readBits (w : Nat) : Option Nat → Option (BitVec w)
  | some n => if n < 2 ^ w then some (BitVec.ofNat w n) else none
  | none => none

/-- A `bool` operand: 0 or 1 (30_encoding.md R154). -/
def readFlag : Option Nat → Option Bool
  | some 0 => some false
  | some 1 => some true
  | _ => none

/-- An `Option addr` operand: any natural number, or absent. -/
def readOptAddr (v : Option Nat) : Option (Option Nat) := some v

/-- A command without operands. -/
def decode0 (i : Instr) : List (Option Nat) → Option Instr
  | [] => some i
  | _ => none

/-- A command of one operand. -/
def decode1 {α : Type} (mk : α → Instr) (r : Option Nat → Option α) : List (Option Nat) → Option Instr
  | [x] => (r x).map mk
  | _ => none

/-- A command of two operands. -/
def decode2 {α β : Type} (mk : α → β → Instr) (r : Option Nat → Option α) (q : Option Nat → Option β) :
    List (Option Nat) → Option Instr
  | [x, y] => (r x).bind fun a => (q y).map (mk a)
  | _ => none

/-- A command of three operands. -/
def decode3 {α β γ : Type} (mk : α → β → γ → Instr) (r : Option Nat → Option α) (q : Option Nat → Option β)
    (p : Option Nat → Option γ) : List (Option Nat) → Option Instr
  | [x, y, z] => (r x).bind fun a => (q y).bind fun b => (p z).map (mk a b)
  | _ => none

/-- The opcode map of 30_encoding.md R152: how each opcode's operands are read. `none` is a reserved
opcode (R153). An `addr` operand is any natural number (R151), so it is read as it stands. -/
def operandReader (op : Nat) : Option (List (Option Nat) → Option Instr) :=
  match op with
  | 0x01 => some (decode0 .receive)
  | 0x10 => some (decode1 .transmitAscii (readBits 8))
  | 0x11 => some (decode2 .transmitAck (readBits 8) readFlag)
  | 0x12 => some (decode1 .transmitBinary (readBits 8))
  | 0x13 => some (decode1 .transmitString (readBits 8))
  | 0x14 => some (decode2 .transmitStringText (readBits 8) id)
  | 0x20 => some (decode2 .assignBinaryRxBuffer readOptAddr (readBits 32))
  | 0x21 => some (decode3 .assignBinaryTxBuffer readOptAddr (readBits 32) (readBits 16))
  | 0x30 => some (decode1 .addUint8 (readBits 8))
  | 0x31 => some (decode1 .addUint16 (readBits 16))
  | 0x32 => some (decode1 .addUint32 (readBits 32))
  | 0x33 => some (decode1 .addInt8 (readBits 8))
  | 0x34 => some (decode1 .addInt16 (readBits 16))
  | 0x35 => some (decode1 .addInt32 (readBits 32))
  | 0x36 => some (decode1 .addFloat (readBits 32))
  | 0x37 => some (decode1 .addString id)
  | 0x40 => some (decode0 .getUint8)
  | 0x41 => some (decode0 .getUint16)
  | 0x42 => some (decode0 .getUint32)
  | 0x43 => some (decode0 .getInt8)
  | 0x44 => some (decode0 .getInt16)
  | 0x45 => some (decode0 .getInt32)
  | 0x46 => some (decode0 .getFloat)
  | 0x47 => some (decode2 .getString id (readBits 16))
  | _ => none

/-- The command port's decoder (30_encoding.md R150 to R153, 60_exceptions.md R348, R353). DESIGN CHOICE (log 17): a
record with too few or too many operands, of which neither R150, R151 nor R348 speaks, is no command either. -/
def decodeCommand (r : CommandRecord) : Except Reject Instr :=
  match operandReader r.op.toNat with
  | none => .error (.reservedOpcode r.op)
  | some read =>
    match read r.operands with
    | some i => .ok i
    | none => .error (.operandOutOfType r.op)

/-- The wire decoder: the delimiter table of 42_frame_reader.md R185 (30_encoding.md R121). -/
def decodeWire (b : Byte) : Except Reject Instr :=
  if b = chHash then .ok .frameAscii
  else if b = chQuestion then .ok .frameAck
  else if b = chBang then .ok .frameBinary
  else if b = chQuote then .ok .frameString
  else .error (.notADelimiter b)

/-- The decoder of both encoding spaces. -/
def decode : Encoded → Except Reject Instr
  | .command r => decodeCommand r
  | .wire b => decodeWire b

/-! ## Encoding -/

/-- The encoded form of an instruction, from 30_encoding.md R152 and R121. -/
def encode : Instr → Encoded
  | .receive => .command ⟨0x01#8, []⟩
  | .transmitAscii id => .command ⟨0x10#8, [some id.toNat]⟩
  | .transmitAck id value => .command ⟨0x11#8, [some id.toNat, some value.toNat]⟩
  | .transmitBinary id => .command ⟨0x12#8, [some id.toNat]⟩
  | .transmitString id => .command ⟨0x13#8, [some id.toNat]⟩
  | .transmitStringText id text => .command ⟨0x14#8, [some id.toNat, some text]⟩
  | .assignBinaryRxBuffer buf cap => .command ⟨0x20#8, [buf, some cap.toNat]⟩
  | .assignBinaryTxBuffer buf cap length => .command ⟨0x21#8, [buf, some cap.toNat, some length.toNat]⟩
  | .addUint8 v => .command ⟨0x30#8, [some v.toNat]⟩
  | .addUint16 v => .command ⟨0x31#8, [some v.toNat]⟩
  | .addUint32 v => .command ⟨0x32#8, [some v.toNat]⟩
  | .addInt8 v => .command ⟨0x33#8, [some v.toNat]⟩
  | .addInt16 v => .command ⟨0x34#8, [some v.toNat]⟩
  | .addInt32 v => .command ⟨0x35#8, [some v.toNat]⟩
  | .addFloat x => .command ⟨0x36#8, [some x.toNat]⟩
  | .addString text => .command ⟨0x37#8, [some text]⟩
  | .getUint8 => .command ⟨0x40#8, []⟩
  | .getUint16 => .command ⟨0x41#8, []⟩
  | .getUint32 => .command ⟨0x42#8, []⟩
  | .getInt8 => .command ⟨0x43#8, []⟩
  | .getInt16 => .command ⟨0x44#8, []⟩
  | .getInt32 => .command ⟨0x45#8, []⟩
  | .getFloat => .command ⟨0x46#8, []⟩
  | .getString dest len => .command ⟨0x47#8, [some dest, some len.toNat]⟩
  | .frameAscii => .wire chHash
  | .frameAck => .wire chQuestion
  | .frameBinary => .wire chBang
  | .frameString => .wire chQuote

/-! ## Table words -/

/-- The record a table word of the command space stands for: the opcode, and operand values of zero
(an absent operand word is 0, so an `Option addr` is the address 0). -/
def tableRecord (w : Nat) : CommandRecord where
  op := BitVec.ofNat 8 w
  operands := List.replicate (((signature (w % 2 ^ 8)).map List.length).getD 0) (some 0)

/-- The encoded form of a table word. The byte 0x21 is an opcode (ASSIGN_BINARY_TX_BUFFER) and a
delimiter (FRAME_BINARY); DESIGN CHOICE: a word that is an opcode is read on the command port (log 1). -/
def tableForm (w : Nat) : Encoded :=
  match decodeCommand (tableRecord w) with
  | .ok _ => .command (tableRecord w)
  | .error _ =>
    match decodeWire (BitVec.ofNat 8 w) with
    | .ok _ => .wire (BitVec.ofNat 8 w)
    | .error _ => .command (tableRecord w)

/-- What the decoder reads from a word numbered as spec/opcode_table.json numbers it. Every row has
8 bits, and the table places no operand in them. -/
def decodeTableWord (nbits w : Nat) : Option Instr :=
  if 8 ≤ nbits ∧ w < 2 ^ 8 then
    match decode (tableForm w) with
    | .ok i => some i
    | .error _ => none
  else none

end Sys2Proof
end

