-- ==== Sys2Proof/Config.lean ====
section
/-! DEFINITION. The configuration parameters of 00_scope.md R10: fixed for one machine, an argument of the model. -/

namespace Sys2Proof

/-- How exact ties are rounded when a float is rendered: the values of `FLOAT_FMT_TIES`
(00_scope.md R10, 30_encoding.md R132). -/
inductive Ties where
  | even
  | away
  deriving DecidableEq, Repr

/-- The parameters of 00_scope.md R10. -/
structure Config where
  /-- `BASE_TIMEOUT_MS`: receive deadline offset from entry. -/
  baseTimeoutMs : Nat
  /-- `BINARY_EXT_MS`: deadline extension on `!`. -/
  binaryExtMs : Nat
  /-- `TEXT_CAP`: visible bytes of the RX and TX ASCII text buffers. -/
  textCap : Nat
  /-- `STR_CAP`: visible bytes of the RX and TX string buffers. -/
  strCap : Nat
  /-- `ID_DIGITS`: most digits of an id field. -/
  idDigits : Nat
  /-- `LEN_DIGITS`: most digits of a length field. -/
  lenDigits : Nat
  /-- `CS_DIGITS`: most digits of a checksum trailer. -/
  csDigits : Nat
  /-- `HOSTMEM_SIZE`: bytes of host memory. -/
  hostMemSize : Nat
  /-- `FLOAT_FMT_TIES`: rounding of exact ties in float rendering. -/
  floatFmtTies : Ties
  deriving DecidableEq, Repr

/-- The defaults of 00_scope.md R10. `HOSTMEM_SIZE` is OPEN there; DESIGN CHOICE: 0x1000, the size
of every vector of 95_test_vectors.md that uses memory (log 5). -/
def Config.default : Config where
  baseTimeoutMs := 100
  binaryExtMs := 900
  textCap := 127
  strCap := 127
  idDigits := 3
  lenDigits := 5
  csDigits := 5
  hostMemSize := 0x1000
  floatFmtTies := .even

end Sys2Proof
end

