-- ==== Sys2Proof/Machine/State.lean ====
section
/-! DEFINITION. The machine's state: every engine register of 10_state.md, the four stores of 20_memory.md R80,
the parameters of 00_scope.md R10, and the environment's pending moves; and the state after reset. -/

namespace Sys2Proof.Machine

/-- The fault reasons of 60_exceptions.md R347. The entry into `Faulted` is a next state; `step` answers
the fault when the engine is given a turn in that state, where it has no step (log 10). -/
inductive Fault where
  /-- Raised by `MemRead` and `MemWrite` at an address at or beyond `HOSTMEM_SIZE` (20_memory.md R82), and
  so by RECEIVE's binary payload, TRANSMIT_BINARY, TRANSMIT_STRING_TEXT, ADD_STRING and GET_STRING. The
  spec gives this fault, so answering it is safe. -/
  | memRange
  /-- Raised by `RxPeek` and `RxTake` on an empty queue (20_memory.md R89); no step reaches it. Safe. -/
  | rxEmptyAccess
  deriving DecidableEq, Repr

/-- The reasons a request is refused (60_exceptions.md R348). -/
inductive Refusal where
  /-- Answered by `exec` for an instruction that has no meaning yet; no arm does. Safe. -/
  | notModelled (mnemonic : String)
  /-- Answered by the command port for a reserved opcode or an operand outside its type
  (30_encoding.md R153, 60_exceptions.md R348), where the spec gives this refusal; and, DESIGN CHOICE (log 17), for a
  record with too few or too many operands, of which the spec says nothing. Safe. -/
  | illegalCommand
  /-- Answered to a HOST write of `TX_STR` longer than `STR_CAP` (45_binary_string.md R324). The spec gives
  this refusal. Safe. -/
  | txStrTooLong
  /-- Answered to a HOST write of `HOSTMEM` at an address outside it. DESIGN CHOICE (log 14): the spec gives
  the HOST only the bytes 0 .. `HOSTMEM_SIZE-1` (20_memory.md R81). Safe. -/
  | hostAddressOutside
  deriving DecidableEq, Repr

/-- The message kind of `RES_KIND` (10_state.md R33). -/
inductive MessageKind where
  | none
  | ascii
  | ack
  | binary
  | string
  deriving DecidableEq, Repr

/-- The failure codes of `LAST_FAIL` (60_exceptions.md R341). -/
inductive FailCode where
  | none
  | noInput
  | timeout
  | malformed
  | range
  | overflow
  | capacity
  | txNoBuffer
  | textTooLong
  | textFull
  | getNoField
  | getSyntax
  | getRange
  | getBadLen
  deriving DecidableEq, Repr

/-- `RX_ASCII` (10_state.md R37). -/
structure AsciiRecord where
  id : Byte
  numParams : Byte
  text : List Byte
  checksumValid : Bool
  deriving DecidableEq, Repr

/-- `RX_ACK` (10_state.md R38). -/
structure AckRecord where
  id : Byte
  value : Bool
  checksumValid : Bool
  deriving DecidableEq, Repr

/-- `RX_BIN` (10_state.md R39). -/
structure BinaryRecord where
  id : Byte
  length : U16
  checksumValid : Bool
  deriving DecidableEq, Repr

/-- `RX_STR` (10_state.md R40). -/
structure StringRecord where
  id : Byte
  length : U16
  data : List Byte
  checksumValid : Bool
  deriving DecidableEq, Repr

/-- `BIN_RX_DESC` (10_state.md R42). -/
structure RxDesc where
  assigned : Bool
  base : Nat
  cap : U32
  deriving DecidableEq, Repr

/-- `BIN_TX_DESC` (10_state.md R43). -/
structure TxDesc where
  assigned : Bool
  base : Nat
  cap : U32
  length : U16
  deriving DecidableEq, Repr

/-- The default values of 10_state.md R37 to R40, R42 and R43. -/
def AsciiRecord.default : AsciiRecord := ⟨0#8, 0#8, [], false⟩
def AckRecord.default : AckRecord := ⟨0#8, false, false⟩
def BinaryRecord.default : BinaryRecord := ⟨0#8, 0#16, false⟩
def StringRecord.default : StringRecord := ⟨0#8, 0#16, [], false⟩
def RxDesc.default : RxDesc := ⟨false, 0, 0#32⟩
def TxDesc.default : TxDesc := ⟨false, 0, 0#32, 0#16⟩

/-- A message whose body has been read and whose checksum trailer is awaited: the local variables that the
sub-parsers of 42_frame_reader.md R192, R197, R198 and R199 carry into `ReadTrailer`. -/
inductive Parsed where
  | ascii (id : Byte) (numParams : Nat) (text : List Byte)
  | ack (id : Byte) (value : Bool)
  | binary (id : Byte) (length : U16)
  | string (id : Byte) (length : U16) (data : List Byte)
  deriving DecidableEq, Repr

/-- Which numeric field a `ReadField` is reading (42_frame_reader.md R186, R188, R192, R197 to R199), with the
locals of the sub-parser that called it. -/
inductive FieldUse where
  | asciiId
  | ackId
  | binId
  | binLen (id : Byte)
  | strId
  | strLen (id : Byte)
  | trailer (expected : U16) (m : Parsed)
  deriving DecidableEq, Repr

/-- The continuation `k` of `Busy(RECEIVE, k)` (10_state.md R31, R32): the wait loop whose next iteration is
the next ENGINE step, with the locals of RECEIVE. -/
inductive ReceiveAt where
  /-- The scan loop (42_frame_reader.md R184). -/
  | scan
  /-- The loop of `ReadField`, with its accumulator (R186). -/
  | field (use : FieldUse) (acc : List Byte)
  /-- `ReadField`'s `WaitByte` for the terminator (R186). -/
  | fieldEnd (use : FieldUse) (acc : List Byte)
  /-- The payload byte of `ParseAscii` (R192). -/
  | asciiByte (id : Byte) (numParams : Nat) (text : List Byte)
  /-- The value byte of `ParseAck` (R197). -/
  | ackValue (id : Byte)
  /-- The payload end of `ParseAck` (R197). -/
  | ackEnd (id : Byte) (value : Bool)
  /-- Payload byte `i` of `ParseBinary` (R198). -/
  | binByte (id : Byte) (length : U16) (i : Nat)
  /-- The payload end of `ParseBinary` (R198). -/
  | binEnd (id : Byte) (length : U16)
  /-- Payload byte `i` of `ParseString` (R199). -/
  | strByte (id : Byte) (length : U16) (i : Nat) (data : List Byte)
  /-- The payload end of `ParseString` (R199). -/
  | strEnd (id : Byte) (length : U16) (data : List Byte)
  deriving DecidableEq, Repr

/-- `PHASE` (10_state.md R31). Only RECEIVE is observed Busy between steps. -/
inductive Phase where
  | idle
  | busy (k : ReceiveAt)
  | faulted (r : Fault)
  deriving DecidableEq, Repr

/-- What the HOST asks for (20_memory.md R101): a command, the write of `TX_STR` (45_binary_string.md R324),
or a write of `HOSTMEM` from an address on (30_encoding.md R154, POKE). -/
inductive HostRequest where
  | command (r : CommandRecord)
  | writeTxStr (s : List Byte)
  | poke (addr : Nat) (bytes : List Byte)
  deriving DecidableEq, Repr

/-- Which agent moves next: the LINK's `Arrive` or `Tick` (20_memory.md R94), the ENGINE (with the HOST,
which acts only where the engine is Idle, R101), or reset (70_reset_and_hazards.md R380). -/
inductive Turn where
  | arrive (b : Byte)
  | tick
  | engine
  | reset
  deriving DecidableEq, Repr

/-- `HOSTMEM`, byte by byte: addresses strictly rising, no entry equal to what an unlisted address reads as. -/
abbrev Memory := List Host.Cell

structure State where
  /-- The parameters of 00_scope.md R10; no step changes them. -/
  config : Config
  /-- `PHASE` (10_state.md R31). -/
  phase : Phase
  /-- `RES_KIND` (R33). -/
  resKind : MessageKind
  /-- `RES_OK` (R33). -/
  resOk : Bool
  /-- `RES_VALUE` (R33). -/
  resValue : U32
  /-- `LAST_FAIL` (R33). -/
  lastFail : FailCode
  /-- `CS_A` (R34). -/
  csA : Byte
  /-- `CS_B` (R34). -/
  csB : Byte
  /-- `DEADLINE` (R35). -/
  deadline : U32
  /-- `RX_CURSOR` (R36). -/
  rxCursor : Nat
  /-- `RX_ASCII` (R37). -/
  rxAscii : AsciiRecord
  /-- `RX_ACK` (R38). -/
  rxAck : AckRecord
  /-- `RX_BIN` (R39). -/
  rxBin : BinaryRecord
  /-- `RX_STR` (R40). -/
  rxStr : StringRecord
  /-- `BIN_RX_DESC` (R42). -/
  binRxDesc : RxDesc
  /-- `BIN_TX_DESC` (R43). -/
  binTxDesc : TxDesc
  /-- `TX_TEXT` (R44). -/
  txText : List Byte
  /-- `TX_STR` (R45). -/
  txStr : List Byte
  /-- `HOSTMEM` (20_memory.md R81). -/
  hostMem : Memory
  /-- `RX_FIFO`, oldest first (20_memory.md R89). -/
  rxFifo : List Byte
  /-- `TX_OUT`, oldest first (20_memory.md R91). -/
  txOut : List Byte
  /-- `NOW` (20_memory.md R92). -/
  now : U32
  /-- The HOST's pending requests, oldest first (the model's own, log 3). -/
  port : List HostRequest
  /-- Which agents move next, in order; where nothing is listed the ENGINE, or the clock where the ENGINE only waits
  (the model's own, log 3). -/
  schedule : List Turn
  deriving DecidableEq, Repr

/-- The state after the first reset of a run (10_state.md R47, 20_memory.md R104), for any parameters and any
launch contents of the environment's stores. -/
def State.launch (config : Config) (hostMem : Memory) (rxFifo : List Byte) (now : U32) : State where
  config := config
  phase := .idle
  resKind := .none
  resOk := false
  resValue := 0#32
  lastFail := .none
  csA := 0#8
  csB := 0#8
  deadline := 0#32
  rxCursor := 0
  rxAscii := .default
  rxAck := .default
  rxBin := .default
  rxStr := .default
  binRxDesc := .default
  binTxDesc := .default
  txText := []
  txStr := []
  hostMem := hostMem
  rxFifo := rxFifo
  txOut := []
  now := now
  port := []
  schedule := []

/-- The machine right after reset. The engine registers are 10_state.md R47. DESIGN CHOICE: default
parameters with `HOSTMEM_SIZE` 0x1000 (log 5), `RX_FIFO` empty and `NOW` 0 (log 6), no byte of `HOSTMEM`
listed (log 7), nothing presented and nothing scheduled (log 3). -/
def State.reset : State := State.launch Config.default [] [] 0#32

end Sys2Proof.Machine
end

