-- ==== Sys2Proof/Machine/Flags.lean ====
section
/-! DEFINITION. The Checksum Engine (41_checksum.md), the codes of the result enums, and the writes of the
result registers `RES_KIND`, `RES_OK`, `RES_VALUE` and `LAST_FAIL`. -/

namespace Sys2Proof.Machine

/-! ## Checksum Engine -/

/-- `CsReset` (41_checksum.md R170). -/
def csReset (s : State) : State := { s with csA := 0#8, csB := 0#8 }

/-- `CsUpdate` (R171): the second sum uses the new value of `CS_A`. -/
def csUpdate (b : Byte) (s : State) : State := { s with csA := s.csA + b, csB := s.csB + (s.csA + b) }

/-- `CsUpdate` of each byte in order. -/
def csUpdateSeq (bs : List Byte) (s : State) : State := bs.foldl (fun s b => csUpdate b s) s

/-- `CsCombined` (R172): `CS_A` is the high byte. -/
def csCombined (s : State) : U16 := s.csA ++ s.csB

/-- One update of the accumulator pair, apart from the state (R171). -/
def csStep (p : Byte × Byte) (b : Byte) : Byte × Byte := (p.1 + b, p.2 + (p.1 + b))

/-- `Cs(s)`, the checksum over a byte sequence (R173). -/
def checksumOf (bs : List Byte) : U16 :=
  let p := bs.foldl csStep (0#8, 0#8)
  p.1 ++ p.2

/-! ## Codes of the enum registers -/

/-- The 3-bit value of `RES_KIND` (10_state.md R33). -/
def kindCode : MessageKind → BitVec 3
  | .none => 0
  | .ascii => 1
  | .ack => 2
  | .binary => 3
  | .string => 4

/-- The 4-bit value of `LAST_FAIL` (60_exceptions.md R341). -/
def failNumber : FailCode → BitVec 4
  | .none => 0
  | .noInput => 1
  | .timeout => 2
  | .malformed => 3
  | .range => 4
  | .overflow => 5
  | .capacity => 6
  | .txNoBuffer => 7
  | .textTooLong => 8
  | .textFull => 9
  | .getNoField => 10
  | .getSyntax => 11
  | .getRange => 12
  | .getBadLen => 13

/-! ## Result registers -/

/-- `LAST_FAIL <- NONE` and a bare `finish` (00_scope.md R12): a command that has no result. -/
def finishQuiet (s : State) : State := { s with lastFail := .none, phase := .idle }

/-- `RES_OK <- 1; LAST_FAIL <- NONE` and `finish`. -/
def finishOk (s : State) : State := { s with resOk := true, lastFail := .none, phase := .idle }

/-- `RES_OK <- 0; LAST_FAIL <- code` and `finish` (60_exceptions.md R342; `GetFail` of 44_param_codec.md R280). -/
def finishFail (code : FailCode) (s : State) : State := { s with resOk := false, lastFail := code, phase := .idle }

/-- `GetOk` (44_param_codec.md R280). -/
def getOk (v : U32) (q : Nat) (s : State) : State := finishOk { s with resValue := v, rxCursor := q }

/-- `ResetRxRecords` (42_frame_reader.md R183). -/
def resetRxRecords (s : State) : State :=
  { s with rxAscii := .default, rxAck := .default, rxBin := .default, rxStr := .default, rxCursor := 0 }

/-- `fail(code)`, the failure exit of RECEIVE (60_exceptions.md R342). -/
def failReceive (code : FailCode) (s : State) : State :=
  { resetRxRecords s with resKind := .none, lastFail := code, phase := .idle }

/-- `finish(kind)`, the success exit of RECEIVE (42_frame_reader.md R201). -/
def finishReceive (kind : MessageKind) (s : State) : State :=
  { s with resKind := kind, lastFail := .none, phase := .idle }

end Sys2Proof.Machine
end

