-- ==== Sys2Proof/Machine/Ops.lean ====
section
/-! DEFINITION. The primitives of 20_memory.md: host memory, receive queue, transmit stream, clock; the
entry into a fault (60_exceptions.md R347) and reset, the only way out (70_reset_and_hazards.md R380); and
the moves of the HOST and the LINK. -/

namespace Sys2Proof.Machine

/-! ## Memory as data -/

/-- What an address that is not listed reads as. DESIGN CHOICE (log 7): the spec gives `HOSTMEM` no contents
at reset (20_memory.md R104). -/
def unlistedByte : Byte := 0#8

/-- The byte at an address. -/
def Memory.get : Memory → Nat → Byte
  | [], _ => unlistedByte
  | c :: m, a => if c.1 = a then c.2 else Memory.get m a

/-- The memory without any entry for an address. -/
def Memory.erase : Memory → Nat → Memory
  | [], _ => []
  | c :: m, a => if c.1 = a then m else c :: Memory.erase m a

/-- The memory with an entry for an address, in its place. -/
def Memory.insert : Memory → Nat → Byte → Memory
  | [], a, v => [(a, v)]
  | c :: m, a, v =>
    if a < c.1 then (a, v) :: c :: m
    else if c.1 = a then (a, v) :: m
    else c :: Memory.insert m a v

/-- One byte written, in canonical form. -/
def Memory.set (m : Memory) (a : Nat) (v : Byte) : Memory :=
  if v = unlistedByte then m.erase a else m.insert a v

/-- Bytes written from an address on, in order. -/
def Memory.setSeq : Memory → Nat → List Byte → Memory
  | m, _, [] => m
  | m, a, v :: vs => Memory.setSeq (m.set a v) (a + 1) vs

/-- The canonical form: addresses strictly rising, no entry equal to what an unlisted address reads as. -/
abbrev Memory.wf (m : Memory) : Prop :=
  m.Pairwise (fun c d => c.1 < d.1) ∧ ∀ c ∈ m, c.2 ≠ unlistedByte

/-! ## Faults -/

/-- `fault(reason)` (60_exceptions.md R347): `s` is the state at the start of the step, so every effect of
the step is discarded. -/
def enterFault (r : Fault) (s : State) : State := { s with phase := .faulted r }

/-- A step's outcome: its state, or the entry into the fault it met (60_exceptions.md R347). -/
def settle (s : State) : Except Fault State → Host.Outcome State Fault Refusal
  | .ok t => .next t
  | .error r => .next (enterFault r s)

/-! ## Host memory primitives -/

/-- `MemRead(addr, 1)` (20_memory.md R82). -/
def memRead (s : State) (a : Nat) : Except Fault Byte :=
  if s.config.hostMemSize ≤ a then .error .memRange else .ok (s.hostMem.get a)

/-- `MemWrite(addr, 1, v)` (20_memory.md R82). -/
def memWrite (a : Nat) (v : Byte) (s : State) : Except Fault State :=
  if s.config.hostMemSize ≤ a then .error .memRange else .ok { s with hostMem := s.hostMem.set a v }

/-- `[MemRead(a + i, 1) for i in 0 .. n-1]` (43_frame_writer.md R246). -/
def memReadSeq (s : State) : Nat → Nat → Except Fault (List Byte)
  | _, 0 => .ok []
  | a, n + 1 =>
    match memRead s a with
    | .error r => .error r
    | .ok b =>
      match memReadSeq s (a + 1) n with
      | .error r => .error r
      | .ok bs => .ok (b :: bs)

/-- `MemWrite(a + i, 1, bs[i])` for each byte in order (44_param_codec.md R289). -/
def memWriteSeq : Nat → List Byte → State → Except Fault State
  | _, [], s => .ok s
  | a, b :: bs, s =>
    match memWrite a b s with
    | .error r => .error r
    | .ok t => memWriteSeq (a + 1) bs t

/-! ## Receive queue primitives (20_memory.md R89) -/

/-- `RxEmpty()` -/
def rxEmpty (s : State) : Bool := s.rxFifo.isEmpty

/-- `RxPeek()` -/
def rxPeek (s : State) : Except Fault Byte :=
  match s.rxFifo with
  | [] => .error .rxEmptyAccess
  | b :: _ => .ok b

/-- `RxTake()` -/
def rxTake (s : State) : Except Fault (Byte × State) :=
  match s.rxFifo with
  | [] => .error .rxEmptyAccess
  | b :: rest => .ok (b, { s with rxFifo := rest })

/-- `RxDiscard()` -/
def rxDiscard (s : State) : State := { s with rxFifo := [] }

/-! ## Transmit stream primitives (20_memory.md R91) -/

/-- `TxPutSeq(s)`; `TxPut(b)` is the sequence of one byte. -/
def txPutSeq (bs : List Byte) (s : State) : State := { s with txOut := s.txOut ++ bs }

/-! ## Clock and deadline -/

/-- `Expired()` (20_memory.md R93). -/
def expired (s : State) : Bool := (s.now - s.deadline).toNat < 2 ^ 31

/-- `DEADLINE <- (Now() + BASE_TIMEOUT_MS) mod 2^32` (42_frame_reader.md R182). -/
def armDeadline (s : State) : State :=
  { s with deadline := s.now + BitVec.ofNat 32 s.config.baseTimeoutMs }

/-- `DEADLINE <- (DEADLINE + BINARY_EXT_MS) mod 2^32` (42_frame_reader.md R190). -/
def extendDeadline (s : State) : State :=
  { s with deadline := s.deadline + BitVec.ofNat 32 s.config.binaryExtMs }

/-! ## Moves of the LINK, of reset and of the HOST -/

/-- `Arrive(b)` (20_memory.md R94). -/
def linkArrive (b : Byte) (s : State) : State := { s with rxFifo := s.rxFifo ++ [b] }

/-- `Tick` (20_memory.md R92). -/
def linkTick (s : State) : State := { s with now := s.now + 1#32 }

/-- Reset in any phase (70_reset_and_hazards.md R380): every engine register at its value of 10_state.md R47;
`HOSTMEM`, `RX_FIFO` and `NOW` unchanged; `TX_OUT` empty, since it holds what was written since reset
(20_memory.md R80, R104). DEDUCED for a reset that is not the first of a run, and the HOST's pending requests stay pending (log 12). -/
def applyReset (s : State) : State :=
  { State.launch s.config s.hostMem s.rxFifo s.now with port := s.port, schedule := s.schedule }

/-- `HostWriteTxStr` (45_binary_string.md R324). -/
def hostWriteTxStr (bs : List Byte) (s : State) : Host.Outcome State Fault Refusal :=
  if s.config.strCap < bs.length then .refused .txStrTooLong else .next { s with txStr := bs }

/-- The HOST writes `HOSTMEM` from an address on (20_memory.md R81, 30_encoding.md R154); a byte outside it
does not exist (log 14). -/
def hostPoke (a : Nat) (bs : List Byte) (s : State) : Host.Outcome State Fault Refusal :=
  if a + bs.length ≤ s.config.hostMemSize ∨ bs = [] then .next { s with hostMem := s.hostMem.setSeq a bs }
  else .refused .hostAddressOutside

end Sys2Proof.Machine
end

