-- ==== Sys2Proof/Machine/Operands.lean ====
section
/-! DEFINITION. The operand forms: decimal renderings and readings (00_scope.md R14), float rendering and
reading (30_encoding.md R132, 44_param_codec.md R288), parameter fields (44_param_codec.md R280) and
NUL-terminated text in host memory (43_frame_writer.md R248, 44_param_codec.md R279). -/

namespace Sys2Proof.Machine

/-! ## Decimal (00_scope.md R14) -/

/-- The digit of a value below 10. -/
def digitByte (n : Nat) : Byte := BitVec.ofNat 8 (0x30 + n)

/-- A byte `0` .. `9`. -/
def isDigit (b : Byte) : Bool := 0x30 ≤ b.toNat && b.toNat ≤ 0x39

/-- The value of a digit. -/
def digitVal (b : Byte) : Nat := b.toNat - 0x30

/-- The digits of `n` put before `acc`; `fuel` bounds their number. -/
def decDigits : Nat → Nat → List Byte → List Byte
  | 0, _, acc => acc
  | fuel + 1, n, acc =>
    if n < 10 then digitByte n :: acc else decDigits fuel (n / 10) (digitByte (n % 10) :: acc)

/-- `Dec(n)`: most significant digit first, no leading zeros, zero as `0`. A number has at most one more
decimal digit than its binary logarithm. -/
def dec (n : Nat) : List Byte := decDigits (n.log2 + 1) n []

/-- `SDec(n)`. -/
def sdec (n : Int) : List Byte := if n < 0 then chMinus :: dec n.natAbs else dec n.natAbs

/-- `DecVal(s)`, leading zeros permitted. -/
def decVal (bs : List Byte) : Nat := bs.foldl (fun n b => 10 * n + digitVal b) 0

/-- `Pad6(f)` (30_encoding.md R132): `Dec(f)` left-padded with `0` to 6 bytes. -/
def pad6 (f : Nat) : List Byte := List.replicate (6 - (dec f).length) chZero ++ dec f

/-! ## Rounding -/

/-- The integer nearest `num / den`, ties as `ties` says (`RoundInt` of 30_encoding.md R132). -/
def roundQuot (ties : Ties) (num den : Nat) : Nat :=
  let q := num / den
  let r := num % den
  if 2 * r < den then q
  else if den < 2 * r then q + 1
  else match ties with
    | .even => if q % 2 = 0 then q else q + 1
    | .away => q + 1

/-! ## Float rendering (30_encoding.md R132)

A binary32 has sign bit 31, exponent bits 30..23 with bias 127 and fraction bits 22..0. -/

/-- The sign bit. -/
def floatSign (x : U32) : Bool := x.msb

/-- The exponent field. -/
def floatExp (x : U32) : Nat := x.toNat / 2 ^ 23 % 2 ^ 8

/-- The fraction field. -/
def floatFrac (x : U32) : Nat := x.toNat % 2 ^ 23

/-- The integer `M` of a finite value `M * 2^E`. -/
def floatMant (x : U32) : Nat := if floatExp x = 0 then floatFrac x else 2 ^ 23 + floatFrac x

/-- The exponent `E` of a finite value `M * 2^E`, raised by 150. -/
def floatScale (x : U32) : Nat := max (floatExp x) 1

/-- `RoundInt(m * 10^6, ties)` for the magnitude `m = M * 2^E` of a finite float. -/
def floatMicros (ties : Ties) (x : U32) : Nat :=
  roundQuot ties (floatMant x * 10 ^ 6 * 2 ^ (floatScale x - 150)) (2 ^ (150 - floatScale x))

/-- `FmtF(x)`. -/
def fmtF (ties : Ties) (x : U32) : List Byte :=
  (if floatSign x then [chMinus] else []) ++
    if floatExp x = 255 then if floatFrac x = 0 then chInf else chNan
    else dec (floatMicros ties x / 10 ^ 6) ++ [chDot] ++ pad6 (floatMicros ties x % 10 ^ 6)

/-! ## Float reading (44_param_codec.md R288) -/

/-- The floor of the binary logarithm of `num / den`, both positive. -/
def quotLog2 (num den : Nat) : Int :=
  let e : Int := num.log2 - den.log2
  if den * 2 ^ e.toNat ≤ num * 2 ^ (-e).toNat then e else e - 1

/-- The binary32 bit pattern nearest `num / den`, both positive, ties to even. The bounds on the exponent are
those of binary32; no field of at most 15 bytes reaches them (R288). -/
def roundBinary32 (num den : Nat) : Nat :=
  let e := max (quotLog2 num den) (-126)
  let k := e - 23
  min ((e + 126).toNat * 2 ^ 23 + roundQuot .even (num * 2 ^ (-k).toNat) (den * 2 ^ k.toNat)) 0x7F800000

/-- The bit pattern of `num / den` with a sign; a zero with `-` is -0.0 (R288). -/
def signedBinary32 (neg : Bool) (num den : Nat) : U32 :=
  BitVec.ofNat 32 ((if neg then 2 ^ 31 else 0) + if num = 0 then 0 else roundBinary32 num den)

/-- The magnitude syntax `D*(\.D*)?` with at least one `D`: its digits as an integer and the number of
digits after the point. -/
def parseMagnitude (f : List Byte) : Option (Nat × Nat) :=
  let ip := f.takeWhile isDigit
  match f.dropWhile isDigit with
  | [] => if ip = [] then none else some (decVal ip, 0)
  | c :: fr =>
    if c = chDot ∧ fr.all isDigit ∧ ¬(ip = [] ∧ fr = []) then some (decVal (ip ++ fr), fr.length) else none

/-- A leading `-` and the rest. -/
def splitSign (f : List Byte) : Bool × List Byte :=
  match f with
  | [] => (false, [])
  | c :: r => if c = chMinus then (true, r) else (false, c :: r)

/-- `ParseF(f)`. -/
def parseF (f : List Byte) : Except FailCode U32 :=
  match parseMagnitude (splitSign f).2 with
  | none => .error .getSyntax
  | some (n, places) => .ok (signedBinary32 (splitSign f).1 n (10 ^ places))

/-! ## Integer reading (44_param_codec.md R281, R284) -/

/-- At least one byte, and only digits: `D+` of 30_encoding.md R133. -/
def isNumber (f : List Byte) : Bool := !f.isEmpty && f.all isDigit

/-- The value of an unsigned field with a limit. -/
def parseUnsigned (max : Nat) (f : List Byte) : Except FailCode U32 :=
  if !isNumber f then .error .getSyntax
  else if max < decVal f then .error .getRange
  else .ok (BitVec.ofNat 32 (decVal f))

/-- The value of a signed field within a range, in 32-bit two's complement. -/
def parseSigned (lo hi : Int) (f : List Byte) : Except FailCode U32 :=
  let d := (splitSign f).2
  let v : Int := if (splitSign f).1 then -(decVal d : Int) else decVal d
  if !isNumber d then .error .getSyntax
  else if v < lo ∨ hi < v then .error .getRange
  else .ok (BitVec.ofInt 32 v)

/-! ## Parameter fields (44_param_codec.md R280) -/

/-- A byte that ends a parameter field: `,` or NUL. -/
def isFieldEnd (b : Byte) : Bool := b == chComma || b == chNul

/-- The bytes of a field: up to the first byte that ends it, at most `w`. -/
def fieldBytes : Nat → List Byte → List Byte
  | 0, _ => []
  | _, [] => []
  | w + 1, b :: bs => if isFieldEnd b then [] else b :: fieldBytes w bs

/-- `GetField(W)`: the field at the cursor and the index of the byte that ends it. `none` is the width
infinity of GET_STRING. -/
def getField (width : Option Nat) (s : State) : Except FailCode (List Byte × Nat) :=
  match s.rxAscii.text.drop s.rxCursor with
  | [] => .error .getNoField
  | c :: rest =>
    if c = chComma then
      let f := fieldBytes (width.getD rest.length) rest
      match rest.drop f.length with
      | [] => .ok (f, s.rxCursor + 1 + f.length)
      | b :: _ => if isFieldEnd b then .ok (f, s.rxCursor + 1 + f.length) else .error .getSyntax
    else .error .getNoField

/-! ## Text in host memory -/

/-- The NUL-terminated text at an address: `some` text of at most `room` bytes, or `none` where more than
`room` bytes come before the NUL. It reads at most `room + 1` bytes (43_frame_writer.md R248, 44_param_codec.md R279). -/
def readText (s : State) : Nat → Nat → Except Fault (Option (List Byte))
  | 0, a =>
    match memRead s a with
    | .error r => .error r
    | .ok b => .ok (if b = chNul then some [] else none)
  | room + 1, a =>
    match memRead s a with
    | .error r => .error r
    | .ok b =>
      if b = chNul then .ok (some [])
      else
        match readText s room (a + 1) with
        | .error r => .error r
        | .ok t => .ok (t.map (b :: ·))

end Sys2Proof.Machine
end

