-- ==== Sys2Proof/Machine/AddParam.lean ====
section
/-! DEFINITION. The encoders of the ASCII Parameter Codec (44_param_codec.md R271 to R279). -/

namespace Sys2Proof.Machine

/-- `Append(r)` (R271). -/
def appendParam (r : List Byte) (s : State) : State :=
  if s.config.textCap < s.txText.length + 1 + r.length then finishFail .textFull { s with txText := [] }
  else finishOk { s with txText := s.txText ++ chComma :: r }

/-- ADD_UINT8 (R272). -/
def execAddUint8 (v : Byte) (s : State) : Host.Outcome State Fault Refusal := .next (appendParam (dec v.toNat) s)

/-- ADD_UINT16 (R273). -/
def execAddUint16 (v : U16) (s : State) : Host.Outcome State Fault Refusal := .next (appendParam (dec v.toNat) s)

/-- ADD_UINT32 (R274). -/
def execAddUint32 (v : U32) (s : State) : Host.Outcome State Fault Refusal := .next (appendParam (dec v.toNat) s)

/-- ADD_INT8 (R275). -/
def execAddInt8 (v : BitVec 8) (s : State) : Host.Outcome State Fault Refusal := .next (appendParam (sdec v.toInt) s)

/-- ADD_INT16 (R276). -/
def execAddInt16 (v : BitVec 16) (s : State) : Host.Outcome State Fault Refusal := .next (appendParam (sdec v.toInt) s)

/-- ADD_INT32 (R277). -/
def execAddInt32 (v : BitVec 32) (s : State) : Host.Outcome State Fault Refusal := .next (appendParam (sdec v.toInt) s)

/-- ADD_FLOAT (R278). -/
def execAddFloat (x : U32) (s : State) : Host.Outcome State Fault Refusal :=
  .next (appendParam (fmtF s.config.floatFmtTies x) s)

/-- ADD_STRING (R279): where not even the `,` fits it fails before any read; else the text is read into the
room left, and a longer text fails like an append that does not fit. -/
def execAddString (text : Nat) (s : State) : Host.Outcome State Fault Refusal :=
  if s.config.textCap < s.txText.length + 1 then .next (appendParam [] s)
  else
    match readText s (s.config.textCap - s.txText.length - 1) text with
    | .error r => .next (enterFault r s)
    | .ok none => .next (finishFail .textFull { s with txText := [] })
    | .ok (some bs) => .next (appendParam bs s)

end Sys2Proof.Machine
end

