-- ==== Sys2Proof/Machine/Assign.lean ====
section
/-! DEFINITION. The buffer-assignment commands (45_binary_string.md). -/

namespace Sys2Proof.Machine

/-- ASSIGN_BINARY_RX_BUFFER (R320). -/
def execAssignBinaryRxBuffer (buf : Option Nat) (cap : U32) (s : State) : Host.Outcome State Fault Refusal :=
  .next (finishQuiet { s with binRxDesc := match buf with
    | none => .default
    | some a => ⟨true, a, cap⟩ })

/-- ASSIGN_BINARY_TX_BUFFER (R321). -/
def execAssignBinaryTxBuffer (buf : Option Nat) (cap : U32) (length : U16) (s : State) :
    Host.Outcome State Fault Refusal :=
  .next (finishQuiet { s with binTxDesc := match buf with
    | none => .default
    | some a => ⟨true, a, cap, length⟩ })

end Sys2Proof.Machine
end

