-- ==== Sys2Proof/Machine/GetParam.lean ====
section
/-! DEFINITION. The decoders of the ASCII Parameter Codec (44_param_codec.md R280 to R289). -/

namespace Sys2Proof.Machine

/-- A numeric GET (R281, R284, R287): the field of at most `width` bytes, its value, and only then the writes. -/
def getValue (width : Nat) (parse : List Byte → Except FailCode U32) (s : State) : State :=
  match getField (some width) s with
  | .error c => finishFail c s
  | .ok (f, q) =>
    match parse f with
    | .error c => finishFail c s
    | .ok v => getOk v q s

/-- GET_UINT8 (R281). -/
def execGetUint8 (s : State) : Host.Outcome State Fault Refusal := .next (getValue 3 (parseUnsigned 255) s)

/-- GET_UINT16 (R282). -/
def execGetUint16 (s : State) : Host.Outcome State Fault Refusal := .next (getValue 5 (parseUnsigned 65535) s)

/-- GET_UINT32 (R283). -/
def execGetUint32 (s : State) : Host.Outcome State Fault Refusal :=
  .next (getValue 10 (parseUnsigned 4294967295) s)

/-- GET_INT8 (R284). -/
def execGetInt8 (s : State) : Host.Outcome State Fault Refusal := .next (getValue 4 (parseSigned (-128) 127) s)

/-- GET_INT16 (R285). -/
def execGetInt16 (s : State) : Host.Outcome State Fault Refusal :=
  .next (getValue 6 (parseSigned (-32768) 32767) s)

/-- GET_INT32 (R286). -/
def execGetInt32 (s : State) : Host.Outcome State Fault Refusal :=
  .next (getValue 11 (parseSigned (-2147483648) 2147483647) s)

/-- GET_FLOAT (R287). -/
def execGetFloat (s : State) : Host.Outcome State Fault Refusal := .next (getValue 15 parseF s)

/-- What GET_STRING writes for a field `f` and a destination of `len ≥ 1` bytes (R289): its first
`min(|f|, len - 1)` bytes and a NUL. -/
def stringBytes (f : List Byte) (len : U16) : List Byte := f.take (len.toNat - 1) ++ [chNul]

/-- GET_STRING (R289). -/
def execGetString (dest : Nat) (len : U16) (s : State) : Host.Outcome State Fault Refusal :=
  if len = 0#16 then .next (finishFail .getBadLen s)
  else
    match getField none s with
    | .error c => .next (finishFail c s)
    | .ok (f, q) =>
      match memWriteSeq dest (stringBytes f len) s with
      | .error r => .next (enterFault r s)
      | .ok t => .next (finishOk { t with rxCursor := q })

end Sys2Proof.Machine
end

