-- ==== Sys2Proof/Machine/Receive.lean ====
section
/-! DEFINITION. The Frame Reader (42_frame_reader.md): RECEIVE's first step, the entry of each sub-parser
(the four FRAME rows), and what one iteration of a sub-parser's wait loop does. -/

namespace Sys2Proof.Machine

/-- The next ENGINE step is an iteration of the wait loop `k`. -/
def awaitAt (k : ReceiveAt) (s : State) : State := { s with phase := .busy k }

/-! ## RECEIVE's first step and the sub-parsers' entries -/

/-- RECEIVE (R180): its first step, up to the scan loop (R182, R183, R184). -/
def execReceive (s : State) : Host.Outcome State Fault Refusal :=
  let t := resetRxRecords (armDeadline s)
  if rxEmpty t then .next (failReceive .noInput t) else .next (awaitAt .scan (csReset t))

/-- FRAME_ASCII: the entry of `ParseAscii` (R192), the delimiter consumed and checksummed (R185). -/
def execFrameAscii (s : State) : Host.Outcome State Fault Refusal :=
  .next (awaitAt (.field .asciiId []) s)

/-- FRAME_ACK: the entry of `ParseAck` (R197). -/
def execFrameAck (s : State) : Host.Outcome State Fault Refusal :=
  .next (awaitAt (.field .ackId []) s)

/-- FRAME_BINARY: the deadline extension (R190) and the entry of `ParseBinary` (R198). -/
def execFrameBinary (s : State) : Host.Outcome State Fault Refusal :=
  .next (awaitAt (.field .binId []) (extendDeadline s))

/-- FRAME_STRING: the entry of `ParseString` (R199). -/
def execFrameString (s : State) : Host.Outcome State Fault Refusal :=
  .next (awaitAt (.field .strId []) s)

/-! ## Numeric fields (R186, R187, R188) -/

/-- The digit limit of a field (R186, 00_scope.md R8). -/
def fieldMaxDigits (c : Config) : FieldUse → Nat
  | .asciiId | .ackId | .binId | .strId => c.idDigits
  | .binLen _ | .strLen _ => c.lenDigits
  | .trailer _ _ => c.csDigits

/-- Whether a byte is a terminator of a field (R192, R197, R198, R199, R188). -/
def fieldTerminator : FieldUse → Byte → Bool
  | .asciiId, b => b == chComma || b == chSemi
  | .ackId, b | .binId, b | .strId, b => b == chComma
  | .binLen _, b | .strLen _, b | .trailer _ _, b => b == chSemi

/-- Whether a field's bytes are part of the body (R188: the trailer is read raw). -/
def fieldChecksummed : FieldUse → Bool
  | .trailer _ _ => false
  | _ => true

/-- A byte consumed, and checksummed where it is part of the body. -/
def takeByte (cs : Bool) (s : State) : Except Fault (Byte × State) :=
  match rxTake s with
  | .error r => .error r
  | .ok (b, t) => .ok (b, if cs then csUpdate b t else t)

/-- One iteration of `WaitByte(cs)` (R181); `k` is what follows the byte, in the same step. -/
def waitByte (cs : Bool) (k : Byte → State → Except Fault State) (s : State) : Except Fault State :=
  if expired s then .ok (failReceive .timeout s)
  else if rxEmpty s then .ok s
  else
    match takeByte cs s with
    | .error r => .error r
    | .ok (b, t) => k b t

/-- One iteration of the loop of `ReadField` (R186). -/
def pollField (use : FieldUse) (acc : List Byte) (s : State) : Except Fault State :=
  if expired s || acc.length == fieldMaxDigits s.config use then .ok (awaitAt (.fieldEnd use acc) s)
  else if rxEmpty s then .ok s
  else
    match rxPeek s with
    | .error r => .error r
    | .ok p =>
      if fieldTerminator use p then .ok (awaitAt (.fieldEnd use acc) s)
      else
        match takeByte (fieldChecksummed use) s with
        | .error r => .error r
        | .ok (b, t) => .ok (awaitAt (.field use (acc ++ [b])) t)

/-- `DecField(acc, max)` (R187). -/
def decField (max : Nat) (acc : List Byte) : Except FailCode Nat :=
  if !isNumber acc then .error .malformed
  else if max < decVal acc then .error .range
  else .ok (decVal acc)

/-- `ReadTrailer`'s start: the expected value is taken after the body's `;` (R188). -/
def startTrailer (m : Parsed) (s : State) : State := awaitAt (.field (.trailer (csCombined s) m) []) s

/-- The sub-parser's last assignment and `finish(kind)` (R192, R197, R198, R199, R201). -/
def finishParsed (m : Parsed) (valid : Bool) (s : State) : State :=
  match m with
  | .ascii id np text => finishReceive .ascii { s with rxAscii := ⟨id, BitVec.ofNat 8 np, text, valid⟩ }
  | .ack id value => finishReceive .ack { s with rxAck := ⟨id, value, valid⟩ }
  | .binary id length => finishReceive .binary { s with rxBin := ⟨id, length, valid⟩ }
  | .string id length data => finishReceive .string { s with rxStr := ⟨id, length, data, valid⟩ }

/-- After the length field of a binary frame: the capacity check (R191), then the first payload byte or,
where there is none, the payload end (R198). -/
def startBinary (id : Byte) (length : U16) (s : State) : State :=
  if !s.binRxDesc.assigned || s.binRxDesc.cap.toNat < length.toNat then failReceive .capacity (rxDiscard s)
  else if length = 0#16 then awaitAt (.binEnd id length) s
  else awaitAt (.binByte id length 0) s

/-- After the length field of a string frame (R199). -/
def startString (id : Byte) (length : U16) (s : State) : State :=
  if length = 0#16 then awaitAt (.strEnd id length []) s else awaitAt (.strByte id length 0 []) s

/-- An id field's value, or the failure it ends in. -/
def withId (acc : List Byte) (s : State) (k : Byte → State) : State :=
  match decField 255 acc with
  | .error c => failReceive c s
  | .ok v => k (BitVec.ofNat 8 v)

/-- A length field's value, or the failure it ends in. -/
def withLength (acc : List Byte) (s : State) (k : U16 → State) : State :=
  match decField 65535 acc with
  | .error c => failReceive c s
  | .ok v => k (BitVec.ofNat 16 v)

/-- What follows a field whose terminator `t` has been consumed, up to the next wait loop. -/
def fieldDone (use : FieldUse) (acc : List Byte) (t : Byte) (s : State) : State :=
  match use with
  | .asciiId => withId acc s fun id =>
      if t = chComma then awaitAt (.asciiByte id 1 [chComma]) s else startTrailer (.ascii id 0 []) s
  | .ackId => withId acc s fun id => awaitAt (.ackValue id) s
  | .binId => withId acc s fun id => awaitAt (.field (.binLen id) []) s
  | .strId => withId acc s fun id => awaitAt (.field (.strLen id) []) s
  | .binLen id => withLength acc s fun length => startBinary id length s
  | .strLen id => withLength acc s fun length => startString id length s
  | .trailer expected m =>
      if !isNumber acc then failReceive .malformed s
      else finishParsed m (decVal acc == expected.toNat) s

/-- The terminator must be the very next byte (R186). -/
def afterField (use : FieldUse) (acc : List Byte) (t : Byte) (s : State) : Except Fault State :=
  .ok (if fieldTerminator use t then fieldDone use acc t s else failReceive .malformed s)

/-! ## Payloads -/

/-- A payload byte of `ParseAscii` (R192, R194, R195, R196). -/
def afterAsciiByte (id : Byte) (np : Nat) (text : List Byte) (b : Byte) (s : State) : Except Fault State :=
  .ok (if b = chSemi then startTrailer (.ascii id np text) s
    else if text.length = s.config.textCap then failReceive .overflow s
    else awaitAt (.asciiByte id (if b = chComma then np + 1 else np) (text ++ [b])) s)

/-- The value byte of `ParseAck` (R197). -/
def afterAckValue (id : Byte) (b : Byte) (s : State) : Except Fault State :=
  .ok (if b = chZero then awaitAt (.ackEnd id false) s
    else if b = chOne then awaitAt (.ackEnd id true) s
    else failReceive .malformed s)

/-- The `;` that ends a payload, then the trailer (R189, R197, R198, R199). -/
def afterPayloadEnd (m : Parsed) (b : Byte) (s : State) : Except Fault State :=
  .ok (if b = chSemi then startTrailer m s else failReceive .malformed s)

/-- Payload byte `i` of `ParseBinary`: written to the borrowed buffer (R198). -/
def afterBinByte (id : Byte) (length : U16) (i : Nat) (b : Byte) (s : State) : Except Fault State :=
  match memWrite (s.binRxDesc.base + i) b s with
  | .error r => .error r
  | .ok t => .ok (awaitAt (if i + 1 < length.toNat then .binByte id length (i + 1) else .binEnd id length) t)

/-- Payload byte `i` of `ParseString`: stored if it is one of the first `STR_CAP` (R199). -/
def afterStrByte (id : Byte) (length : U16) (i : Nat) (data : List Byte) (b : Byte) (s : State) :
    Except Fault State :=
  let data' := if i < min length.toNat s.config.strCap then data ++ [b] else data
  .ok (awaitAt (if i + 1 < length.toNat then .strByte id length (i + 1) data' else .strEnd id length data') s)

/-- The message of `ParseString`, whose recorded length is `min(len, STR_CAP)` (R199). -/
def stringMessage (id : Byte) (length : U16) (data : List Byte) (s : State) : Parsed :=
  .string id (BitVec.ofNat 16 (min length.toNat s.config.strCap)) data

end Sys2Proof.Machine
end

