-- ==== Sys2Proof/Machine/Transmit.lean ====
section
/-! DEFINITION. The Frame Writer (43_frame_writer.md): the five TRANSMIT commands. -/

namespace Sys2Proof.Machine

/-- `TxCsSeq(s)` (R240): body bytes, written and checksummed; `TxCs(b)` is the sequence of one byte. -/
def txCsSeq (bs : List Byte) (s : State) : State := csUpdateSeq bs (txPutSeq bs s)

/-- `TxBegin(d, id)` (R240). -/
def txBegin (d : Byte) (id : Byte) (s : State) : State := txCsSeq (dec id.toNat) (txCsSeq [d] (csReset s))

/-- The checksum trailer, its `;` and the line terminator, by the raw path (R240, R242, R243). -/
def txTrailer (s : State) : State := txPutSeq (dec (csCombined s).toNat ++ [chSemi, chNewline]) s

/-- `TxEnd()` (R240). -/
def txEnd (s : State) : State := txTrailer (txCsSeq [chSemi] s)

/-- The frame of a length-prefixed payload (R246, R247). -/
def txLengthPrefixed (d : Byte) (id : Byte) (payload : List Byte) (s : State) : State :=
  txEnd (txCsSeq payload (txCsSeq [chSemi] (txCsSeq (dec payload.length) (txCsSeq [chComma] (txBegin d id s)))))

/-- TRANSMIT_ASCII (R244). -/
def execTransmitAscii (id : Byte) (s : State) : Host.Outcome State Fault Refusal :=
  .next (finishQuiet { txEnd (txCsSeq s.txText (txBegin chHash id s)) with txText := [] })

/-- TRANSMIT_ACK (R245). -/
def execTransmitAck (id : Byte) (value : Bool) (s : State) : Host.Outcome State Fault Refusal :=
  .next (finishQuiet (txEnd (txCsSeq [if value then chOne else chZero] (txCsSeq [chComma] (txBegin chQuestion id s)))))

/-- TRANSMIT_BINARY (R246): the descriptor's checks, then all reads, then the frame. -/
def execTransmitBinary (id : Byte) (s : State) : Host.Outcome State Fault Refusal :=
  let d := s.binTxDesc
  if !d.assigned || d.length == 0#16 || d.cap.toNat < d.length.toNat then .next (finishFail .txNoBuffer s)
  else
    match memReadSeq s d.base d.length.toNat with
    | .error r => .next (enterFault r s)
    | .ok p => .next (finishOk (txLengthPrefixed chBang id p s))

/-- The body of TRANSMIT_STRING (R247), which TRANSMIT_STRING_TEXT ends with (R248). -/
def transmitTxStr (id : Byte) (s : State) : State := finishOk (txLengthPrefixed chQuote id s.txStr s)

/-- TRANSMIT_STRING (R247). -/
def execTransmitString (id : Byte) (s : State) : Host.Outcome State Fault Refusal := .next (transmitTxStr id s)

/-- TRANSMIT_STRING_TEXT (R248). -/
def execTransmitStringText (id : Byte) (text : Nat) (s : State) : Host.Outcome State Fault Refusal :=
  match readText s s.config.strCap text with
  | .error r => .next (enterFault r s)
  | .ok none => .next (finishFail .textTooLong s)
  | .ok (some bs) => .next (transmitTxStr id { s with txStr := bs })

end Sys2Proof.Machine
end

