-- ==== Sys2Proof/Machine/Dispatch.lean ====
section
/-! DEFINITION. The meaning of each instruction, one arm per constructor of Instr. -/

namespace Sys2Proof.Machine

def exec (i : Instr) (s : State) : Host.Outcome State Fault Refusal :=
  match i with
  | .receive => Sys2Proof.Machine.execReceive s
  | .transmitAscii id => Sys2Proof.Machine.execTransmitAscii id s
  | .transmitAck id value => Sys2Proof.Machine.execTransmitAck id value s
  | .transmitBinary id => Sys2Proof.Machine.execTransmitBinary id s
  | .transmitString id => Sys2Proof.Machine.execTransmitString id s
  | .transmitStringText id text => Sys2Proof.Machine.execTransmitStringText id text s
  | .assignBinaryRxBuffer buf cap => Sys2Proof.Machine.execAssignBinaryRxBuffer buf cap s
  | .assignBinaryTxBuffer buf cap length => Sys2Proof.Machine.execAssignBinaryTxBuffer buf cap length s
  | .addUint8 v => Sys2Proof.Machine.execAddUint8 v s
  | .addUint16 v => Sys2Proof.Machine.execAddUint16 v s
  | .addUint32 v => Sys2Proof.Machine.execAddUint32 v s
  | .addInt8 v => Sys2Proof.Machine.execAddInt8 v s
  | .addInt16 v => Sys2Proof.Machine.execAddInt16 v s
  | .addInt32 v => Sys2Proof.Machine.execAddInt32 v s
  | .addFloat x => Sys2Proof.Machine.execAddFloat x s
  | .addString text => Sys2Proof.Machine.execAddString text s
  | .getUint8 => Sys2Proof.Machine.execGetUint8 s
  | .getUint16 => Sys2Proof.Machine.execGetUint16 s
  | .getUint32 => Sys2Proof.Machine.execGetUint32 s
  | .getInt8 => Sys2Proof.Machine.execGetInt8 s
  | .getInt16 => Sys2Proof.Machine.execGetInt16 s
  | .getInt32 => Sys2Proof.Machine.execGetInt32 s
  | .getFloat => Sys2Proof.Machine.execGetFloat s
  | .getString dest len => Sys2Proof.Machine.execGetString dest len s
  | .frameAscii => Sys2Proof.Machine.execFrameAscii s
  | .frameAck => Sys2Proof.Machine.execFrameAck s
  | .frameBinary => Sys2Proof.Machine.execFrameBinary s
  | .frameString => Sys2Proof.Machine.execFrameString s

end Sys2Proof.Machine
end

