-- ==== Sys2Proof/Machine/Fetch.lean ====
section
/-! DEFINITION. Where the next instruction comes from: the command port while the engine is Idle
(60_exceptions.md R353), the receive queue while RECEIVE scans (42_frame_reader.md R184); one ENGINE turn;
and how a table word is put where the next step fetches. -/

namespace Sys2Proof.Machine

/-- A command taken from the port, decoded and run in the same step (60_exceptions.md R353); a reserved opcode
or an operand outside its type is refused (R348), and so is a wrong number of operands (DESIGN CHOICE, log 17). -/
def runCommand (r : CommandRecord) (s : State) : Host.Outcome State Fault Refusal :=
  match decodeCommand r with
  | .error _ => .refused .illegalCommand
  | .ok i => exec i s

/-- The HOST's next request, served while the engine is Idle (20_memory.md R101). With none pending the
engine takes no step (60_exceptions.md R358): the state stays. -/
def serveHost (s : State) : Host.Outcome State Fault Refusal :=
  match s.port with
  | [] => .next s
  | .command r :: rest => runCommand r { s with port := rest }
  | .writeTxStr bs :: rest => hostWriteTxStr bs { s with port := rest }
  | .poke a bs :: rest => hostPoke a bs { s with port := rest }

/-- What the scan does with a byte it has consumed and checksummed (42_frame_reader.md R184, R185): a
delimiter starts its sub-parser, any other byte is discarded with a checksum reset. -/
def scanByte (b : Byte) (s : State) : Host.Outcome State Fault Refusal :=
  match decodeWire b with
  | .ok i => exec i s
  | .error _ => .next (csReset s)

/-- One iteration of RECEIVE's scan loop (42_frame_reader.md R184). -/
def scanStep (s : State) : Host.Outcome State Fault Refusal :=
  if expired s then .next (failReceive .timeout s)
  else if rxEmpty s then .next s
  else
    match takeByte true s with
    | .error r => .next (enterFault r s)
    | .ok (b, t) => scanByte b t

/-- One iteration of RECEIVE's current wait loop, with what follows it up to the next loop (42_frame_reader.md R181). -/
def receiveStep (k : ReceiveAt) (s : State) : Host.Outcome State Fault Refusal :=
  match k with
  | .scan => scanStep s
  | .field use acc => settle s (pollField use acc s)
  | .fieldEnd use acc => settle s (waitByte (fieldChecksummed use) (afterField use acc) s)
  | .asciiByte id np text => settle s (waitByte true (afterAsciiByte id np text) s)
  | .ackValue id => settle s (waitByte true (afterAckValue id) s)
  | .ackEnd id value => settle s (waitByte true (afterPayloadEnd (.ack id value)) s)
  | .binByte id length i => settle s (waitByte true (afterBinByte id length i) s)
  | .binEnd id length => settle s (waitByte true (afterPayloadEnd (.binary id length)) s)
  | .strByte id length i data => settle s (waitByte true (afterStrByte id length i data) s)
  | .strEnd id length data => settle s (waitByte true (afterPayloadEnd (stringMessage id length data s)) s)

/-- The ENGINE's turn: a request of the HOST while Idle, a poll of RECEIVE while Busy; in `Faulted` there is
no step, and the fault's reason is reported (60_exceptions.md R347). -/
def engineTurn (s : State) : Host.Outcome State Fault Refusal :=
  match s.phase with
  | .idle => serveHost s
  | .busy k => receiveStep k s
  | .faulted r => .fault r

/-- One scheduled move. -/
def takeTurn (t : Turn) (s : State) : Host.Outcome State Fault Refusal :=
  match t with
  | .arrive b => .next (linkArrive b s)
  | .tick => .next (linkTick s)
  | .engine => engineTurn s
  | .reset => .next (applyReset s)

/-- The ENGINE has nothing to do but wait. Idle: nothing is presented, so it takes no step (60_exceptions.md R358). In a
RECEIVE: the queue is empty, the deadline has not passed, and no field is full, so its poll would change nothing
(42_frame_reader.md R181, R186; 70_reset_and_hazards.md R401). -/
def onlyWaits (s : State) : Bool :=
  match s.phase with
  | .idle => s.port.isEmpty
  | .faulted _ => false
  | .busy k =>
    rxEmpty s && !expired s &&
      match k with
      | .field use acc => acc.length != fieldMaxDigits s.config use
      | .scan | .fieldEnd _ _ | .asciiByte _ _ _ | .ackValue _ | .ackEnd _ _ | .binByte _ _ _ | .binEnd _ _
      | .strByte _ _ _ _ | .strEnd _ _ _ => true

/-- Who moves when nothing is scheduled (log 3): the ENGINE; but where it only waits, the LINK makes the step that must
come, `Tick`, which is weakly fair (20_memory.md R94). -/
def unscheduledTurn (s : State) : Turn := if onlyWaits s then .tick else .engine

/-- The next move: the first scheduled one, or the unscheduled one when nothing is scheduled. -/
def nextMove (s : State) : Host.Outcome State Fault Refusal :=
  match s.schedule with
  | [] => takeTurn (unscheduledTurn s) s
  | t :: rest => takeTurn t { s with schedule := rest }

/-- An encoded form put where the next step fetches (log 4): a record is presented first on the port of an
Idle engine; a frame's first byte is put at the head of the queue of a scanning RECEIVE, with its deadline
ahead where it had passed. The ENGINE's turn is scheduled first. -/
def placeEncoded (e : Encoded) (s : State) : State :=
  match e with
  | .command r => { s with phase := .idle, port := .command r :: s.port, schedule := .engine :: s.schedule }
  | .wire b => { s with
      phase := .busy .scan
      rxFifo := b :: s.rxFifo
      deadline := if expired s then s.now + 1#32 else s.deadline
      schedule := .engine :: s.schedule }

end Sys2Proof.Machine
end

