-- ==== Sys2Proof/Machine/Step.lean ====
section
/-! DEFINITION. One step of the machine, and the placing of a table word where it fetches. -/

namespace Sys2Proof.Machine

/-- One step: the next move of the LINK, of reset, or of the ENGINE with the HOST (00_scope.md R13). -/
def step (s : State) : Host.Outcome State Fault Refusal := nextMove s

/-- The state in which the next step fetches and runs the instruction a table word stands for. -/
def State.withFetchWord (s : State) (nbits w : Nat) : State :=
  placeEncoded (tableForm (w % 2 ^ min nbits 8)) s

end Sys2Proof.Machine
end

