-- ==== Sys2Proof/Machine/Host.lean ====
section
/-! DEFINITION. What the HOST can read (10_state.md R46): an observation of an Idle engine, not a step. -/

namespace Sys2Proof.Machine

/-- The host-readable engine state of 10_state.md R46. `CS_A`, `CS_B`, `DEADLINE`, `PHASE` and the
micro-state of RECEIVE are hidden. -/
structure HostView where
  resKind : MessageKind
  resOk : Bool
  resValue : U32
  lastFail : FailCode
  rxCursor : Nat
  rxAscii : AsciiRecord
  rxAck : AckRecord
  rxBin : BinaryRecord
  rxStr : StringRecord
  binRxDesc : RxDesc
  binTxDesc : TxDesc
  txText : List Byte
  txStr : List Byte
  deriving DecidableEq, Repr

/-- The view of a state, whatever its phase. -/
def hostView (s : State) : HostView where
  resKind := s.resKind
  resOk := s.resOk
  resValue := s.resValue
  lastFail := s.lastFail
  rxCursor := s.rxCursor
  rxAscii := s.rxAscii
  rxAck := s.rxAck
  rxBin := s.rxBin
  rxStr := s.rxStr
  binRxDesc := s.binRxDesc
  binTxDesc := s.binTxDesc
  txText := s.txText
  txStr := s.txStr

/-- The HOST's read of the engine: only while Idle (20_memory.md R101). -/
def hostRead (s : State) : Option HostView := if s.phase = .idle then some (hostView s) else none

/-- The HOST's read of a byte of `HOSTMEM`: only while Idle, and only of a byte that exists (20_memory.md R81, R101). -/
def hostReadByte (s : State) (a : Nat) : Option Byte :=
  if s.phase = .idle ∧ a < s.config.hostMemSize then some (s.hostMem.get a) else none

/-- The C-string view of received text (10_state.md R37, R40): the bytes and their terminator. -/
def cString (bs : List Byte) : List Byte := bs ++ [0#8]

end Sys2Proof.Machine
end

