-- ==== Sys2Proof/Safety.lean ====
section
/-! DEFINITION. What the claims speak in: legal parameters, the invariants of the state, the bytes of a
frame on the wire, the agents' moves, runs of the step function and fair runs of an environment. -/

namespace Sys2Proof.Machine

/-! ## Parameters -/

/-- Parameters for which every field of 10_state.md can hold what its rule says: a text holds at least its leading
`,`, and the count of at most `TEXT_CAP` commas fits in `num_params` (42_frame_reader.md R196; log 9). -/
abbrev ConfigLegal (c : Config) : Prop := 1 ≤ c.textCap ∧ c.textCap < 2 ^ 8

/-! ## Invariants -/

/-- `HOSTMEM` is in canonical form and lists only bytes that exist (20_memory.md R81). -/
abbrev MemoryInv (s : State) : Prop :=
  s.hostMem.wf ∧ ∀ c ∈ s.hostMem, c.1 < s.config.hostMemSize

/-- Comma-led whenever non-empty (10_state.md R37, R44). -/
abbrev CommaLed (t : List Byte) : Prop := t = [] ∨ t.head? = some chComma

/-- The transmit buffers: `TX_TEXT` within `TEXT_CAP`, comma-led, without NUL (10_state.md R44,
70_reset_and_hazards.md R394); `TX_STR` within `STR_CAP` (10_state.md R45). -/
abbrev TransmitInv (s : State) : Prop :=
  s.txText.length ≤ s.config.textCap ∧ CommaLed s.txText ∧ chNul ∉ s.txText ∧ s.txStr.length ≤ s.config.strCap

/-- The received records: `RX_ASCII.text` within `TEXT_CAP`, comma-led, its commas counted in `num_params`
(10_state.md R37, 42_frame_reader.md R196); `RX_STR.data` of the recorded length, within `STR_CAP` (R40); the
cursor within the text (R36, 44_param_codec.md R290). -/
abbrev RecordsInv (s : State) : Prop :=
  s.rxAscii.text.length ≤ s.config.textCap ∧ CommaLed s.rxAscii.text ∧
    s.rxAscii.numParams.toNat = s.rxAscii.text.count chComma ∧
    s.rxStr.length.toNat = s.rxStr.data.length ∧ s.rxStr.data.length ≤ s.config.strCap ∧
    s.rxCursor ≤ s.rxAscii.text.length

/-- All four records at their defaults and the cursor at 0 (42_frame_reader.md R183). -/
abbrev RecordsDefault (s : State) : Prop :=
  s.rxAscii = .default ∧ s.rxAck = .default ∧ s.rxBin = .default ∧ s.rxStr = .default ∧ s.rxCursor = 0

/-- Only the record of the last RECEIVE's kind may differ from its default, and none does while a RECEIVE is in
progress (42_frame_reader.md R183, R201; 60_exceptions.md R342). -/
abbrev KindInv (s : State) : Prop :=
  (s.rxAscii ≠ .default → s.resKind = .ascii) ∧ (s.rxAck ≠ .default → s.resKind = .ack) ∧
    (s.rxBin ≠ .default → s.resKind = .binary) ∧ (s.rxStr ≠ .default → s.resKind = .string) ∧
    ∀ k, s.phase = .busy k → RecordsDefault s

/-- A message that waits for its trailer can be stored in its record. -/
def ParsedFits (s : State) : Parsed → Prop
  | .ascii _ np text => text.length ≤ s.config.textCap ∧ CommaLed text ∧ np = text.count chComma
  | .ack _ _ => True
  | .binary _ length => s.binRxDesc.assigned = true ∧ length.toNat ≤ s.binRxDesc.cap.toNat
  | .string _ length data => length.toNat = data.length ∧ data.length ≤ s.config.strCap

/-- What the message of a trailer field satisfies. -/
def FieldFits (s : State) : FieldUse → Prop
  | .trailer _ m => ParsedFits s m
  | _ => True

/-- The micro-state of RECEIVE within the bounds of 42_frame_reader.md R186, R191, R195 and R199. -/
def ReceiveFits (s : State) : ReceiveAt → Prop
  | .scan => True
  | .field use acc => FieldFits s use ∧ acc.length ≤ fieldMaxDigits s.config use
  | .fieldEnd use acc => FieldFits s use ∧ acc.length ≤ fieldMaxDigits s.config use
  | .asciiByte _ np text =>
      text.length ≤ s.config.textCap ∧ text.head? = some chComma ∧ np = text.count chComma
  | .ackValue _ => True
  | .ackEnd _ _ => True
  | .binByte _ length i =>
      s.binRxDesc.assigned = true ∧ length.toNat ≤ s.binRxDesc.cap.toNat ∧ i < length.toNat
  | .binEnd _ length => s.binRxDesc.assigned = true ∧ length.toNat ≤ s.binRxDesc.cap.toNat
  | .strByte _ length i data => i < length.toNat ∧ data.length = min i s.config.strCap
  | .strEnd _ length data => data.length = min length.toNat s.config.strCap

/-- Every fixed buffer within its declared capacity, between steps and inside a RECEIVE: the source's fuzz
property (20_memory.md R84). -/
abbrev BoundsInv (s : State) : Prop :=
  ConfigLegal s.config ∧ TransmitInv s ∧ RecordsInv s ∧ ∀ k, s.phase = .busy k → ReceiveFits s k

/-! ## Frames on the wire -/

/-- A frame as it is sent: its body, the decimal of the body's checksum, `;` and the line terminator
(30_encoding.md R122 to R127, R135). -/
def wireFrame (body : List Byte) : List Byte :=
  body ++ dec (checksumOf body).toNat ++ [chSemi, chNewline]

/-- The body of an ASCII frame whose id field is `id` (30_encoding.md R122). -/
def asciiBody (id text : List Byte) : List Byte := [chHash] ++ id ++ text ++ [chSemi]

/-- The body of an ACK frame whose id field is `id` (30_encoding.md R123). -/
def ackBody (id : List Byte) (value : Bool) : List Byte :=
  [chQuestion] ++ id ++ [chComma, if value then chOne else chZero, chSemi]

/-- The body of a binary frame whose id and length fields are `id` and `length` (30_encoding.md R124). -/
def binaryBody (id length payload : List Byte) : List Byte :=
  [chBang] ++ id ++ [chComma] ++ length ++ [chSemi] ++ payload ++ [chSemi]

/-- The body of a string frame whose id and length fields are `id` and `length` (30_encoding.md R125). -/
def stringBody (id length payload : List Byte) : List Byte :=
  [chQuote] ++ id ++ [chComma] ++ length ++ [chSemi] ++ payload ++ [chSemi]

/-! ## Moves and runs -/

/-- The ENGINE, with the HOST, moves next; `u` is the state it moves from: its turn is the first scheduled one, or
nothing is scheduled and it does not only wait. -/
def EngineNext (s u : State) : Prop :=
  (s.schedule = [] ∧ onlyWaits s = false ∧ u = s) ∨
    ∃ rest, s.schedule = .engine :: rest ∧ u = { s with schedule := rest }

/-- The bytes that the LINK delivers in a schedule, in order. -/
def arrivals : List Turn → List Byte
  | [] => []
  | .arrive b :: rest => b :: arrivals rest
  | .tick :: rest | .engine :: rest | .reset :: rest => arrivals rest

/-- No reset is scheduled, and through all ticks scheduled the clock stays before a deadline (20_memory.md R93). -/
def InTime (deadline now : U32) (turns : List Turn) : Prop :=
  .reset ∉ turns ∧ ∃ left, turns.count .tick < left ∧ left ≤ 2 ^ 31 ∧ deadline = now + BitVec.ofNat 32 left

/-- `n` moves one after another, from a state to a state, with no fault reported and no request refused. -/
def runs : Nat → State → State → Prop
  | 0, s, t => s = t
  | n + 1, s, t => ∃ u, step s = .next u ∧ runs n u t

/-- The environment's choice of moves, without end: `environment n` is the move made in the `n`-th state. -/
abbrev Environment := Nat → Turn

/-- While a RECEIVE is in progress, each state of `trace` is the one before it after the environment's move. -/
def Follows (environment : Environment) (trace : Nat → State) : Prop :=
  ∀ n k, (trace n).phase = .busy k →
    step { trace n with schedule := environment n :: (trace n).schedule } = .next (trace (n + 1))

/-- `Tick` is weakly fair (20_memory.md R94): it is always possible, so it comes again and again. -/
def FairClock (environment : Environment) : Prop := ∀ n, ∃ m, n ≤ m ∧ environment m = .tick

/-- The ENGINE polls again and again, and never misses the 2^31 ms in which R93 can tell that a deadline has passed.
DEDUCED (log 18): R95 counts on a poll in that time and states no premise for it. -/
def PollsInTime (environment : Environment) : Prop :=
  ∀ n, ∃ m, n ≤ m ∧ environment m = .engine ∧ ((List.range' n (m - n)).map environment).count .tick < 2 ^ 31

/-! ## What each instruction may write or report -/

/-- The rows of spec/opcode_table.json of format `cmd` that are one ENGINE step (00_scope.md R13): every command
but RECEIVE. -/
def isSingleStep : Instr → Bool
  | .receive => false
  | .transmitAscii _ | .transmitAck _ _ | .transmitBinary _ | .transmitString _ => true
  | .transmitStringText _ _ | .assignBinaryRxBuffer _ _ | .assignBinaryTxBuffer _ _ _ => true
  | .addUint8 _ | .addUint16 _ | .addUint32 _ | .addInt8 _ | .addInt16 _ | .addInt32 _ => true
  | .addFloat _ | .addString _ | .getUint8 | .getUint16 | .getUint32 | .getInt8 | .getInt16 => true
  | .getInt32 | .getFloat | .getString _ _ => true
  | .frameAscii | .frameAck | .frameBinary | .frameString => false

/-- The "written by" column of `RES_OK` (10_state.md R33). -/
def writesOk : Instr → Bool
  | .receive | .transmitAscii _ | .transmitAck _ _ => false
  | .transmitBinary _ | .transmitString _ | .transmitStringText _ _ => true
  | .assignBinaryRxBuffer _ _ | .assignBinaryTxBuffer _ _ _ => false
  | .addUint8 _ | .addUint16 _ | .addUint32 _ | .addInt8 _ | .addInt16 _ | .addInt32 _ => true
  | .addFloat _ | .addString _ | .getUint8 | .getUint16 | .getUint32 | .getInt8 | .getInt16 => true
  | .getInt32 | .getFloat | .getString _ _ => true
  | .frameAscii | .frameAck | .frameBinary | .frameString => false

/-- The "written by" column of `RES_VALUE` (10_state.md R33). -/
def writesValue : Instr → Bool
  | .receive | .transmitAscii _ | .transmitAck _ _ | .transmitBinary _ | .transmitString _ => false
  | .transmitStringText _ _ | .assignBinaryRxBuffer _ _ | .assignBinaryTxBuffer _ _ _ => false
  | .addUint8 _ | .addUint16 _ | .addUint32 _ | .addInt8 _ | .addInt16 _ | .addInt32 _ => false
  | .addFloat _ | .addString _ => false
  | .getUint8 | .getUint16 | .getUint32 | .getInt8 | .getInt16 | .getInt32 | .getFloat => true
  | .getString _ _ | .frameAscii | .frameAck | .frameBinary | .frameString => false

/-- The GET commands. -/
def isGet : Instr → Bool
  | .receive | .transmitAscii _ | .transmitAck _ _ | .transmitBinary _ | .transmitString _ => false
  | .transmitStringText _ _ | .assignBinaryRxBuffer _ _ | .assignBinaryTxBuffer _ _ _ => false
  | .addUint8 _ | .addUint16 _ | .addUint32 _ | .addInt8 _ | .addInt16 _ | .addInt32 _ => false
  | .addFloat _ | .addString _ => false
  | .getUint8 | .getUint16 | .getUint32 | .getInt8 | .getInt16 | .getInt32 | .getFloat => true
  | .getString _ _ => true
  | .frameAscii | .frameAck | .frameBinary | .frameString => false

/-- The failure codes of each command (60_exceptions.md R345); a frame row is a part of RECEIVE. -/
def failureCodes : Instr → List FailCode
  | .receive => [.noInput, .timeout, .malformed, .range, .overflow, .capacity]
  | .transmitAscii _ | .transmitAck _ _ => []
  | .transmitBinary _ => [.txNoBuffer]
  | .transmitString _ => []
  | .transmitStringText _ _ => [.textTooLong]
  | .assignBinaryRxBuffer _ _ | .assignBinaryTxBuffer _ _ _ => []
  | .addUint8 _ | .addUint16 _ | .addUint32 _ | .addInt8 _ | .addInt16 _ | .addInt32 _ => [.textFull]
  | .addFloat _ | .addString _ => [.textFull]
  | .getUint8 | .getUint16 | .getUint32 | .getInt8 | .getInt16 | .getInt32 => [.getNoField, .getSyntax, .getRange]
  | .getFloat => [.getNoField, .getSyntax]
  | .getString _ _ => [.getBadLen, .getNoField]
  | .frameAscii | .frameAck | .frameBinary | .frameString => []

/-- The commands that can fault MEM_RANGE in their one step (60_exceptions.md R345). -/
def mayFault : Instr → Bool
  | .receive | .transmitAscii _ | .transmitAck _ _ => false
  | .transmitBinary _ => true
  | .transmitString _ => false
  | .transmitStringText _ _ => true
  | .assignBinaryRxBuffer _ _ | .assignBinaryTxBuffer _ _ _ | .addUint8 _ | .addUint16 _ => false
  | .addUint32 _ | .addInt8 _ | .addInt16 _ | .addInt32 _ | .addFloat _ => false
  | .addString _ => true
  | .getUint8 | .getUint16 | .getUint32 | .getInt8 | .getInt16 | .getInt32 | .getFloat => false
  | .getString _ _ => true
  | .frameAscii | .frameAck | .frameBinary | .frameString => false

/-! ## Results of the parameter codec -/

/-- A command that fails with a code: only `RES_OK` and `LAST_FAIL` are written, and it ends. -/
abbrev FailsWith (i : Instr) (s : State) (code : FailCode) : Prop :=
  exec i s = .next { s with resOk := false, lastFail := code, phase := .idle }

/-- An ADD that appends a rendering, or empties the text where it does not fit (44_param_codec.md R271). -/
abbrev AppendsRendering (i : Instr) (r : List Byte) (s : State) : Prop :=
  (s.txText.length + 1 + r.length ≤ s.config.textCap →
    exec i s = .next { s with txText := s.txText ++ [chComma] ++ r, resOk := true, lastFail := .none, phase := .idle }) ∧
  (s.config.textCap < s.txText.length + 1 + r.length →
    exec i s = .next { s with txText := [], resOk := false, lastFail := .textFull, phase := .idle })

/-- There is no leading `,` at the cursor (44_param_codec.md R280). -/
abbrev NoField (s : State) : Prop := s.rxAscii.text[s.rxCursor]? ≠ some chComma

/-- `f` is the field at the cursor: it follows a `,` and ends at the next `,`, at a NUL or at the end of the
text (44_param_codec.md R280). -/
def FieldAt (s : State) (f : List Byte) : Prop :=
  ∃ before after, s.rxAscii.text = before ++ [chComma] ++ f ++ after ∧ s.rxCursor = before.length ∧
    (∀ b ∈ f, b ≠ chComma ∧ b ≠ chNul) ∧
    (after = [] ∨ after.head? = some chComma ∨ after.head? = some chNul)

/-- A GET of the field `f` that succeeds with a value (44_param_codec.md R280, R290). -/
abbrev YieldsValue (i : Instr) (s : State) (f : List Byte) (v : U32) : Prop :=
  exec i s = .next { s with
    resValue := v, rxCursor := s.rxCursor + 1 + f.length, resOk := true, lastFail := .none, phase := .idle }

/-- `D+` of 30_encoding.md R133. -/
abbrev Digits (f : List Byte) : Prop := f ≠ [] ∧ ∀ b ∈ f, 0x30 ≤ b.toNat ∧ b.toNat ≤ 0x39

/-! ## Binary32 values -/

/-- The exact value of a finite binary32 bit pattern (30_encoding.md R132). -/
def floatValue (x : U32) : ℚ :=
  (if x.msb then -1 else 1) * (floatMant x : ℚ) * 2 ^ ((floatScale x : ℤ) - 150)

/-- `x` is finite: neither NaN nor an infinity. -/
abbrev FloatFinite (x : U32) : Prop := floatExp x ≠ 255

/-- `r` is the binary32 nearest to `q`, ties to even, a finite normal number or zero, with the given sign
(44_param_codec.md R288). -/
def NearestFloat (neg : Bool) (q : ℚ) (r : U32) : Prop :=
  FloatFinite r ∧ r.msb = neg ∧ (floatExp r ≠ 0 ∨ floatFrac r = 0) ∧
    ∀ x, FloatFinite x → |floatValue r - q| ≤ |floatValue x - q| ∧
      (x ≠ r → |floatValue r - q| = |floatValue x - q| → floatFrac r % 2 = 0)

/-- `f` has the syntax `-?D*(\.D*)?` with at least one `D`; its sign, its digits before and after the point
(44_param_codec.md R288). -/
def FloatSyntax (f : List Byte) (neg : Bool) (whole frac : List Byte) : Prop :=
  (∀ b ∈ whole ++ frac, 0x30 ≤ b.toNat ∧ b.toNat ≤ 0x39) ∧ whole ++ frac ≠ [] ∧
    (f = (if neg then [chMinus] else []) ++ whole ++ [chDot] ++ frac ∨
      (frac = [] ∧ f = (if neg then [chMinus] else []) ++ whole))

end Sys2Proof.Machine
end

