-- ==== Sys2Proof/Certificates/Slice0/Obligations.lean ====
section
/-! DEFINITION. The statements for the provers. -/

open Sys2Proof Sys2Proof.Machine

/-! ## Encoding -/

/-- Decoding is the inverse of encoding on both encoding spaces: each encoded form stands for at most one
instruction, and each instruction has exactly one form (30_encoding.md R121, R150 to R153). -/
def Obligations.DecodeInvertsEncode : Prop :=
  ∀ (e : Encoded) (i : Instr), decode e = .ok i ↔ e = encode i

/-- The decoder accepts exactly the records whose opcode R152 lists with operands of the types of R151, and exactly the
four delimiters. That their number must be R152's is the model's choice (log 17). -/
def Obligations.DecodeExactlyWellFormed : Prop :=
  ∀ e : Encoded, e.wellFormed = true ↔ ∃ i, decode e = .ok i

/-- 30_encoding.md R153: a command with an opcode of a reserved range is refused ILLEGAL_COMMAND, whatever its
operands; a refusal carries no next state, so it changes none. -/
def Obligations.ReservedOpcodesRefused : Prop :=
  ∀ (s u : State) (r : CommandRecord) (rest : List HostRequest),
    EngineNext s u → u.phase = .idle → u.port = .command r :: rest →
    (r.op = 0x00#8 ∨ (0x02#8 ≤ r.op ∧ r.op ≤ 0x0F#8) ∨ (0x15#8 ≤ r.op ∧ r.op ≤ 0x1F#8) ∨
      (0x22#8 ≤ r.op ∧ r.op ≤ 0x2F#8) ∨ (0x38#8 ≤ r.op ∧ r.op ≤ 0x3F#8) ∨ 0x48#8 ≤ r.op) →
    step s = .refused .illegalCommand

/-- 60_exceptions.md R348: a presented command is refused ILLEGAL_COMMAND exactly where its opcode is reserved or an
operand does not fit its type; or where it has too few or too many operands, which is no rule of the spec but the model's
choice (log 17): its records are untyped (log 2), so they can hold a wrong number. -/
def Obligations.ExactlyIllFormedCommandsRefused : Prop :=
  ∀ (s u : State) (r : CommandRecord) (rest : List HostRequest),
    EngineNext s u → u.phase = .idle → u.port = .command r :: rest →
    (step s = .refused .illegalCommand ↔ ∀ ts, signature r.op.toNat = some ts → operandsFit ts r.operands = false)

/-- Encodings written out in 95_test_vectors.md Part 3 and 30_encoding.md R121 decode to what they stand for. -/
def Obligations.DecodedWordsMatchTable : Prop :=
  decode (.command ⟨0x01#8, []⟩) = .ok .receive ∧
  decode (.command ⟨0x10#8, [some 0x07]⟩) = .ok (.transmitAscii 7#8) ∧
  decode (.command ⟨0x11#8, [some 0x03, some 0]⟩) = .ok (.transmitAck 3#8 false) ∧
  decode (.command ⟨0x21#8, [none, some 0, some 0]⟩) = .ok (.assignBinaryTxBuffer none 0#32 0#16) ∧
  decode (.command ⟨0x35#8, [some 0xFFFFFFFF]⟩) = .ok (.addInt32 (-1)) ∧
  decode (.command ⟨0x47#8, [some 0xFFF, some 3]⟩) = .ok (.getString 0xFFF 3#16) ∧
  decode (.wire 0x23#8) = .ok .frameAscii ∧ decode (.wire 0x3F#8) = .ok .frameAck ∧
  decode (.wire 0x21#8) = .ok .frameBinary ∧ decode (.wire 0x22#8) = .ok .frameString

/-! ## Steps -/

/-- A command presented to an Idle engine is decoded and run in that step, from the state without the request
(60_exceptions.md R353); a delimiter met by RECEIVE's scan is consumed, checksummed and run in that step
(42_frame_reader.md R184, R185). -/
def Obligations.StepRunsDecodedInstruction : Prop :=
  ∀ (s u : State) (i : Instr), EngineNext s u →
    (∀ r rest, u.phase = .idle → u.port = .command r :: rest → decodeCommand r = .ok i →
      step s = exec i { u with port := rest }) ∧
    ∀ b rest, u.phase = .busy .scan → expired u = false → u.rxFifo = b :: rest → decodeWire b = .ok i →
      step s = exec i { u with rxFifo := rest, csA := u.csA + b, csB := u.csB + (u.csA + b) }

/-- 42_frame_reader.md R185 and R190: the four delimiters start their sub-parsers with the byte consumed and
checksummed; only `!` extends the deadline; every other byte is discarded with a checksum reset (R184). -/
def Obligations.ScanDispatchesEveryByte : Prop :=
  ∀ (s u : State) (b : Byte) (rest : List Byte),
    EngineNext s u → u.phase = .busy .scan → expired u = false → u.rxFifo = b :: rest →
    let v : State := { u with rxFifo := rest, csA := u.csA + b, csB := u.csB + (u.csA + b) }
    (b = 0x23#8 → step s = .next { v with phase := .busy (.field .asciiId []) }) ∧
    (b = 0x3F#8 → step s = .next { v with phase := .busy (.field .ackId []) }) ∧
    (b = 0x21#8 → step s = .next { v with
      phase := .busy (.field .binId [])
      deadline := u.deadline + BitVec.ofNat 32 u.config.binaryExtMs }) ∧
    (b = 0x22#8 → step s = .next { v with phase := .busy (.field .strId []) }) ∧
    (b ≠ 0x23#8 → b ≠ 0x3F#8 → b ≠ 0x21#8 → b ≠ 0x22#8 →
      step s = .next { u with rxFifo := rest, csA := 0#8, csB := 0#8 })

/-- In `Faulted` the engine takes no step: its turn reports the reason, and no move but reset leaves the phase
(60_exceptions.md R347). That the turn is reported as the step function's fault is the model's reading (log 10). -/
def Obligations.EngineStuckInFaulted : Prop :=
  ∀ (s u t : State) (r : Fault),
    (EngineNext s u → u.phase = .faulted r → step s = .fault r) ∧
    (s.phase = .faulted r → s.schedule.head? ≠ some .reset → step s = .next t →
      t.phase = .faulted r ∧ t.port = s.port ∧ t.hostMem = s.hostMem)

/-- A request of the HOST waits while the engine is not Idle (20_memory.md R101): every move but reset leaves the
pending requests and what only the HOST and its commands write. -/
def Obligations.HostWaitsUnlessIdle : Prop :=
  ∀ s t : State, s.phase ≠ .idle → s.schedule.head? ≠ some .reset → step s = .next t →
    t.port = s.port ∧ t.txStr = s.txStr ∧ t.txText = s.txText ∧ t.binRxDesc = s.binRxDesc ∧
      t.binTxDesc = s.binTxDesc ∧ t.txOut = s.txOut

/-- The moves of the LINK in every phase (20_memory.md R92, R94): a byte joins the queue at its end, or the clock
advances by 1 mod 2^32, and nothing else changes. -/
def Obligations.LinkMovesInEveryPhase : Prop :=
  ∀ (s : State) (rest : List Turn),
    (∀ b, s.schedule = .arrive b :: rest →
      step s = .next { s with schedule := rest, rxFifo := s.rxFifo ++ [b] }) ∧
    (s.schedule = .tick :: rest →
      ∃ n : U32, n.toNat = (s.now.toNat + 1) % 2 ^ 32 ∧ step s = .next { s with schedule := rest, now := n })

/-- 45_binary_string.md R324 and the HOST's write of `HOSTMEM` (20_memory.md R81): served when the engine is Idle.
That a write outside `HOSTMEM` is refused is the model's choice (log 14) and is not stated here. -/
def Obligations.HostWritesServedWhenIdle : Prop :=
  ∀ (s u : State) (rest : List HostRequest), EngineNext s u → u.phase = .idle →
    (∀ bs, u.port = .writeTxStr bs :: rest →
      (bs.length ≤ u.config.strCap → step s = .next { u with port := rest, txStr := bs }) ∧
      (u.config.strCap < bs.length → step s = .refused .txStrTooLong)) ∧
    (∀ a bs, u.port = .poke a bs :: rest → a + bs.length ≤ u.config.hostMemSize →
      ∃ m, step s = .next { u with port := rest, hostMem := m } ∧
        (u.hostMem.wf → ∀ x, m.get x =
          if a ≤ x ∧ x < a + bs.length then bs[x - a]?.getD 0#8 else u.hostMem.get x))

/-! ## Reset, clock, checksum -/

/-- 10_state.md R47 and 70_reset_and_hazards.md R380: at the first reset of a run, whatever the parameters and the
environment's stores, every engine register holds its reset value and `TX_OUT` is empty (20_memory.md R104); and a reset
in any phase sets every engine register to that value and leaves `HOSTMEM`, `RX_FIFO` and `NOW`. What a later reset does
to `TX_OUT` and to pending requests is the model's reading (log 12) and is not stated here. -/
def Obligations.ResetRegisterValues : Prop :=
  let registersReset := fun t : State =>
    t.phase = .idle ∧ kindCode t.resKind = 0 ∧ t.resOk = false ∧ t.resValue = 0#32 ∧ failNumber t.lastFail = 0 ∧
    t.csA = 0#8 ∧ t.csB = 0#8 ∧ t.deadline = 0#32 ∧ t.rxCursor = 0 ∧
    t.rxAscii = ⟨0#8, 0#8, [], false⟩ ∧ t.rxAck = ⟨0#8, false, false⟩ ∧ t.rxBin = ⟨0#8, 0#16, false⟩ ∧
    t.rxStr = ⟨0#8, 0#16, [], false⟩ ∧ t.binRxDesc = ⟨false, 0, 0#32⟩ ∧ t.binTxDesc = ⟨false, 0, 0#32, 0#16⟩ ∧
    t.txText = [] ∧ t.txStr = []
  (∀ (c : Config) (m : Memory) (fifo : List Byte) (now : U32),
    registersReset (State.launch c m fifo now) ∧ (State.launch c m fifo now).txOut = []) ∧
  ∀ (s : State) (rest : List Turn), s.schedule = .reset :: rest →
    ∃ t, step s = .next t ∧ registersReset t ∧
      t.hostMem = s.hostMem ∧ t.rxFifo = s.rxFifo ∧ t.now = s.now ∧ t.config = s.config

/-- 20_memory.md R93: the deadline has passed from the millisecond equal to `DEADLINE` on, for up to 2^31 - 1 ms
after it, and has not for the 2^31 ms before it, wherever the clock wraps. -/
def Obligations.DeadlineComparison : Prop :=
  ∀ (s : State) (k : Nat),
    (k < 2 ^ 31 → s.now = s.deadline + BitVec.ofNat 32 k → expired s = true) ∧
    (1 ≤ k → k ≤ 2 ^ 31 → s.deadline = s.now + BitVec.ofNat 32 k → expired s = false)

/-- 41_checksum.md R173: the checksum over a byte sequence, from any accumulators, in closed form. -/
def Obligations.ChecksumClosedForm : Prop :=
  ∀ (bs : List Byte) (s : State),
    csCombined (csUpdateSeq bs (csReset s)) = checksumOf bs ∧
    (checksumOf bs).toNat =
      (bs.map BitVec.toNat).sum % 256 * 256 +
        (bs.mapIdx fun i b => (bs.length - i) * b.toNat).sum % 256

/-- 41_checksum.md R178: a change of one byte is detected; raising one byte and lowering a later one by the same
amount of 1 is undetected only where their distance is a multiple of 256. -/
def Obligations.ChecksumDetection : Prop :=
  ∀ (before after : List Byte) (x y : Byte),
    (x ≠ y → checksumOf (before ++ [x] ++ after) ≠ checksumOf (before ++ [y] ++ after)) ∧
    ∀ between : List Byte,
      (checksumOf (before ++ [x + 1] ++ between ++ [y - 1] ++ after) =
          checksumOf (before ++ [x] ++ between ++ [y] ++ after) ↔
        (between.length + 1) % 256 = 0)

/-! ## Decimal and float forms -/

/-- 00_scope.md R14: `Dec` is digits only, has no leading zero unless it is `0`, and denotes its number; `SDec` puts
`-` before the magnitude of a negative number; `DecVal` permits leading zeros. -/
def Obligations.DecimalRendering : Prop :=
  (∀ n, Digits (dec n) ∧ decVal (dec n) = n ∧ ((dec n).head? = some 0x30#8 ↔ n = 0)) ∧ dec 0 = [0x30#8] ∧
  (∀ n : Nat, sdec n = dec n ∧ (0 < n → sdec (-n) = 0x2D#8 :: dec n)) ∧
  (∀ f, Digits f → decVal (0x30#8 :: f) = decVal f) ∧
  ∀ (f : List Byte) (d : Nat), d < 10 → decVal (f ++ [BitVec.ofNat 8 (0x30 + d)]) = 10 * decVal f + d

/-- The widths of 30_encoding.md R131: `Dec` of a u8, u16 and u32, `SDec` of an i8, i16 and i32, `FmtF`, the one byte of
an ACK value, and the text that ADD_STRING appends: one byte less than `TEXT_CAP`, R131's 126 with the default 127. -/
def Obligations.RenderingWidths : Prop :=
  (∀ v : Byte, (dec v.toNat).length ≤ 3) ∧ (∀ v : U16, (dec v.toNat).length ≤ 5) ∧
  (∀ v : U32, (dec v.toNat).length ≤ 10) ∧ (∀ v : BitVec 8, (sdec v.toInt).length ≤ 4) ∧
  (∀ v : BitVec 16, (sdec v.toInt).length ≤ 6) ∧ (∀ v : BitVec 32, (sdec v.toInt).length ≤ 11) ∧
  (∀ (ties : Ties) (x : U32), (fmtF ties x).length ≤ 47) ∧
  (∀ (id : List Byte) (value : Bool), (ackBody id value).length = id.length + 4) ∧
  ∀ (s t : State) (text : Nat) (bs : List Byte), exec (.addString text) s = .next t →
    t.txText = s.txText ++ [0x2C#8] ++ bs → bs.length + 1 ≤ s.config.textCap ∧ (s.config.textCap = 127 → bs.length ≤ 126)

/-- 30_encoding.md R132: a finite float renders as its sign bit, the integer part, `.` and six digits of the integer
nearest to its magnitude times 10^6, ties as the parameter says; a NaN as `nan`, an infinity as `inf`, after the sign. -/
def Obligations.FloatRenderingIsNearest : Prop :=
  ∀ (ties : Ties) (x : U32),
    let sign := if x.msb then [0x2D#8] else []
    (floatExp x ≠ 255 → ∃ r : Nat,
      fmtF ties x = sign ++ dec (r / 10 ^ 6) ++ [0x2E#8] ++ pad6 (r % 10 ^ 6) ∧
      |(r : ℚ) - |floatValue x| * 10 ^ 6| ≤ 1 / 2 ∧
      (|(r : ℚ) - |floatValue x| * 10 ^ 6| = 1 / 2 →
        match ties with
        | .even => r % 2 = 0
        | .away => |floatValue x| * 10 ^ 6 < r)) ∧
    (floatExp x = 255 → floatFrac x ≠ 0 → fmtF ties x = sign ++ [0x6E#8, 0x61#8, 0x6E#8]) ∧
    (floatExp x = 255 → floatFrac x = 0 → fmtF ties x = sign ++ [0x69#8, 0x6E#8, 0x66#8]) ∧
    ∀ n < 10 ^ 6, (pad6 n).length = 6 ∧ Digits (pad6 n) ∧ decVal (pad6 n) = n

/-! ## RECEIVE -/

/-- RECEIVE's first step: the deadline armed (42_frame_reader.md R182), the records reset and nothing else of the
buffers (R183), then NO_INPUT where the queue is empty, else the checksum reset and the scan (R184). -/
def Obligations.ReceiveFirstStep : Prop :=
  ∀ s : State,
    let v : State := { s with
      deadline := s.now + BitVec.ofNat 32 s.config.baseTimeoutMs
      rxAscii := ⟨0#8, 0#8, [], false⟩, rxAck := ⟨0#8, false, false⟩, rxBin := ⟨0#8, 0#16, false⟩
      rxStr := ⟨0#8, 0#16, [], false⟩, rxCursor := 0 }
    encode .receive = .command ⟨0x01#8, []⟩ ∧
    (s.rxFifo = [] → exec .receive s = .next { v with resKind := .none, lastFail := .noInput, phase := .idle }) ∧
    (s.rxFifo ≠ [] → exec .receive s = .next { v with csA := 0#8, csB := 0#8, phase := .busy .scan })

/-- The four FRAME rows start their sub-parsers at the id field, with nothing read of it yet (42_frame_reader.md R192,
R197, R198, R199); `!` extends the deadline (R190). What the sub-parsers then do is stated by the frame statements. -/
def Obligations.FrameEntries : Prop :=
  ∀ s : State,
    exec .frameAscii s = .next { s with phase := .busy (.field .asciiId []) } ∧
    exec .frameAck s = .next { s with phase := .busy (.field .ackId []) } ∧
    exec .frameBinary s = .next { s with
      phase := .busy (.field .binId []), deadline := s.deadline + BitVec.ofNat 32 s.config.binaryExtMs } ∧
    exec .frameString s = .next { s with phase := .busy (.field .strId []) }

/-- What a poll before the deadline does where it takes no byte of a payload. On an empty queue a wait iteration changes
nothing (70_reset_and_hazards.md R401); where nothing is scheduled the model gives that turn to the clock (log 3).
`ReadField`'s loop (42_frame_reader.md R186), on an empty queue or a byte queued: at the digit limit it stops; at a
terminator it stops without consuming it; else it consumes the byte, checksummed unless it is the trailer's (R188). -/
def Obligations.PollsBeforeDeadline : Prop :=
  ∀ s : State, expired s = false →
    (∀ k, s.phase = .busy k → s.rxFifo = [] →
      (∀ use acc, k = .field use acc → acc.length ≠ fieldMaxDigits s.config use) →
      (∀ rest, s.schedule = .engine :: rest → step s = .next { s with schedule := rest }) ∧
      (s.schedule = [] → step s = .next { s with now := s.now + 1#32 })) ∧
    ∀ (u : State) (use : FieldUse) (acc : List Byte), EngineNext s u → u.phase = .busy (.field use acc) →
      let limit := match use with
        | .asciiId | .ackId | .binId | .strId => u.config.idDigits
        | .binLen _ | .strLen _ => u.config.lenDigits
        | .trailer _ _ => u.config.csDigits
      let ends := fun b : Byte => match use with
        | .asciiId => b = 0x2C#8 ∨ b = 0x3B#8
        | .ackId | .binId | .strId => b = 0x2C#8
        | .binLen _ | .strLen _ | .trailer _ _ => b = 0x3B#8
      let stopped := step s = .next { u with phase := .busy (.fieldEnd use acc) }
      (acc.length = limit → stopped) ∧
      ∀ b rest, u.rxFifo = b :: rest → (ends b → stopped) ∧
        (acc.length ≠ limit → ¬ ends b → step s = .next { u with
          phase := .busy (.field use (acc ++ [b])), rxFifo := rest
          csA := match use with
            | .trailer _ _ => u.csA
            | .asciiId | .ackId | .binId | .strId | .binLen _ | .strLen _ => u.csA + b
          csB := match use with
            | .trailer _ _ => u.csB
            | .asciiId | .ackId | .binId | .strId | .binLen _ | .strLen _ => u.csB + (u.csA + b) })

/-- A RECEIVE that waits on, with the deadline `d` ms ahead, ends TIMEOUT when the clock has reached `DEADLINE`, having
consumed nothing more (20_memory.md R95, 42_frame_reader.md R181, 70_reset_and_hazards.md R400): on an empty queue,
however ticks and polls are scheduled until then; and with bytes queued, where only the ticks to the deadline are. The
schedule is the model's form of the environment, and so is that the clock ticks on when it is empty (log 3). -/
def Obligations.ReceiveEndsAtDeadline : Prop :=
  ∀ (s : State) (k : ReceiveAt) (d : Nat), s.phase = .busy k → s.deadline = s.now + BitVec.ofNat 32 d →
    (s.rxFifo = [] ∧ d ≤ 2 ^ 31 ∧ (∀ m ∈ s.schedule, m = .tick ∨ m = .engine) ∧ s.schedule.count .tick ≤ d) ∨
      s.schedule = List.replicate d .tick →
    ∃ n t, 1 ≤ n ∧ n ≤ s.schedule.length + (d - s.schedule.count .tick) + 2 ∧ runs n s t ∧
      t.phase = .idle ∧ t.resKind = .none ∧ t.lastFail = .timeout ∧
      RecordsDefault t ∧ t.now = s.deadline ∧ t.rxFifo = s.rxFifo ∧ t.hostMem = s.hostMem

/-- Every RECEIVE ends (20_memory.md R95). In every run of the machine, whatever is scheduled first: when the schedule is
done its clock goes on while RECEIVE waits (log 3), which is a fair clock. And in every run of an environment that never
ends its choice of moves, where `Tick` is weakly fair (R94) and the ENGINE polls within the time in which R93's test can
tell that the deadline has passed; that last premise is the model's reading (log 18). -/
def Obligations.EveryReceiveEnds : Prop :=
  (∀ (s : State) (k : ReceiveAt), s.phase = .busy k → ∃ n t, runs n s t ∧ ∀ k', t.phase ≠ .busy k') ∧
  ∀ (environment : Environment) (trace : Nat → State), Follows environment trace → FairClock environment →
    PollsInTime environment → ∀ n, ∃ m, n ≤ m ∧ ∀ k, (trace m).phase ≠ .busy k

/-- A byte queued when the deadline has passed is not consumed (60_exceptions.md R346): every wait loop but
`ReadField`'s own ends TIMEOUT in that step; `ReadField`'s goes on to await its terminator (42_frame_reader.md R186). -/
def Obligations.ExpiryBeforeAvailability : Prop :=
  ∀ (s u : State) (k : ReceiveAt), EngineNext s u → u.phase = .busy k → expired u = true →
    (∀ use acc, k = .field use acc → step s = .next { u with phase := .busy (.fieldEnd use acc) }) ∧
    ((∀ use acc, k ≠ .field use acc) → ∃ t, step s = .next t ∧ t.phase = .idle ∧ t.resKind = .none ∧
      t.lastFail = .timeout ∧ RecordsDefault t ∧ t.rxFifo = u.rxFifo ∧ t.csA = u.csA ∧ t.csB = u.csB ∧
      t.hostMem = u.hostMem ∧ t.deadline = u.deadline)

/-- How a numeric field ends, once the byte after it is taken before the deadline (42_frame_reader.md R186, R187, R188;
60_exceptions.md R346). Only `,` or `;` ends an ASCII id, only `,` any other id (R193, R197), only `;` a length and a
trailer. A byte that does not end the field, an empty field and a non-digit fail MALFORMED, an id above 255 and a length
above 65535 fail RANGE; the byte stays consumed and nothing is drained. -/
def Obligations.NumericFieldFailures : Prop :=
  ∀ (s u : State) (use : FieldUse) (acc : List Byte) (b : Byte) (rest : List Byte),
    EngineNext s u → u.phase = .busy (.fieldEnd use acc) → expired u = false → u.rxFifo = b :: rest →
    let fails := fun code => ∃ t, step s = .next t ∧ t.phase = .idle ∧ t.resKind = .none ∧ t.lastFail = code ∧
      RecordsDefault t ∧ t.rxFifo = rest ∧ t.hostMem = u.hostMem
    let isId := use = .asciiId ∨ use = .ackId ∨ use = .binId ∨ use = .strId
    let isLength := ∃ id, use = .binLen id ∨ use = .strLen id
    let ends := match use with
      | .asciiId => b = 0x2C#8 ∨ b = 0x3B#8
      | .ackId | .binId | .strId => b = 0x2C#8
      | .binLen _ | .strLen _ | .trailer _ _ => b = 0x3B#8
    (¬ ends → fails .malformed) ∧
    (ends → ¬ Digits acc → fails .malformed) ∧
    (ends → Digits acc → isId → 255 < decVal acc → fails .range) ∧
    (ends → Digits acc → isLength → 65535 < decVal acc → fails .range)

/-- 42_frame_reader.md R191: a binary length above the assigned capacity, or any length with no buffer assigned, fails
CAPACITY before a payload byte is consumed, and the queue is drained of what it holds in that step. -/
def Obligations.CapacityRejectionDrains : Prop :=
  ∀ (s u : State) (id : Byte) (acc rest : List Byte),
    EngineNext s u → u.phase = .busy (.fieldEnd (.binLen id) acc) → expired u = false →
    u.rxFifo = chSemi :: rest → Digits acc → decVal acc ≤ 65535 →
    (u.binRxDesc.assigned = false ∨ u.binRxDesc.cap.toNat < decVal acc) →
    ∃ t, step s = .next t ∧ t.rxFifo = [] ∧ t.phase = .idle ∧ t.resKind = .none ∧ t.lastFail = .capacity ∧
      RecordsDefault t ∧ t.hostMem = u.hostMem

/-- Failures inside a payload (42_frame_reader.md R189, R195, R197): one byte more than `TEXT_CAP` of ASCII text fails
OVERFLOW; an ACK value other than `0` or `1` and a missing `;` after an ACK, binary or string payload fail MALFORMED;
the byte stays consumed and nothing is drained. -/
def Obligations.PayloadFailures : Prop :=
  ∀ (s u : State) (k : ReceiveAt) (b : Byte) (rest : List Byte),
    EngineNext s u → u.phase = .busy k → expired u = false → u.rxFifo = b :: rest →
    let fails := fun code => ∃ t, step s = .next t ∧ t.phase = .idle ∧ t.resKind = .none ∧ t.lastFail = code ∧
      RecordsDefault t ∧ t.rxFifo = rest ∧ t.hostMem = u.hostMem
    (∀ id np text, k = .asciiByte id np text → text.length = u.config.textCap → b ≠ 0x3B#8 → fails .overflow) ∧
    (∀ id, k = .ackValue id → b ≠ 0x30#8 → b ≠ 0x31#8 → fails .malformed) ∧
    (∀ id value, k = .ackEnd id value → b ≠ 0x3B#8 → fails .malformed) ∧
    (∀ id length, k = .binEnd id length → b ≠ 0x3B#8 → fails .malformed) ∧
    (∀ id length data, k = .strEnd id length data → b ≠ 0x3B#8 → fails .malformed)

/-- 42_frame_reader.md R198 and R322: a payload byte is stored as it arrived at `BIN_RX_DESC.base + i`; at or beyond
`HOSTMEM_SIZE` the step faults MEM_RANGE with all its effects discarded (60_exceptions.md R347). -/
def Obligations.BinaryPayloadStored : Prop :=
  ∀ (s u : State) (id : Byte) (length : U16) (i : Nat) (b : Byte) (rest : List Byte),
    EngineNext s u → u.phase = .busy (.binByte id length i) → expired u = false → u.rxFifo = b :: rest →
    (u.binRxDesc.base + i < u.config.hostMemSize → ∃ m, step s = .next { u with
        rxFifo := rest, csA := u.csA + b, csB := u.csB + (u.csA + b), hostMem := m
        phase := .busy (if i + 1 < length.toNat then .binByte id length (i + 1) else .binEnd id length) } ∧
      (u.hostMem.wf → ∀ a, m.get a = if a = u.binRxDesc.base + i then b else u.hostMem.get a)) ∧
    (u.config.hostMemSize ≤ u.binRxDesc.base + i → step s = .next { u with phase := .faulted .memRange })

/-- 42_frame_reader.md R188, R200 and 60_exceptions.md R344: a trailer of digits ends the RECEIVE with the message's
kind and fields, LAST_FAIL is NONE, and a mismatch only clears `checksum_valid`; no other record is written. A count of
commas beyond 8 bits, which needs a `TEXT_CAP` above 255, is left out (log 9). -/
def Obligations.MismatchOnlyFlagsRecord : Prop :=
  ∀ (s u : State) (expected : U16) (m : Parsed) (acc rest : List Byte),
    EngineNext s u → u.phase = .busy (.fieldEnd (.trailer expected m) acc) → expired u = false →
    u.rxFifo = 0x3B#8 :: rest → Digits acc → (∀ id np text, m = .ascii id np text → np < 256) →
    let valid := decide (decVal acc = expected.toNat)
    let v : State := { u with rxFifo := rest, lastFail := .none, phase := .idle }
    step s = .next (match m with
      | .ascii id np text => { v with resKind := .ascii, rxAscii := ⟨id, BitVec.ofNat 8 np, text, valid⟩ }
      | .ack id value => { v with resKind := .ack, rxAck := ⟨id, value, valid⟩ }
      | .binary id length => { v with resKind := .binary, rxBin := ⟨id, length, valid⟩ }
      | .string id length data => { v with resKind := .string, rxStr := ⟨id, length, data, valid⟩ })

/-- What a move while RECEIVE is in progress leaves (42_frame_reader.md R180, R183): `RES_OK` and `RES_VALUE`, the
transmit side, the descriptors, the clock and the parameters, unless it is the LINK's or reset's move. -/
def Obligations.ReceiveFrame : Prop :=
  ∀ (s u t : State) (k : ReceiveAt), EngineNext s u → u.phase = .busy k → step s = .next t →
    t = { u with
      phase := t.phase, resKind := t.resKind, lastFail := t.lastFail, csA := t.csA, csB := t.csB
      deadline := t.deadline, rxCursor := t.rxCursor, rxAscii := t.rxAscii, rxAck := t.rxAck, rxBin := t.rxBin
      rxStr := t.rxStr, hostMem := t.hostMem, rxFifo := t.rxFifo } ∧
    (t.deadline = u.deadline ∨
      (k = .scan ∧ u.rxFifo.head? = some 0x21#8 ∧
        t.deadline = u.deadline + BitVec.ofNat 32 u.config.binaryExtMs)) ∧
    ((∀ id length i, k ≠ .binByte id length i) → t.hostMem = u.hostMem)

/-- How a poll of RECEIVE can end (60_exceptions.md R342, R345, R347; 42_frame_reader.md R201): it stays in progress with
the result registers untouched, or ends with a kind and LAST_FAIL NONE, or ends with `None`, one of its failure codes
and every record at its default, or faults MEM_RANGE with the step discarded. -/
def Obligations.ReceiveOutcomes : Prop :=
  ∀ (s u : State) (k : ReceiveAt), EngineNext s u → u.phase = .busy k →
    ∃ t, step s = .next t ∧
      ((∃ k', t.phase = .busy k' ∧ t.resKind = u.resKind ∧ t.lastFail = u.lastFail) ∨
       (t.phase = .idle ∧ t.resKind ≠ .none ∧ t.lastFail = .none) ∨
       (t.phase = .idle ∧ t.resKind = .none ∧ RecordsDefault t ∧
         t.lastFail ∈ [FailCode.timeout, .malformed, .range, .overflow, .capacity]) ∨
       t = { u with phase := .faulted .memRange })

/-! ## Whole frames -/

/-- Stray bytes before a delimiter are consumed and ignored (42_frame_reader.md R184, R202): after as many scan steps
the queue holds what followed them and the checksum is reset. Nothing is scheduled, so that every move is a poll of the
ENGINE, which is the model's choice (log 3); LINK moves between the polls are left out here, and what one poll does under
any schedule is `ScanDispatchesEveryByte`. -/
def Obligations.ScanSkipsNoise : Prop :=
  ∀ (s : State) (noise rest : List Byte),
    s.phase = .busy .scan → s.schedule = [] → expired s = false → noise ≠ [] →
    (∀ b ∈ noise, b ≠ 0x23#8 ∧ b ≠ 0x3F#8 ∧ b ≠ 0x21#8 ∧ b ≠ 0x22#8) → s.rxFifo = noise ++ rest →
    runs noise.length s { s with rxFifo := rest, csA := 0#8, csB := 0#8 }

/-- An ASCII frame (30_encoding.md R122), queued or arriving before the deadline in any interleaving of LINK and ENGINE
(log 3), is received whole: `Ascii`, its id of any digits that stay within 255 (R126: leading zeros accepted), its text,
the count of its commas, and whether its trailer of any digits is the body's checksum (42_frame_reader.md R192 to R196,
R187, R188, R201). `TEXT_CAP` is below 256, so that the count fits (log 9). -/
def Obligations.AsciiFrameReceived : Prop :=
  ∀ (s : State) (id text trailer rest : List Byte),
    s.phase = .busy .scan → s.csA = 0#8 → s.csB = 0#8 → InTime s.deadline s.now s.schedule →
    Digits id → id.length ≤ s.config.idDigits → decVal id ≤ 255 →
    Digits trailer → trailer.length ≤ s.config.csDigits →
    CommaLed text → 0x3B#8 ∉ text → text.length ≤ s.config.textCap → s.config.textCap < 256 →
    s.rxFifo ++ arrivals s.schedule = asciiBody id text ++ trailer ++ [0x3B#8] ++ rest →
    ∃ n t, runs n s t ∧ t.phase = .idle ∧ t.resKind = .ascii ∧ t.lastFail = .none ∧
      t.rxFifo ++ arrivals t.schedule = rest ∧
      t.rxAscii = ⟨BitVec.ofNat 8 (decVal id), BitVec.ofNat 8 (text.count 0x2C#8), text,
        decide (decVal trailer = (checksumOf (asciiBody id text)).toNat)⟩ ∧
      t.rxAck = s.rxAck ∧ t.rxBin = s.rxBin ∧ t.rxStr = s.rxStr ∧ t.rxCursor = s.rxCursor ∧ t.hostMem = s.hostMem ∧
      t.deadline = s.deadline

/-- An ACK frame (30_encoding.md R123), queued or arriving before the deadline in any interleaving (log 3), is received
whole, its id of any digits that stay within 255 (42_frame_reader.md R197, R187, R188, R201). -/
def Obligations.AckFrameReceived : Prop :=
  ∀ (s : State) (id : List Byte) (value : Bool) (trailer rest : List Byte),
    s.phase = .busy .scan → s.csA = 0#8 → s.csB = 0#8 → InTime s.deadline s.now s.schedule →
    Digits id → id.length ≤ s.config.idDigits → decVal id ≤ 255 →
    Digits trailer → trailer.length ≤ s.config.csDigits →
    s.rxFifo ++ arrivals s.schedule = ackBody id value ++ trailer ++ [0x3B#8] ++ rest →
    ∃ n t, runs n s t ∧ t.phase = .idle ∧ t.resKind = .ack ∧ t.lastFail = .none ∧
      t.rxFifo ++ arrivals t.schedule = rest ∧
      t.rxAck = ⟨BitVec.ofNat 8 (decVal id), value,
        decide (decVal trailer = (checksumOf (ackBody id value)).toNat)⟩ ∧
      t.rxAscii = s.rxAscii ∧ t.rxBin = s.rxBin ∧ t.rxStr = s.rxStr ∧ t.rxCursor = s.rxCursor ∧
      t.hostMem = s.hostMem ∧ t.deadline = s.deadline

/-- A binary frame (30_encoding.md R124) that fits the assigned buffer is received whole, its id and length of any digits
within 255 and 65535, its payload of any bytes stored from `BIN_RX_DESC.base` on and no other byte of memory changed, with
the deadline extended (42_frame_reader.md R187, R190, R191, R198). LINK and ENGINE move in any interleaving (log 3): by
the end of `before` the delimiter has come, a poll follows, and the deadline has not passed; all that follows comes before
the extended deadline. -/
def Obligations.BinaryFrameReceived : Prop :=
  ∀ (s : State) (before after : List Turn) (id length payload trailer rest : List Byte),
    s.phase = .busy .scan → s.csA = 0#8 → s.csB = 0#8 → s.schedule = before ++ after →
    InTime s.deadline s.now before → s.rxFifo ++ arrivals before ≠ [] → (after = [] ∨ after.head? = some .engine) →
    InTime (s.deadline + BitVec.ofNat 32 s.config.binaryExtMs) s.now s.schedule →
    Digits id → id.length ≤ s.config.idDigits → decVal id ≤ 255 →
    Digits length → length.length ≤ s.config.lenDigits → decVal length = payload.length → payload.length ≤ 65535 →
    Digits trailer → trailer.length ≤ s.config.csDigits → s.hostMem.wf →
    s.binRxDesc.assigned = true → payload.length ≤ s.binRxDesc.cap.toNat →
    s.binRxDesc.base + payload.length ≤ s.config.hostMemSize →
    s.rxFifo ++ arrivals s.schedule = binaryBody id length payload ++ trailer ++ [0x3B#8] ++ rest →
    ∃ n t, runs n s t ∧ t.phase = .idle ∧ t.resKind = .binary ∧ t.lastFail = .none ∧
      t.rxFifo ++ arrivals t.schedule = rest ∧
      t.rxBin = ⟨BitVec.ofNat 8 (decVal id), BitVec.ofNat 16 payload.length,
        decide (decVal trailer = (checksumOf (binaryBody id length payload)).toNat)⟩ ∧
      t.rxAscii = s.rxAscii ∧ t.rxAck = s.rxAck ∧ t.rxStr = s.rxStr ∧ t.rxCursor = s.rxCursor ∧
      t.deadline = s.deadline + BitVec.ofNat 32 s.config.binaryExtMs ∧
      ∀ a, t.hostMem.get a =
        if s.binRxDesc.base ≤ a ∧ a < s.binRxDesc.base + payload.length then
          payload[a - s.binRxDesc.base]?.getD 0#8
        else s.hostMem.get a

/-- A string frame (30_encoding.md R125) of any declared length, queued or arriving before the deadline in any
interleaving (log 3), is received whole, its id and length of any digits within 255 and 65535: every payload byte is
consumed and checksummed, the first `STR_CAP` are stored (42_frame_reader.md R187, R199). -/
def Obligations.StringFrameReceived : Prop :=
  ∀ (s : State) (id length payload trailer rest : List Byte),
    s.phase = .busy .scan → s.csA = 0#8 → s.csB = 0#8 → InTime s.deadline s.now s.schedule →
    Digits id → id.length ≤ s.config.idDigits → decVal id ≤ 255 →
    Digits length → length.length ≤ s.config.lenDigits → decVal length = payload.length → payload.length ≤ 65535 →
    Digits trailer → trailer.length ≤ s.config.csDigits →
    s.rxFifo ++ arrivals s.schedule = stringBody id length payload ++ trailer ++ [0x3B#8] ++ rest →
    ∃ n t, runs n s t ∧ t.phase = .idle ∧ t.resKind = .string ∧ t.lastFail = .none ∧
      t.rxFifo ++ arrivals t.schedule = rest ∧
      t.rxStr = ⟨BitVec.ofNat 8 (decVal id), BitVec.ofNat 16 (min payload.length s.config.strCap),
        payload.take s.config.strCap,
        decide (decVal trailer = (checksumOf (stringBody id length payload)).toNat)⟩ ∧
      t.rxAscii = s.rxAscii ∧ t.rxAck = s.rxAck ∧ t.rxBin = s.rxBin ∧ t.rxCursor = s.rxCursor ∧
      t.hostMem = s.hostMem ∧ t.deadline = s.deadline

/-- The round-trip law (43_frame_writer.md R249, 70_reset_and_hazards.md R395): what TRANSMIT_ASCII sends for a text that
ADD commands can build and that holds no `;`, delivered before the deadline to an engine on which RECEIVE is presented, is
received as `Ascii` with the same id and text and `checksum_valid` true; its line terminator is left. The first byte is
there when RECEIVE starts (R184), the others come in any interleaving (log 3); `TEXT_CAP` is below 256, so that the count
of commas fits (log 9). -/
def Obligations.AsciiRoundTrip : Prop :=
  ∀ (s r : State) (id : Byte),
    s.txText.length ≤ s.config.textCap → CommaLed s.txText → 0x3B#8 ∉ s.txText → s.config.textCap < 256 →
    r.phase = .idle → r.port = [.command ⟨0x01#8, []⟩] → r.rxFifo ≠ [] → .reset ∉ r.schedule →
    r.config.textCap = s.config.textCap → 3 ≤ r.config.idDigits → 5 ≤ r.config.csDigits →
    r.schedule.count .tick < r.config.baseTimeoutMs → r.config.baseTimeoutMs ≤ 2 ^ 31 →
    ∃ t frame, exec (.transmitAscii id) s = .next t ∧ t.txOut = s.txOut ++ frame ∧
      (r.rxFifo ++ arrivals r.schedule = frame → ∃ n u, runs n r u ∧ u.phase = .idle ∧ u.resKind = .ascii ∧
        u.lastFail = .none ∧ u.rxAscii = ⟨id, BitVec.ofNat 8 (s.txText.count 0x2C#8), s.txText, true⟩ ∧
        u.rxFifo ++ arrivals u.schedule = [0x0A#8])

/-! ## The Frame Writer -/

/-- 43_frame_writer.md R244. -/
def Obligations.TransmitAsciiSendsFrame : Prop :=
  ∀ (s : State) (id : Byte),
    encode (.transmitAscii id) = .command ⟨0x10#8, [some id.toNat]⟩ ∧
    ∃ a b : Byte, a ++ b = checksumOf (asciiBody (dec id.toNat) s.txText) ∧
      exec (.transmitAscii id) s = .next { s with
        csA := a, csB := b, txOut := s.txOut ++ wireFrame (asciiBody (dec id.toNat) s.txText), txText := []
        lastFail := .none, phase := .idle }

/-- 43_frame_writer.md R245. -/
def Obligations.TransmitAckSendsFrame : Prop :=
  ∀ (s : State) (id : Byte) (value : Bool),
    encode (.transmitAck id value) = .command ⟨0x11#8, [some id.toNat, some value.toNat]⟩ ∧
    ∃ a b : Byte, a ++ b = checksumOf (ackBody (dec id.toNat) value) ∧
      exec (.transmitAck id value) s = .next { s with
        csA := a, csB := b, txOut := s.txOut ++ wireFrame (ackBody (dec id.toNat) value), lastFail := .none, phase := .idle }

/-- 43_frame_writer.md R246: TX_NO_BUFFER writes nothing to the wire; else the payload bytes of host memory are sent
framed; a read outside memory faults with nothing sent. -/
def Obligations.TransmitBinarySendsBuffer : Prop :=
  ∀ (s : State) (id : Byte) (payload : List Byte),
    let d := s.binTxDesc
    let ready := d.assigned = true ∧ d.length ≠ 0#16 ∧ d.length.toNat ≤ d.cap.toNat
    encode (.transmitBinary id) = .command ⟨0x12#8, [some id.toNat]⟩ ∧
    (¬ ready → FailsWith (.transmitBinary id) s .txNoBuffer) ∧
    (ready → d.base + d.length.toNat ≤ s.config.hostMemSize → payload.length = d.length.toNat →
      (∀ i < payload.length, payload[i]? = some (s.hostMem.get (d.base + i))) →
      ∃ a b : Byte, a ++ b = checksumOf (binaryBody (dec id.toNat) (dec payload.length) payload) ∧
        exec (.transmitBinary id) s = .next { s with
          csA := a, csB := b, txOut := s.txOut ++ wireFrame (binaryBody (dec id.toNat) (dec payload.length) payload)
          resOk := true, lastFail := .none, phase := .idle }) ∧
    (ready → s.config.hostMemSize < d.base + d.length.toNat →
      exec (.transmitBinary id) s = .next { s with phase := .faulted .memRange })

/-- 43_frame_writer.md R247. -/
def Obligations.TransmitStringSendsBuffer : Prop :=
  ∀ (s : State) (id : Byte),
    encode (.transmitString id) = .command ⟨0x13#8, [some id.toNat]⟩ ∧
    ∃ a b : Byte, a ++ b = checksumOf (stringBody (dec id.toNat) (dec s.txStr.length) s.txStr) ∧
      exec (.transmitString id) s = .next { s with
        csA := a, csB := b, txOut := s.txOut ++ wireFrame (stringBody (dec id.toNat) (dec s.txStr.length) s.txStr)
        resOk := true, lastFail := .none, phase := .idle }

/-- 43_frame_writer.md R248: a NUL-terminated text of at most `STR_CAP` bytes is copied to `TX_STR` and sent; a longer one
fails TEXT_TOO_LONG; a read outside memory before either faults. -/
def Obligations.TransmitStringTextSendsText : Prop :=
  ∀ (s : State) (id : Byte) (text : Nat),
    encode (.transmitStringText id text) = .command ⟨0x14#8, [some id.toNat, some text]⟩ ∧
    (∀ bs : List Byte, bs.length ≤ s.config.strCap → text + bs.length < s.config.hostMemSize →
      (∀ i < bs.length, bs[i]? = some (s.hostMem.get (text + i))) → 0#8 ∉ bs →
      s.hostMem.get (text + bs.length) = 0#8 →
      ∃ a b : Byte, a ++ b = checksumOf (stringBody (dec id.toNat) (dec bs.length) bs) ∧
        exec (.transmitStringText id text) s = .next { s with
          csA := a, csB := b, txOut := s.txOut ++ wireFrame (stringBody (dec id.toNat) (dec bs.length) bs), txStr := bs
          resOk := true, lastFail := .none, phase := .idle }) ∧
    (text + s.config.strCap < s.config.hostMemSize → (∀ i ≤ s.config.strCap, s.hostMem.get (text + i) ≠ 0#8) →
      FailsWith (.transmitStringText id text) s .textTooLong) ∧
    (∀ n ≤ s.config.strCap, s.config.hostMemSize ≤ text + n → (∀ i < n, s.hostMem.get (text + i) ≠ 0#8) →
      exec (.transmitStringText id text) s = .next { s with phase := .faulted .memRange })

/-! ## Buffer assignment -/

/-- 45_binary_string.md R320 and R321. -/
def Obligations.AssignBuffers : Prop :=
  ∀ (s : State) (buf : Option Nat) (a : Nat) (cap : U32) (length : U16),
    encode (.assignBinaryRxBuffer buf cap) = .command ⟨0x20#8, [buf, some cap.toNat]⟩ ∧
    exec (.assignBinaryRxBuffer none cap) s =
      .next { s with binRxDesc := ⟨false, 0, 0#32⟩, lastFail := .none, phase := .idle } ∧
    exec (.assignBinaryRxBuffer (some a) cap) s =
      .next { s with binRxDesc := ⟨true, a, cap⟩, lastFail := .none, phase := .idle } ∧
    encode (.assignBinaryTxBuffer buf cap length) = .command ⟨0x21#8, [buf, some cap.toNat, some length.toNat]⟩ ∧
    exec (.assignBinaryTxBuffer none cap length) s =
      .next { s with binTxDesc := ⟨false, 0, 0#32, 0#16⟩, lastFail := .none, phase := .idle } ∧
    exec (.assignBinaryTxBuffer (some a) cap length) s =
      .next { s with binTxDesc := ⟨true, a, cap, length⟩, lastFail := .none, phase := .idle }

/-! ## The parameter encoders -/

/-- 44_param_codec.md R271 to R278: the seven numeric encoders append `,` and the rendering, or fail fast. -/
def Obligations.AddNumberAppends : Prop :=
  ∀ s : State,
    (∀ v : BitVec 8, encode (.addUint8 v) = .command ⟨0x30#8, [some v.toNat]⟩ ∧
      AppendsRendering (.addUint8 v) (dec v.toNat) s) ∧
    (∀ v : BitVec 16, encode (.addUint16 v) = .command ⟨0x31#8, [some v.toNat]⟩ ∧
      AppendsRendering (.addUint16 v) (dec v.toNat) s) ∧
    (∀ v : BitVec 32, encode (.addUint32 v) = .command ⟨0x32#8, [some v.toNat]⟩ ∧
      AppendsRendering (.addUint32 v) (dec v.toNat) s) ∧
    (∀ v : BitVec 8, encode (.addInt8 v) = .command ⟨0x33#8, [some v.toNat]⟩ ∧
      AppendsRendering (.addInt8 v) (sdec v.toInt) s) ∧
    (∀ v : BitVec 16, encode (.addInt16 v) = .command ⟨0x34#8, [some v.toNat]⟩ ∧
      AppendsRendering (.addInt16 v) (sdec v.toInt) s) ∧
    (∀ v : BitVec 32, encode (.addInt32 v) = .command ⟨0x35#8, [some v.toNat]⟩ ∧
      AppendsRendering (.addInt32 v) (sdec v.toInt) s) ∧
    ∀ x : U32, encode (.addFloat x) = .command ⟨0x36#8, [some x.toNat]⟩ ∧
      AppendsRendering (.addFloat x) (fmtF s.config.floatFmtTies x) s

/-- 44_param_codec.md R279: a NUL-terminated text that fits the room left is appended verbatim; where not even the `,`
fits, or the text is longer than the room, the command fails fast; a read outside memory before that faults. -/
def Obligations.AddStringAppendsText : Prop :=
  ∀ (s : State) (text room : Nat),
    let full := exec (.addString text) s = .next { s with
      txText := [], resOk := false, lastFail := .textFull, phase := .idle }
    encode (.addString text) = .command ⟨0x37#8, [some text]⟩ ∧
    (s.config.textCap < s.txText.length + 1 → full) ∧
    (s.txText.length + 1 + room = s.config.textCap →
      (∀ bs : List Byte, bs.length ≤ room → text + bs.length < s.config.hostMemSize →
        (∀ i < bs.length, bs[i]? = some (s.hostMem.get (text + i))) → 0#8 ∉ bs →
        s.hostMem.get (text + bs.length) = 0#8 →
        exec (.addString text) s = .next { s with
          txText := s.txText ++ [0x2C#8] ++ bs, resOk := true, lastFail := .none, phase := .idle }) ∧
      (text + room < s.config.hostMemSize → (∀ i ≤ room, s.hostMem.get (text + i) ≠ 0#8) → full) ∧
      (∀ n ≤ room, s.config.hostMemSize ≤ text + n → (∀ i < n, s.hostMem.get (text + i) ≠ 0#8) →
        exec (.addString text) s = .next { s with phase := .faulted .memRange }))

/-! ## The parameter decoders -/

/-- 44_param_codec.md R281 to R283, with the widths and limits of 30_encoding.md R133. -/
def Obligations.GetUnsignedDecodesField : Prop :=
  ∀ (i : Instr) (op : Byte) (width limit : Nat),
    (i, op, width, limit) ∈ [(Instr.getUint8, 0x40#8, 3, 255), (.getUint16, 0x41#8, 5, 65535),
      (.getUint32, 0x42#8, 10, 4294967295)] →
    encode i = .command ⟨op, []⟩ ∧
    ∀ s : State, (NoField s → FailsWith i s .getNoField) ∧
      ∀ f, FieldAt s f →
        (width < f.length → FailsWith i s .getSyntax) ∧
        (f.length ≤ width → ¬ Digits f → FailsWith i s .getSyntax) ∧
        (f.length ≤ width → Digits f → limit < decVal f → FailsWith i s .getRange) ∧
        (f.length ≤ width → Digits f → decVal f ≤ limit → YieldsValue i s f (BitVec.ofNat 32 (decVal f)))

/-- 44_param_codec.md R284 to R286: an optional `-`, then digits; the width counts the sign; the result is sign-extended. -/
def Obligations.GetSignedDecodesField : Prop :=
  ∀ (i : Instr) (op : Byte) (width limit : Nat),
    (i, op, width, limit) ∈ [(Instr.getInt8, 0x43#8, 4, 128), (.getInt16, 0x44#8, 6, 32768),
      (.getInt32, 0x45#8, 11, 2147483648)] →
    encode i = .command ⟨op, []⟩ ∧
    ∀ s : State, (NoField s → FailsWith i s .getNoField) ∧
      ∀ f, FieldAt s f →
        (width < f.length → FailsWith i s .getSyntax) ∧
        (f.length ≤ width → (∀ d, Digits d → f ≠ d ∧ f ≠ 0x2D#8 :: d) → FailsWith i s .getSyntax) ∧
        ∀ d, Digits d → f.length ≤ width →
          (f = d → limit ≤ decVal d → FailsWith i s .getRange) ∧
          (f = d → decVal d < limit → YieldsValue i s f (BitVec.ofInt 32 (decVal d))) ∧
          (f = 0x2D#8 :: d → limit < decVal d → FailsWith i s .getRange) ∧
          (f = 0x2D#8 :: d → decVal d ≤ limit → YieldsValue i s f (BitVec.ofInt 32 (-(decVal d : ℤ))))

/-- 44_param_codec.md R287 and R288: a field of at most 15 bytes of the syntax gives the binary32 nearest to the exact
decimal, ties to even, always finite, a zero with `-` being -0.0; every other field fails GET_SYNTAX. The grammar, the rounding and
-0.0 are the spec's own choice (92_eei_decisions.md D20) and general knowledge, as R288 marks them. -/
def Obligations.GetFloatDecodesNearest : Prop :=
  ∀ s : State, encode .getFloat = .command ⟨0x46#8, []⟩ ∧ (NoField s → FailsWith .getFloat s .getNoField) ∧
    ∀ f, FieldAt s f →
      (15 < f.length → FailsWith .getFloat s .getSyntax) ∧
      (f.length ≤ 15 → (∀ neg whole frac, ¬ FloatSyntax f neg whole frac) → FailsWith .getFloat s .getSyntax) ∧
      ∀ neg whole frac, f.length ≤ 15 → FloatSyntax f neg whole frac →
        ∃ r, YieldsValue .getFloat s f r ∧
          NearestFloat neg ((if neg then -1 else 1) * (decVal (whole ++ frac) : ℚ) / 10 ^ frac.length) r

/-- 44_param_codec.md R289: the field, truncated to `len - 1` bytes, and a NUL are written from `dest` on and no other byte
of memory changes; the cursor moves past the whole field. -/
def Obligations.GetStringCopiesField : Prop :=
  ∀ (s : State) (dest : Nat) (len : U16),
    encode (.getString dest len) = .command ⟨0x47#8, [some dest, some len.toNat]⟩ ∧
    (len = 0#16 → FailsWith (.getString dest len) s .getBadLen) ∧
    (len ≠ 0#16 → NoField s → FailsWith (.getString dest len) s .getNoField) ∧
    ∀ f k, len ≠ 0#16 → FieldAt s f → k = min f.length (len.toNat - 1) →
      (dest + k < s.config.hostMemSize → ∃ m, exec (.getString dest len) s = .next { s with
          hostMem := m, rxCursor := s.rxCursor + 1 + f.length, resOk := true, lastFail := .none, phase := .idle } ∧
        (s.hostMem.wf → ∀ a, m.get a =
          if dest ≤ a ∧ a < dest + k then f[a - dest]?.getD 0#8
          else if a = dest + k then 0#8 else s.hostMem.get a)) ∧
      (s.config.hostMemSize ≤ dest + k →
        exec (.getString dest len) s = .next { s with phase := .faulted .memRange })

/-- 44_param_codec.md R292: a failing GET writes only `RES_OK` and `LAST_FAIL`. -/
def Obligations.FailingGetWritesOnlyResult : Prop :=
  ∀ (i : Instr) (s t : State), isGet i = true → exec i s = .next t → t.phase = .idle → t.resOk = false →
    t = { s with resOk := false, lastFail := t.lastFail, phase := .idle }

/-! ## All commands -/

/-- Every command but RECEIVE is one step, which ends Idle, or, for the four that reach host memory, faults MEM_RANGE with
every effect discarded (00_scope.md R13, 20_memory.md R97, 60_exceptions.md R345, R347). -/
def Obligations.SingleStepCommandsComplete : Prop :=
  ∀ (i : Instr) (s : State), isSingleStep i = true →
    ∃ t, exec i s = .next t ∧
      (t.phase = .idle ∨ (mayFault i = true ∧ t = { s with phase := .faulted .memRange }))

/-- 10_state.md R33: commands that do not appear in a result register's "written by" column leave it unchanged; a frame row
is a part of RECEIVE that ends no command. -/
def Obligations.ResultRegisterWriters : Prop :=
  ∀ (i : Instr) (s t : State), exec i s = .next t →
    (i ≠ .receive → t.resKind = s.resKind) ∧ (writesOk i = false → t.resOk = s.resOk) ∧
    (writesValue i = false → t.resValue = s.resValue) ∧
    (writesValue i = true → t.resOk = false → t.resValue = s.resValue)

/-- 60_exceptions.md R341 and R345: a command that is one step and ends leaves NONE or one of its own failure codes in
`LAST_FAIL`, and `RES_OK`, where it writes it, is 1 exactly where the code is NONE. -/
def Obligations.FailureCodesOfEachCommand : Prop :=
  ∀ (i : Instr) (s t : State), isSingleStep i = true → exec i s = .next t → t.phase = .idle →
    (t.lastFail = .none ∨ t.lastFail ∈ failureCodes i) ∧
    (writesOk i = true → (t.resOk = true ↔ t.lastFail = .none)) ∧
    (writesOk i = false → t.lastFail = .none)

/-- 41_checksum.md R176: no single-step command, and not RECEIVE's first step, reads `CS_A` or `CS_B` before resetting
them: whatever they hold, the outcome is the same but for what is left in them. -/
def Obligations.ChecksumRegistersNotRead : Prop :=
  ∀ (i : Instr) (s t : State) (a b : Byte), (isSingleStep i = true ∨ i = .receive) → exec i s = .next t →
    ∃ t', exec i { s with csA := a, csB := b } = .next t' ∧ t' = { t with csA := t'.csA, csB := t'.csB }

/-! ## Every move -/

/-- Every move keeps host memory in canonical form and within `HOSTMEM_SIZE` (20_memory.md R81). -/
def Obligations.MovesKeepMemory : Prop :=
  ∀ s t : State, MemoryInv s → step s = .next t → MemoryInv t

/-- Every move keeps every fixed buffer within its declared capacity, and the text buffers comma-led, in every phase and
for every byte the LINK delivers (20_memory.md R84; 10_state.md R36, R37, R40, R44, R45). The premise `KindInv` is the
invariant of the next statement. -/
def Obligations.MovesKeepBounds : Prop :=
  ∀ s t : State, KindInv s → BoundsInv s → step s = .next t → BoundsInv t

/-- Every move keeps the received records in step with `RES_KIND`: no record of another kind, and none while a RECEIVE is
in progress, holds anything but its default (42_frame_reader.md R183, R201; 60_exceptions.md R342). -/
def Obligations.MovesKeepKind : Prop :=
  ∀ s t : State, KindInv s → step s = .next t → KindInv t

/-- The invariants hold after reset, for legal parameters and any launch contents of the environment's stores. -/
def Obligations.LaunchMeetsInvariants : Prop :=
  MemoryInv State.reset ∧ BoundsInv State.reset ∧ KindInv State.reset ∧
  ∀ (c : Config) (m : Memory) (fifo : List Byte) (now : U32), ConfigLegal c →
    BoundsInv (State.launch c m fifo now) ∧ KindInv (State.launch c m fifo now) ∧
    (m.wf → (∀ d ∈ m, d.1 < c.hostMemSize) → MemoryInv (State.launch c m fifo now))

/-- While a RECEIVE is in progress no move changes a byte of host memory outside the borrowed region (20_memory.md R84:
"No byte sequence, however malformed, causes a write past any fixed buffer's declared capacity"). -/
def Obligations.ReceiveWritesStayInBuffer : Prop :=
  ∀ (s t : State) (k : ReceiveAt), MemoryInv s → BoundsInv s → s.phase = .busy k → step s = .next t →
    ∀ a, t.hostMem.get a ≠ s.hostMem.get a →
      s.binRxDesc.assigned = true ∧ s.binRxDesc.base ≤ a ∧ a < s.binRxDesc.base + s.binRxDesc.cap.toNat

/-- No move changes the parameters (00_scope.md R10); `TX_OUT` only grows at its end until reset (20_memory.md R91); and
the receive queue reorders no byte and gains none but by `Arrive`: a move leaves a tail of it, or adds one byte at its
end (20_memory.md R90). -/
def Obligations.MovesKeepStreamOrder : Prop :=
  ∀ s t : State, step s = .next t →
    t.config = s.config ∧ (s.schedule.head? ≠ some .reset → s.txOut <+: t.txOut) ∧
    (t.rxFifo <:+ s.rxFifo ∨ ∃ b rest, s.schedule = .arrive b :: rest ∧ t.rxFifo = s.rxFifo ++ [b])
end

