-- ==== Sys2Proof/Laws/State.lean ====
section
/-! SUPPORT. One lemma per field per update of the state, so that no proof unfolds an update. -/

namespace Sys2Proof.Machine

/-! ## csReset -/

@[simp] theorem csReset_config (s : State) : (csReset s).config = s.config := rfl
@[simp] theorem csReset_phase (s : State) : (csReset s).phase = s.phase := rfl
@[simp] theorem csReset_resKind (s : State) : (csReset s).resKind = s.resKind := rfl
@[simp] theorem csReset_resOk (s : State) : (csReset s).resOk = s.resOk := rfl
@[simp] theorem csReset_resValue (s : State) : (csReset s).resValue = s.resValue := rfl
@[simp] theorem csReset_lastFail (s : State) : (csReset s).lastFail = s.lastFail := rfl
@[simp] theorem csReset_csA (s : State) : (csReset s).csA = 0#8 := rfl
@[simp] theorem csReset_csB (s : State) : (csReset s).csB = 0#8 := rfl
@[simp] theorem csReset_deadline (s : State) : (csReset s).deadline = s.deadline := rfl
@[simp] theorem csReset_rxCursor (s : State) : (csReset s).rxCursor = s.rxCursor := rfl
@[simp] theorem csReset_rxAscii (s : State) : (csReset s).rxAscii = s.rxAscii := rfl
@[simp] theorem csReset_rxAck (s : State) : (csReset s).rxAck = s.rxAck := rfl
@[simp] theorem csReset_rxBin (s : State) : (csReset s).rxBin = s.rxBin := rfl
@[simp] theorem csReset_rxStr (s : State) : (csReset s).rxStr = s.rxStr := rfl
@[simp] theorem csReset_binRxDesc (s : State) : (csReset s).binRxDesc = s.binRxDesc := rfl
@[simp] theorem csReset_binTxDesc (s : State) : (csReset s).binTxDesc = s.binTxDesc := rfl
@[simp] theorem csReset_txText (s : State) : (csReset s).txText = s.txText := rfl
@[simp] theorem csReset_txStr (s : State) : (csReset s).txStr = s.txStr := rfl
@[simp] theorem csReset_hostMem (s : State) : (csReset s).hostMem = s.hostMem := rfl
@[simp] theorem csReset_rxFifo (s : State) : (csReset s).rxFifo = s.rxFifo := rfl
@[simp] theorem csReset_txOut (s : State) : (csReset s).txOut = s.txOut := rfl
@[simp] theorem csReset_now (s : State) : (csReset s).now = s.now := rfl
@[simp] theorem csReset_port (s : State) : (csReset s).port = s.port := rfl
@[simp] theorem csReset_schedule (s : State) : (csReset s).schedule = s.schedule := rfl

/-! ## csUpdate -/

@[simp] theorem csUpdate_config (b : Byte) (s : State) : (csUpdate b s).config = s.config := rfl
@[simp] theorem csUpdate_phase (b : Byte) (s : State) : (csUpdate b s).phase = s.phase := rfl
@[simp] theorem csUpdate_resKind (b : Byte) (s : State) : (csUpdate b s).resKind = s.resKind := rfl
@[simp] theorem csUpdate_resOk (b : Byte) (s : State) : (csUpdate b s).resOk = s.resOk := rfl
@[simp] theorem csUpdate_resValue (b : Byte) (s : State) : (csUpdate b s).resValue = s.resValue := rfl
@[simp] theorem csUpdate_lastFail (b : Byte) (s : State) : (csUpdate b s).lastFail = s.lastFail := rfl
@[simp] theorem csUpdate_csA (b : Byte) (s : State) : (csUpdate b s).csA = s.csA + b := rfl
@[simp] theorem csUpdate_csB (b : Byte) (s : State) : (csUpdate b s).csB = s.csB + (s.csA + b) := rfl
@[simp] theorem csUpdate_deadline (b : Byte) (s : State) : (csUpdate b s).deadline = s.deadline := rfl
@[simp] theorem csUpdate_rxCursor (b : Byte) (s : State) : (csUpdate b s).rxCursor = s.rxCursor := rfl
@[simp] theorem csUpdate_rxAscii (b : Byte) (s : State) : (csUpdate b s).rxAscii = s.rxAscii := rfl
@[simp] theorem csUpdate_rxAck (b : Byte) (s : State) : (csUpdate b s).rxAck = s.rxAck := rfl
@[simp] theorem csUpdate_rxBin (b : Byte) (s : State) : (csUpdate b s).rxBin = s.rxBin := rfl
@[simp] theorem csUpdate_rxStr (b : Byte) (s : State) : (csUpdate b s).rxStr = s.rxStr := rfl
@[simp] theorem csUpdate_binRxDesc (b : Byte) (s : State) : (csUpdate b s).binRxDesc = s.binRxDesc := rfl
@[simp] theorem csUpdate_binTxDesc (b : Byte) (s : State) : (csUpdate b s).binTxDesc = s.binTxDesc := rfl
@[simp] theorem csUpdate_txText (b : Byte) (s : State) : (csUpdate b s).txText = s.txText := rfl
@[simp] theorem csUpdate_txStr (b : Byte) (s : State) : (csUpdate b s).txStr = s.txStr := rfl
@[simp] theorem csUpdate_hostMem (b : Byte) (s : State) : (csUpdate b s).hostMem = s.hostMem := rfl
@[simp] theorem csUpdate_rxFifo (b : Byte) (s : State) : (csUpdate b s).rxFifo = s.rxFifo := rfl
@[simp] theorem csUpdate_txOut (b : Byte) (s : State) : (csUpdate b s).txOut = s.txOut := rfl
@[simp] theorem csUpdate_now (b : Byte) (s : State) : (csUpdate b s).now = s.now := rfl
@[simp] theorem csUpdate_port (b : Byte) (s : State) : (csUpdate b s).port = s.port := rfl
@[simp] theorem csUpdate_schedule (b : Byte) (s : State) : (csUpdate b s).schedule = s.schedule := rfl

/-! ## finishQuiet -/

@[simp] theorem finishQuiet_config (s : State) : (finishQuiet s).config = s.config := rfl
@[simp] theorem finishQuiet_phase (s : State) : (finishQuiet s).phase = .idle := rfl
@[simp] theorem finishQuiet_resKind (s : State) : (finishQuiet s).resKind = s.resKind := rfl
@[simp] theorem finishQuiet_resOk (s : State) : (finishQuiet s).resOk = s.resOk := rfl
@[simp] theorem finishQuiet_resValue (s : State) : (finishQuiet s).resValue = s.resValue := rfl
@[simp] theorem finishQuiet_lastFail (s : State) : (finishQuiet s).lastFail = .none := rfl
@[simp] theorem finishQuiet_csA (s : State) : (finishQuiet s).csA = s.csA := rfl
@[simp] theorem finishQuiet_csB (s : State) : (finishQuiet s).csB = s.csB := rfl
@[simp] theorem finishQuiet_deadline (s : State) : (finishQuiet s).deadline = s.deadline := rfl
@[simp] theorem finishQuiet_rxCursor (s : State) : (finishQuiet s).rxCursor = s.rxCursor := rfl
@[simp] theorem finishQuiet_rxAscii (s : State) : (finishQuiet s).rxAscii = s.rxAscii := rfl
@[simp] theorem finishQuiet_rxAck (s : State) : (finishQuiet s).rxAck = s.rxAck := rfl
@[simp] theorem finishQuiet_rxBin (s : State) : (finishQuiet s).rxBin = s.rxBin := rfl
@[simp] theorem finishQuiet_rxStr (s : State) : (finishQuiet s).rxStr = s.rxStr := rfl
@[simp] theorem finishQuiet_binRxDesc (s : State) : (finishQuiet s).binRxDesc = s.binRxDesc := rfl
@[simp] theorem finishQuiet_binTxDesc (s : State) : (finishQuiet s).binTxDesc = s.binTxDesc := rfl
@[simp] theorem finishQuiet_txText (s : State) : (finishQuiet s).txText = s.txText := rfl
@[simp] theorem finishQuiet_txStr (s : State) : (finishQuiet s).txStr = s.txStr := rfl
@[simp] theorem finishQuiet_hostMem (s : State) : (finishQuiet s).hostMem = s.hostMem := rfl
@[simp] theorem finishQuiet_rxFifo (s : State) : (finishQuiet s).rxFifo = s.rxFifo := rfl
@[simp] theorem finishQuiet_txOut (s : State) : (finishQuiet s).txOut = s.txOut := rfl
@[simp] theorem finishQuiet_now (s : State) : (finishQuiet s).now = s.now := rfl
@[simp] theorem finishQuiet_port (s : State) : (finishQuiet s).port = s.port := rfl
@[simp] theorem finishQuiet_schedule (s : State) : (finishQuiet s).schedule = s.schedule := rfl

/-! ## finishOk -/

@[simp] theorem finishOk_config (s : State) : (finishOk s).config = s.config := rfl
@[simp] theorem finishOk_phase (s : State) : (finishOk s).phase = .idle := rfl
@[simp] theorem finishOk_resKind (s : State) : (finishOk s).resKind = s.resKind := rfl
@[simp] theorem finishOk_resOk (s : State) : (finishOk s).resOk = true := rfl
@[simp] theorem finishOk_resValue (s : State) : (finishOk s).resValue = s.resValue := rfl
@[simp] theorem finishOk_lastFail (s : State) : (finishOk s).lastFail = .none := rfl
@[simp] theorem finishOk_csA (s : State) : (finishOk s).csA = s.csA := rfl
@[simp] theorem finishOk_csB (s : State) : (finishOk s).csB = s.csB := rfl
@[simp] theorem finishOk_deadline (s : State) : (finishOk s).deadline = s.deadline := rfl
@[simp] theorem finishOk_rxCursor (s : State) : (finishOk s).rxCursor = s.rxCursor := rfl
@[simp] theorem finishOk_rxAscii (s : State) : (finishOk s).rxAscii = s.rxAscii := rfl
@[simp] theorem finishOk_rxAck (s : State) : (finishOk s).rxAck = s.rxAck := rfl
@[simp] theorem finishOk_rxBin (s : State) : (finishOk s).rxBin = s.rxBin := rfl
@[simp] theorem finishOk_rxStr (s : State) : (finishOk s).rxStr = s.rxStr := rfl
@[simp] theorem finishOk_binRxDesc (s : State) : (finishOk s).binRxDesc = s.binRxDesc := rfl
@[simp] theorem finishOk_binTxDesc (s : State) : (finishOk s).binTxDesc = s.binTxDesc := rfl
@[simp] theorem finishOk_txText (s : State) : (finishOk s).txText = s.txText := rfl
@[simp] theorem finishOk_txStr (s : State) : (finishOk s).txStr = s.txStr := rfl
@[simp] theorem finishOk_hostMem (s : State) : (finishOk s).hostMem = s.hostMem := rfl
@[simp] theorem finishOk_rxFifo (s : State) : (finishOk s).rxFifo = s.rxFifo := rfl
@[simp] theorem finishOk_txOut (s : State) : (finishOk s).txOut = s.txOut := rfl
@[simp] theorem finishOk_now (s : State) : (finishOk s).now = s.now := rfl
@[simp] theorem finishOk_port (s : State) : (finishOk s).port = s.port := rfl
@[simp] theorem finishOk_schedule (s : State) : (finishOk s).schedule = s.schedule := rfl

/-! ## finishFail -/

@[simp] theorem finishFail_config (c : FailCode) (s : State) : (finishFail c s).config = s.config := rfl
@[simp] theorem finishFail_phase (c : FailCode) (s : State) : (finishFail c s).phase = .idle := rfl
@[simp] theorem finishFail_resKind (c : FailCode) (s : State) : (finishFail c s).resKind = s.resKind := rfl
@[simp] theorem finishFail_resOk (c : FailCode) (s : State) : (finishFail c s).resOk = false := rfl
@[simp] theorem finishFail_resValue (c : FailCode) (s : State) : (finishFail c s).resValue = s.resValue := rfl
@[simp] theorem finishFail_lastFail (c : FailCode) (s : State) : (finishFail c s).lastFail = c := rfl
@[simp] theorem finishFail_csA (c : FailCode) (s : State) : (finishFail c s).csA = s.csA := rfl
@[simp] theorem finishFail_csB (c : FailCode) (s : State) : (finishFail c s).csB = s.csB := rfl
@[simp] theorem finishFail_deadline (c : FailCode) (s : State) : (finishFail c s).deadline = s.deadline := rfl
@[simp] theorem finishFail_rxCursor (c : FailCode) (s : State) : (finishFail c s).rxCursor = s.rxCursor := rfl
@[simp] theorem finishFail_rxAscii (c : FailCode) (s : State) : (finishFail c s).rxAscii = s.rxAscii := rfl
@[simp] theorem finishFail_rxAck (c : FailCode) (s : State) : (finishFail c s).rxAck = s.rxAck := rfl
@[simp] theorem finishFail_rxBin (c : FailCode) (s : State) : (finishFail c s).rxBin = s.rxBin := rfl
@[simp] theorem finishFail_rxStr (c : FailCode) (s : State) : (finishFail c s).rxStr = s.rxStr := rfl
@[simp] theorem finishFail_binRxDesc (c : FailCode) (s : State) : (finishFail c s).binRxDesc = s.binRxDesc := rfl
@[simp] theorem finishFail_binTxDesc (c : FailCode) (s : State) : (finishFail c s).binTxDesc = s.binTxDesc := rfl
@[simp] theorem finishFail_txText (c : FailCode) (s : State) : (finishFail c s).txText = s.txText := rfl
@[simp] theorem finishFail_txStr (c : FailCode) (s : State) : (finishFail c s).txStr = s.txStr := rfl
@[simp] theorem finishFail_hostMem (c : FailCode) (s : State) : (finishFail c s).hostMem = s.hostMem := rfl
@[simp] theorem finishFail_rxFifo (c : FailCode) (s : State) : (finishFail c s).rxFifo = s.rxFifo := rfl
@[simp] theorem finishFail_txOut (c : FailCode) (s : State) : (finishFail c s).txOut = s.txOut := rfl
@[simp] theorem finishFail_now (c : FailCode) (s : State) : (finishFail c s).now = s.now := rfl
@[simp] theorem finishFail_port (c : FailCode) (s : State) : (finishFail c s).port = s.port := rfl
@[simp] theorem finishFail_schedule (c : FailCode) (s : State) : (finishFail c s).schedule = s.schedule := rfl

/-! ## getOk -/

@[simp] theorem getOk_config (v : U32) (q : Nat) (s : State) : (getOk v q s).config = s.config := rfl
@[simp] theorem getOk_phase (v : U32) (q : Nat) (s : State) : (getOk v q s).phase = .idle := rfl
@[simp] theorem getOk_resKind (v : U32) (q : Nat) (s : State) : (getOk v q s).resKind = s.resKind := rfl
@[simp] theorem getOk_resOk (v : U32) (q : Nat) (s : State) : (getOk v q s).resOk = true := rfl
@[simp] theorem getOk_resValue (v : U32) (q : Nat) (s : State) : (getOk v q s).resValue = v := rfl
@[simp] theorem getOk_lastFail (v : U32) (q : Nat) (s : State) : (getOk v q s).lastFail = .none := rfl
@[simp] theorem getOk_csA (v : U32) (q : Nat) (s : State) : (getOk v q s).csA = s.csA := rfl
@[simp] theorem getOk_csB (v : U32) (q : Nat) (s : State) : (getOk v q s).csB = s.csB := rfl
@[simp] theorem getOk_deadline (v : U32) (q : Nat) (s : State) : (getOk v q s).deadline = s.deadline := rfl
@[simp] theorem getOk_rxCursor (v : U32) (q : Nat) (s : State) : (getOk v q s).rxCursor = q := rfl
@[simp] theorem getOk_rxAscii (v : U32) (q : Nat) (s : State) : (getOk v q s).rxAscii = s.rxAscii := rfl
@[simp] theorem getOk_rxAck (v : U32) (q : Nat) (s : State) : (getOk v q s).rxAck = s.rxAck := rfl
@[simp] theorem getOk_rxBin (v : U32) (q : Nat) (s : State) : (getOk v q s).rxBin = s.rxBin := rfl
@[simp] theorem getOk_rxStr (v : U32) (q : Nat) (s : State) : (getOk v q s).rxStr = s.rxStr := rfl
@[simp] theorem getOk_binRxDesc (v : U32) (q : Nat) (s : State) : (getOk v q s).binRxDesc = s.binRxDesc := rfl
@[simp] theorem getOk_binTxDesc (v : U32) (q : Nat) (s : State) : (getOk v q s).binTxDesc = s.binTxDesc := rfl
@[simp] theorem getOk_txText (v : U32) (q : Nat) (s : State) : (getOk v q s).txText = s.txText := rfl
@[simp] theorem getOk_txStr (v : U32) (q : Nat) (s : State) : (getOk v q s).txStr = s.txStr := rfl
@[simp] theorem getOk_hostMem (v : U32) (q : Nat) (s : State) : (getOk v q s).hostMem = s.hostMem := rfl
@[simp] theorem getOk_rxFifo (v : U32) (q : Nat) (s : State) : (getOk v q s).rxFifo = s.rxFifo := rfl
@[simp] theorem getOk_txOut (v : U32) (q : Nat) (s : State) : (getOk v q s).txOut = s.txOut := rfl
@[simp] theorem getOk_now (v : U32) (q : Nat) (s : State) : (getOk v q s).now = s.now := rfl
@[simp] theorem getOk_port (v : U32) (q : Nat) (s : State) : (getOk v q s).port = s.port := rfl
@[simp] theorem getOk_schedule (v : U32) (q : Nat) (s : State) : (getOk v q s).schedule = s.schedule := rfl

/-! ## resetRxRecords -/

@[simp] theorem resetRxRecords_config (s : State) : (resetRxRecords s).config = s.config := rfl
@[simp] theorem resetRxRecords_phase (s : State) : (resetRxRecords s).phase = s.phase := rfl
@[simp] theorem resetRxRecords_resKind (s : State) : (resetRxRecords s).resKind = s.resKind := rfl
@[simp] theorem resetRxRecords_resOk (s : State) : (resetRxRecords s).resOk = s.resOk := rfl
@[simp] theorem resetRxRecords_resValue (s : State) : (resetRxRecords s).resValue = s.resValue := rfl
@[simp] theorem resetRxRecords_lastFail (s : State) : (resetRxRecords s).lastFail = s.lastFail := rfl
@[simp] theorem resetRxRecords_csA (s : State) : (resetRxRecords s).csA = s.csA := rfl
@[simp] theorem resetRxRecords_csB (s : State) : (resetRxRecords s).csB = s.csB := rfl
@[simp] theorem resetRxRecords_deadline (s : State) : (resetRxRecords s).deadline = s.deadline := rfl
@[simp] theorem resetRxRecords_rxCursor (s : State) : (resetRxRecords s).rxCursor = 0 := rfl
@[simp] theorem resetRxRecords_rxAscii (s : State) : (resetRxRecords s).rxAscii = .default := rfl
@[simp] theorem resetRxRecords_rxAck (s : State) : (resetRxRecords s).rxAck = .default := rfl
@[simp] theorem resetRxRecords_rxBin (s : State) : (resetRxRecords s).rxBin = .default := rfl
@[simp] theorem resetRxRecords_rxStr (s : State) : (resetRxRecords s).rxStr = .default := rfl
@[simp] theorem resetRxRecords_binRxDesc (s : State) : (resetRxRecords s).binRxDesc = s.binRxDesc := rfl
@[simp] theorem resetRxRecords_binTxDesc (s : State) : (resetRxRecords s).binTxDesc = s.binTxDesc := rfl
@[simp] theorem resetRxRecords_txText (s : State) : (resetRxRecords s).txText = s.txText := rfl
@[simp] theorem resetRxRecords_txStr (s : State) : (resetRxRecords s).txStr = s.txStr := rfl
@[simp] theorem resetRxRecords_hostMem (s : State) : (resetRxRecords s).hostMem = s.hostMem := rfl
@[simp] theorem resetRxRecords_rxFifo (s : State) : (resetRxRecords s).rxFifo = s.rxFifo := rfl
@[simp] theorem resetRxRecords_txOut (s : State) : (resetRxRecords s).txOut = s.txOut := rfl
@[simp] theorem resetRxRecords_now (s : State) : (resetRxRecords s).now = s.now := rfl
@[simp] theorem resetRxRecords_port (s : State) : (resetRxRecords s).port = s.port := rfl
@[simp] theorem resetRxRecords_schedule (s : State) : (resetRxRecords s).schedule = s.schedule := rfl

/-! ## failReceive -/

@[simp] theorem failReceive_config (c : FailCode) (s : State) : (failReceive c s).config = s.config := rfl
@[simp] theorem failReceive_phase (c : FailCode) (s : State) : (failReceive c s).phase = .idle := rfl
@[simp] theorem failReceive_resKind (c : FailCode) (s : State) : (failReceive c s).resKind = .none := rfl
@[simp] theorem failReceive_resOk (c : FailCode) (s : State) : (failReceive c s).resOk = s.resOk := rfl
@[simp] theorem failReceive_resValue (c : FailCode) (s : State) : (failReceive c s).resValue = s.resValue := rfl
@[simp] theorem failReceive_lastFail (c : FailCode) (s : State) : (failReceive c s).lastFail = c := rfl
@[simp] theorem failReceive_csA (c : FailCode) (s : State) : (failReceive c s).csA = s.csA := rfl
@[simp] theorem failReceive_csB (c : FailCode) (s : State) : (failReceive c s).csB = s.csB := rfl
@[simp] theorem failReceive_deadline (c : FailCode) (s : State) : (failReceive c s).deadline = s.deadline := rfl
@[simp] theorem failReceive_rxCursor (c : FailCode) (s : State) : (failReceive c s).rxCursor = 0 := rfl
@[simp] theorem failReceive_rxAscii (c : FailCode) (s : State) : (failReceive c s).rxAscii = .default := rfl
@[simp] theorem failReceive_rxAck (c : FailCode) (s : State) : (failReceive c s).rxAck = .default := rfl
@[simp] theorem failReceive_rxBin (c : FailCode) (s : State) : (failReceive c s).rxBin = .default := rfl
@[simp] theorem failReceive_rxStr (c : FailCode) (s : State) : (failReceive c s).rxStr = .default := rfl
@[simp] theorem failReceive_binRxDesc (c : FailCode) (s : State) : (failReceive c s).binRxDesc = s.binRxDesc := rfl
@[simp] theorem failReceive_binTxDesc (c : FailCode) (s : State) : (failReceive c s).binTxDesc = s.binTxDesc := rfl
@[simp] theorem failReceive_txText (c : FailCode) (s : State) : (failReceive c s).txText = s.txText := rfl
@[simp] theorem failReceive_txStr (c : FailCode) (s : State) : (failReceive c s).txStr = s.txStr := rfl
@[simp] theorem failReceive_hostMem (c : FailCode) (s : State) : (failReceive c s).hostMem = s.hostMem := rfl
@[simp] theorem failReceive_rxFifo (c : FailCode) (s : State) : (failReceive c s).rxFifo = s.rxFifo := rfl
@[simp] theorem failReceive_txOut (c : FailCode) (s : State) : (failReceive c s).txOut = s.txOut := rfl
@[simp] theorem failReceive_now (c : FailCode) (s : State) : (failReceive c s).now = s.now := rfl
@[simp] theorem failReceive_port (c : FailCode) (s : State) : (failReceive c s).port = s.port := rfl
@[simp] theorem failReceive_schedule (c : FailCode) (s : State) : (failReceive c s).schedule = s.schedule := rfl

/-! ## finishReceive -/

@[simp] theorem finishReceive_config (k : MessageKind) (s : State) : (finishReceive k s).config = s.config := rfl
@[simp] theorem finishReceive_phase (k : MessageKind) (s : State) : (finishReceive k s).phase = .idle := rfl
@[simp] theorem finishReceive_resKind (k : MessageKind) (s : State) : (finishReceive k s).resKind = k := rfl
@[simp] theorem finishReceive_resOk (k : MessageKind) (s : State) : (finishReceive k s).resOk = s.resOk := rfl
@[simp] theorem finishReceive_resValue (k : MessageKind) (s : State) : (finishReceive k s).resValue = s.resValue := rfl
@[simp] theorem finishReceive_lastFail (k : MessageKind) (s : State) : (finishReceive k s).lastFail = .none := rfl
@[simp] theorem finishReceive_csA (k : MessageKind) (s : State) : (finishReceive k s).csA = s.csA := rfl
@[simp] theorem finishReceive_csB (k : MessageKind) (s : State) : (finishReceive k s).csB = s.csB := rfl
@[simp] theorem finishReceive_deadline (k : MessageKind) (s : State) : (finishReceive k s).deadline = s.deadline := rfl
@[simp] theorem finishReceive_rxCursor (k : MessageKind) (s : State) : (finishReceive k s).rxCursor = s.rxCursor := rfl
@[simp] theorem finishReceive_rxAscii (k : MessageKind) (s : State) : (finishReceive k s).rxAscii = s.rxAscii := rfl
@[simp] theorem finishReceive_rxAck (k : MessageKind) (s : State) : (finishReceive k s).rxAck = s.rxAck := rfl
@[simp] theorem finishReceive_rxBin (k : MessageKind) (s : State) : (finishReceive k s).rxBin = s.rxBin := rfl
@[simp] theorem finishReceive_rxStr (k : MessageKind) (s : State) : (finishReceive k s).rxStr = s.rxStr := rfl
@[simp] theorem finishReceive_binRxDesc (k : MessageKind) (s : State) : (finishReceive k s).binRxDesc = s.binRxDesc := rfl
@[simp] theorem finishReceive_binTxDesc (k : MessageKind) (s : State) : (finishReceive k s).binTxDesc = s.binTxDesc := rfl
@[simp] theorem finishReceive_txText (k : MessageKind) (s : State) : (finishReceive k s).txText = s.txText := rfl
@[simp] theorem finishReceive_txStr (k : MessageKind) (s : State) : (finishReceive k s).txStr = s.txStr := rfl
@[simp] theorem finishReceive_hostMem (k : MessageKind) (s : State) : (finishReceive k s).hostMem = s.hostMem := rfl
@[simp] theorem finishReceive_rxFifo (k : MessageKind) (s : State) : (finishReceive k s).rxFifo = s.rxFifo := rfl
@[simp] theorem finishReceive_txOut (k : MessageKind) (s : State) : (finishReceive k s).txOut = s.txOut := rfl
@[simp] theorem finishReceive_now (k : MessageKind) (s : State) : (finishReceive k s).now = s.now := rfl
@[simp] theorem finishReceive_port (k : MessageKind) (s : State) : (finishReceive k s).port = s.port := rfl
@[simp] theorem finishReceive_schedule (k : MessageKind) (s : State) : (finishReceive k s).schedule = s.schedule := rfl

/-! ## enterFault -/

@[simp] theorem enterFault_config (r : Fault) (s : State) : (enterFault r s).config = s.config := rfl
@[simp] theorem enterFault_phase (r : Fault) (s : State) : (enterFault r s).phase = .faulted r := rfl
@[simp] theorem enterFault_resKind (r : Fault) (s : State) : (enterFault r s).resKind = s.resKind := rfl
@[simp] theorem enterFault_resOk (r : Fault) (s : State) : (enterFault r s).resOk = s.resOk := rfl
@[simp] theorem enterFault_resValue (r : Fault) (s : State) : (enterFault r s).resValue = s.resValue := rfl
@[simp] theorem enterFault_lastFail (r : Fault) (s : State) : (enterFault r s).lastFail = s.lastFail := rfl
@[simp] theorem enterFault_csA (r : Fault) (s : State) : (enterFault r s).csA = s.csA := rfl
@[simp] theorem enterFault_csB (r : Fault) (s : State) : (enterFault r s).csB = s.csB := rfl
@[simp] theorem enterFault_deadline (r : Fault) (s : State) : (enterFault r s).deadline = s.deadline := rfl
@[simp] theorem enterFault_rxCursor (r : Fault) (s : State) : (enterFault r s).rxCursor = s.rxCursor := rfl
@[simp] theorem enterFault_rxAscii (r : Fault) (s : State) : (enterFault r s).rxAscii = s.rxAscii := rfl
@[simp] theorem enterFault_rxAck (r : Fault) (s : State) : (enterFault r s).rxAck = s.rxAck := rfl
@[simp] theorem enterFault_rxBin (r : Fault) (s : State) : (enterFault r s).rxBin = s.rxBin := rfl
@[simp] theorem enterFault_rxStr (r : Fault) (s : State) : (enterFault r s).rxStr = s.rxStr := rfl
@[simp] theorem enterFault_binRxDesc (r : Fault) (s : State) : (enterFault r s).binRxDesc = s.binRxDesc := rfl
@[simp] theorem enterFault_binTxDesc (r : Fault) (s : State) : (enterFault r s).binTxDesc = s.binTxDesc := rfl
@[simp] theorem enterFault_txText (r : Fault) (s : State) : (enterFault r s).txText = s.txText := rfl
@[simp] theorem enterFault_txStr (r : Fault) (s : State) : (enterFault r s).txStr = s.txStr := rfl
@[simp] theorem enterFault_hostMem (r : Fault) (s : State) : (enterFault r s).hostMem = s.hostMem := rfl
@[simp] theorem enterFault_rxFifo (r : Fault) (s : State) : (enterFault r s).rxFifo = s.rxFifo := rfl
@[simp] theorem enterFault_txOut (r : Fault) (s : State) : (enterFault r s).txOut = s.txOut := rfl
@[simp] theorem enterFault_now (r : Fault) (s : State) : (enterFault r s).now = s.now := rfl
@[simp] theorem enterFault_port (r : Fault) (s : State) : (enterFault r s).port = s.port := rfl
@[simp] theorem enterFault_schedule (r : Fault) (s : State) : (enterFault r s).schedule = s.schedule := rfl

/-! ## rxDiscard -/

@[simp] theorem rxDiscard_config (s : State) : (rxDiscard s).config = s.config := rfl
@[simp] theorem rxDiscard_phase (s : State) : (rxDiscard s).phase = s.phase := rfl
@[simp] theorem rxDiscard_resKind (s : State) : (rxDiscard s).resKind = s.resKind := rfl
@[simp] theorem rxDiscard_resOk (s : State) : (rxDiscard s).resOk = s.resOk := rfl
@[simp] theorem rxDiscard_resValue (s : State) : (rxDiscard s).resValue = s.resValue := rfl
@[simp] theorem rxDiscard_lastFail (s : State) : (rxDiscard s).lastFail = s.lastFail := rfl
@[simp] theorem rxDiscard_csA (s : State) : (rxDiscard s).csA = s.csA := rfl
@[simp] theorem rxDiscard_csB (s : State) : (rxDiscard s).csB = s.csB := rfl
@[simp] theorem rxDiscard_deadline (s : State) : (rxDiscard s).deadline = s.deadline := rfl
@[simp] theorem rxDiscard_rxCursor (s : State) : (rxDiscard s).rxCursor = s.rxCursor := rfl
@[simp] theorem rxDiscard_rxAscii (s : State) : (rxDiscard s).rxAscii = s.rxAscii := rfl
@[simp] theorem rxDiscard_rxAck (s : State) : (rxDiscard s).rxAck = s.rxAck := rfl
@[simp] theorem rxDiscard_rxBin (s : State) : (rxDiscard s).rxBin = s.rxBin := rfl
@[simp] theorem rxDiscard_rxStr (s : State) : (rxDiscard s).rxStr = s.rxStr := rfl
@[simp] theorem rxDiscard_binRxDesc (s : State) : (rxDiscard s).binRxDesc = s.binRxDesc := rfl
@[simp] theorem rxDiscard_binTxDesc (s : State) : (rxDiscard s).binTxDesc = s.binTxDesc := rfl
@[simp] theorem rxDiscard_txText (s : State) : (rxDiscard s).txText = s.txText := rfl
@[simp] theorem rxDiscard_txStr (s : State) : (rxDiscard s).txStr = s.txStr := rfl
@[simp] theorem rxDiscard_hostMem (s : State) : (rxDiscard s).hostMem = s.hostMem := rfl
@[simp] theorem rxDiscard_rxFifo (s : State) : (rxDiscard s).rxFifo = [] := rfl
@[simp] theorem rxDiscard_txOut (s : State) : (rxDiscard s).txOut = s.txOut := rfl
@[simp] theorem rxDiscard_now (s : State) : (rxDiscard s).now = s.now := rfl
@[simp] theorem rxDiscard_port (s : State) : (rxDiscard s).port = s.port := rfl
@[simp] theorem rxDiscard_schedule (s : State) : (rxDiscard s).schedule = s.schedule := rfl

/-! ## txPutSeq -/

@[simp] theorem txPutSeq_config (bs : List Byte) (s : State) : (txPutSeq bs s).config = s.config := rfl
@[simp] theorem txPutSeq_phase (bs : List Byte) (s : State) : (txPutSeq bs s).phase = s.phase := rfl
@[simp] theorem txPutSeq_resKind (bs : List Byte) (s : State) : (txPutSeq bs s).resKind = s.resKind := rfl
@[simp] theorem txPutSeq_resOk (bs : List Byte) (s : State) : (txPutSeq bs s).resOk = s.resOk := rfl
@[simp] theorem txPutSeq_resValue (bs : List Byte) (s : State) : (txPutSeq bs s).resValue = s.resValue := rfl
@[simp] theorem txPutSeq_lastFail (bs : List Byte) (s : State) : (txPutSeq bs s).lastFail = s.lastFail := rfl
@[simp] theorem txPutSeq_csA (bs : List Byte) (s : State) : (txPutSeq bs s).csA = s.csA := rfl
@[simp] theorem txPutSeq_csB (bs : List Byte) (s : State) : (txPutSeq bs s).csB = s.csB := rfl
@[simp] theorem txPutSeq_deadline (bs : List Byte) (s : State) : (txPutSeq bs s).deadline = s.deadline := rfl
@[simp] theorem txPutSeq_rxCursor (bs : List Byte) (s : State) : (txPutSeq bs s).rxCursor = s.rxCursor := rfl
@[simp] theorem txPutSeq_rxAscii (bs : List Byte) (s : State) : (txPutSeq bs s).rxAscii = s.rxAscii := rfl
@[simp] theorem txPutSeq_rxAck (bs : List Byte) (s : State) : (txPutSeq bs s).rxAck = s.rxAck := rfl
@[simp] theorem txPutSeq_rxBin (bs : List Byte) (s : State) : (txPutSeq bs s).rxBin = s.rxBin := rfl
@[simp] theorem txPutSeq_rxStr (bs : List Byte) (s : State) : (txPutSeq bs s).rxStr = s.rxStr := rfl
@[simp] theorem txPutSeq_binRxDesc (bs : List Byte) (s : State) : (txPutSeq bs s).binRxDesc = s.binRxDesc := rfl
@[simp] theorem txPutSeq_binTxDesc (bs : List Byte) (s : State) : (txPutSeq bs s).binTxDesc = s.binTxDesc := rfl
@[simp] theorem txPutSeq_txText (bs : List Byte) (s : State) : (txPutSeq bs s).txText = s.txText := rfl
@[simp] theorem txPutSeq_txStr (bs : List Byte) (s : State) : (txPutSeq bs s).txStr = s.txStr := rfl
@[simp] theorem txPutSeq_hostMem (bs : List Byte) (s : State) : (txPutSeq bs s).hostMem = s.hostMem := rfl
@[simp] theorem txPutSeq_rxFifo (bs : List Byte) (s : State) : (txPutSeq bs s).rxFifo = s.rxFifo := rfl
@[simp] theorem txPutSeq_txOut (bs : List Byte) (s : State) : (txPutSeq bs s).txOut = s.txOut ++ bs := rfl
@[simp] theorem txPutSeq_now (bs : List Byte) (s : State) : (txPutSeq bs s).now = s.now := rfl
@[simp] theorem txPutSeq_port (bs : List Byte) (s : State) : (txPutSeq bs s).port = s.port := rfl
@[simp] theorem txPutSeq_schedule (bs : List Byte) (s : State) : (txPutSeq bs s).schedule = s.schedule := rfl

/-! ## armDeadline -/

@[simp] theorem armDeadline_config (s : State) : (armDeadline s).config = s.config := rfl
@[simp] theorem armDeadline_phase (s : State) : (armDeadline s).phase = s.phase := rfl
@[simp] theorem armDeadline_resKind (s : State) : (armDeadline s).resKind = s.resKind := rfl
@[simp] theorem armDeadline_resOk (s : State) : (armDeadline s).resOk = s.resOk := rfl
@[simp] theorem armDeadline_resValue (s : State) : (armDeadline s).resValue = s.resValue := rfl
@[simp] theorem armDeadline_lastFail (s : State) : (armDeadline s).lastFail = s.lastFail := rfl
@[simp] theorem armDeadline_csA (s : State) : (armDeadline s).csA = s.csA := rfl
@[simp] theorem armDeadline_csB (s : State) : (armDeadline s).csB = s.csB := rfl
@[simp] theorem armDeadline_deadline (s : State) : (armDeadline s).deadline = s.now + BitVec.ofNat 32 s.config.baseTimeoutMs := rfl
@[simp] theorem armDeadline_rxCursor (s : State) : (armDeadline s).rxCursor = s.rxCursor := rfl
@[simp] theorem armDeadline_rxAscii (s : State) : (armDeadline s).rxAscii = s.rxAscii := rfl
@[simp] theorem armDeadline_rxAck (s : State) : (armDeadline s).rxAck = s.rxAck := rfl
@[simp] theorem armDeadline_rxBin (s : State) : (armDeadline s).rxBin = s.rxBin := rfl
@[simp] theorem armDeadline_rxStr (s : State) : (armDeadline s).rxStr = s.rxStr := rfl
@[simp] theorem armDeadline_binRxDesc (s : State) : (armDeadline s).binRxDesc = s.binRxDesc := rfl
@[simp] theorem armDeadline_binTxDesc (s : State) : (armDeadline s).binTxDesc = s.binTxDesc := rfl
@[simp] theorem armDeadline_txText (s : State) : (armDeadline s).txText = s.txText := rfl
@[simp] theorem armDeadline_txStr (s : State) : (armDeadline s).txStr = s.txStr := rfl
@[simp] theorem armDeadline_hostMem (s : State) : (armDeadline s).hostMem = s.hostMem := rfl
@[simp] theorem armDeadline_rxFifo (s : State) : (armDeadline s).rxFifo = s.rxFifo := rfl
@[simp] theorem armDeadline_txOut (s : State) : (armDeadline s).txOut = s.txOut := rfl
@[simp] theorem armDeadline_now (s : State) : (armDeadline s).now = s.now := rfl
@[simp] theorem armDeadline_port (s : State) : (armDeadline s).port = s.port := rfl
@[simp] theorem armDeadline_schedule (s : State) : (armDeadline s).schedule = s.schedule := rfl

/-! ## extendDeadline -/

@[simp] theorem extendDeadline_config (s : State) : (extendDeadline s).config = s.config := rfl
@[simp] theorem extendDeadline_phase (s : State) : (extendDeadline s).phase = s.phase := rfl
@[simp] theorem extendDeadline_resKind (s : State) : (extendDeadline s).resKind = s.resKind := rfl
@[simp] theorem extendDeadline_resOk (s : State) : (extendDeadline s).resOk = s.resOk := rfl
@[simp] theorem extendDeadline_resValue (s : State) : (extendDeadline s).resValue = s.resValue := rfl
@[simp] theorem extendDeadline_lastFail (s : State) : (extendDeadline s).lastFail = s.lastFail := rfl
@[simp] theorem extendDeadline_csA (s : State) : (extendDeadline s).csA = s.csA := rfl
@[simp] theorem extendDeadline_csB (s : State) : (extendDeadline s).csB = s.csB := rfl
@[simp] theorem extendDeadline_deadline (s : State) : (extendDeadline s).deadline = s.deadline + BitVec.ofNat 32 s.config.binaryExtMs := rfl
@[simp] theorem extendDeadline_rxCursor (s : State) : (extendDeadline s).rxCursor = s.rxCursor := rfl
@[simp] theorem extendDeadline_rxAscii (s : State) : (extendDeadline s).rxAscii = s.rxAscii := rfl
@[simp] theorem extendDeadline_rxAck (s : State) : (extendDeadline s).rxAck = s.rxAck := rfl
@[simp] theorem extendDeadline_rxBin (s : State) : (extendDeadline s).rxBin = s.rxBin := rfl
@[simp] theorem extendDeadline_rxStr (s : State) : (extendDeadline s).rxStr = s.rxStr := rfl
@[simp] theorem extendDeadline_binRxDesc (s : State) : (extendDeadline s).binRxDesc = s.binRxDesc := rfl
@[simp] theorem extendDeadline_binTxDesc (s : State) : (extendDeadline s).binTxDesc = s.binTxDesc := rfl
@[simp] theorem extendDeadline_txText (s : State) : (extendDeadline s).txText = s.txText := rfl
@[simp] theorem extendDeadline_txStr (s : State) : (extendDeadline s).txStr = s.txStr := rfl
@[simp] theorem extendDeadline_hostMem (s : State) : (extendDeadline s).hostMem = s.hostMem := rfl
@[simp] theorem extendDeadline_rxFifo (s : State) : (extendDeadline s).rxFifo = s.rxFifo := rfl
@[simp] theorem extendDeadline_txOut (s : State) : (extendDeadline s).txOut = s.txOut := rfl
@[simp] theorem extendDeadline_now (s : State) : (extendDeadline s).now = s.now := rfl
@[simp] theorem extendDeadline_port (s : State) : (extendDeadline s).port = s.port := rfl
@[simp] theorem extendDeadline_schedule (s : State) : (extendDeadline s).schedule = s.schedule := rfl

/-! ## linkArrive -/

@[simp] theorem linkArrive_config (b : Byte) (s : State) : (linkArrive b s).config = s.config := rfl
@[simp] theorem linkArrive_phase (b : Byte) (s : State) : (linkArrive b s).phase = s.phase := rfl
@[simp] theorem linkArrive_resKind (b : Byte) (s : State) : (linkArrive b s).resKind = s.resKind := rfl
@[simp] theorem linkArrive_resOk (b : Byte) (s : State) : (linkArrive b s).resOk = s.resOk := rfl
@[simp] theorem linkArrive_resValue (b : Byte) (s : State) : (linkArrive b s).resValue = s.resValue := rfl
@[simp] theorem linkArrive_lastFail (b : Byte) (s : State) : (linkArrive b s).lastFail = s.lastFail := rfl
@[simp] theorem linkArrive_csA (b : Byte) (s : State) : (linkArrive b s).csA = s.csA := rfl
@[simp] theorem linkArrive_csB (b : Byte) (s : State) : (linkArrive b s).csB = s.csB := rfl
@[simp] theorem linkArrive_deadline (b : Byte) (s : State) : (linkArrive b s).deadline = s.deadline := rfl
@[simp] theorem linkArrive_rxCursor (b : Byte) (s : State) : (linkArrive b s).rxCursor = s.rxCursor := rfl
@[simp] theorem linkArrive_rxAscii (b : Byte) (s : State) : (linkArrive b s).rxAscii = s.rxAscii := rfl
@[simp] theorem linkArrive_rxAck (b : Byte) (s : State) : (linkArrive b s).rxAck = s.rxAck := rfl
@[simp] theorem linkArrive_rxBin (b : Byte) (s : State) : (linkArrive b s).rxBin = s.rxBin := rfl
@[simp] theorem linkArrive_rxStr (b : Byte) (s : State) : (linkArrive b s).rxStr = s.rxStr := rfl
@[simp] theorem linkArrive_binRxDesc (b : Byte) (s : State) : (linkArrive b s).binRxDesc = s.binRxDesc := rfl
@[simp] theorem linkArrive_binTxDesc (b : Byte) (s : State) : (linkArrive b s).binTxDesc = s.binTxDesc := rfl
@[simp] theorem linkArrive_txText (b : Byte) (s : State) : (linkArrive b s).txText = s.txText := rfl
@[simp] theorem linkArrive_txStr (b : Byte) (s : State) : (linkArrive b s).txStr = s.txStr := rfl
@[simp] theorem linkArrive_hostMem (b : Byte) (s : State) : (linkArrive b s).hostMem = s.hostMem := rfl
@[simp] theorem linkArrive_rxFifo (b : Byte) (s : State) : (linkArrive b s).rxFifo = s.rxFifo ++ [b] := rfl
@[simp] theorem linkArrive_txOut (b : Byte) (s : State) : (linkArrive b s).txOut = s.txOut := rfl
@[simp] theorem linkArrive_now (b : Byte) (s : State) : (linkArrive b s).now = s.now := rfl
@[simp] theorem linkArrive_port (b : Byte) (s : State) : (linkArrive b s).port = s.port := rfl
@[simp] theorem linkArrive_schedule (b : Byte) (s : State) : (linkArrive b s).schedule = s.schedule := rfl

/-! ## linkTick -/

@[simp] theorem linkTick_config (s : State) : (linkTick s).config = s.config := rfl
@[simp] theorem linkTick_phase (s : State) : (linkTick s).phase = s.phase := rfl
@[simp] theorem linkTick_resKind (s : State) : (linkTick s).resKind = s.resKind := rfl
@[simp] theorem linkTick_resOk (s : State) : (linkTick s).resOk = s.resOk := rfl
@[simp] theorem linkTick_resValue (s : State) : (linkTick s).resValue = s.resValue := rfl
@[simp] theorem linkTick_lastFail (s : State) : (linkTick s).lastFail = s.lastFail := rfl
@[simp] theorem linkTick_csA (s : State) : (linkTick s).csA = s.csA := rfl
@[simp] theorem linkTick_csB (s : State) : (linkTick s).csB = s.csB := rfl
@[simp] theorem linkTick_deadline (s : State) : (linkTick s).deadline = s.deadline := rfl
@[simp] theorem linkTick_rxCursor (s : State) : (linkTick s).rxCursor = s.rxCursor := rfl
@[simp] theorem linkTick_rxAscii (s : State) : (linkTick s).rxAscii = s.rxAscii := rfl
@[simp] theorem linkTick_rxAck (s : State) : (linkTick s).rxAck = s.rxAck := rfl
@[simp] theorem linkTick_rxBin (s : State) : (linkTick s).rxBin = s.rxBin := rfl
@[simp] theorem linkTick_rxStr (s : State) : (linkTick s).rxStr = s.rxStr := rfl
@[simp] theorem linkTick_binRxDesc (s : State) : (linkTick s).binRxDesc = s.binRxDesc := rfl
@[simp] theorem linkTick_binTxDesc (s : State) : (linkTick s).binTxDesc = s.binTxDesc := rfl
@[simp] theorem linkTick_txText (s : State) : (linkTick s).txText = s.txText := rfl
@[simp] theorem linkTick_txStr (s : State) : (linkTick s).txStr = s.txStr := rfl
@[simp] theorem linkTick_hostMem (s : State) : (linkTick s).hostMem = s.hostMem := rfl
@[simp] theorem linkTick_rxFifo (s : State) : (linkTick s).rxFifo = s.rxFifo := rfl
@[simp] theorem linkTick_txOut (s : State) : (linkTick s).txOut = s.txOut := rfl
@[simp] theorem linkTick_now (s : State) : (linkTick s).now = s.now + 1#32 := rfl
@[simp] theorem linkTick_port (s : State) : (linkTick s).port = s.port := rfl
@[simp] theorem linkTick_schedule (s : State) : (linkTick s).schedule = s.schedule := rfl

/-! ## awaitAt -/

@[simp] theorem awaitAt_config (k : ReceiveAt) (s : State) : (awaitAt k s).config = s.config := rfl
@[simp] theorem awaitAt_phase (k : ReceiveAt) (s : State) : (awaitAt k s).phase = .busy k := rfl
@[simp] theorem awaitAt_resKind (k : ReceiveAt) (s : State) : (awaitAt k s).resKind = s.resKind := rfl
@[simp] theorem awaitAt_resOk (k : ReceiveAt) (s : State) : (awaitAt k s).resOk = s.resOk := rfl
@[simp] theorem awaitAt_resValue (k : ReceiveAt) (s : State) : (awaitAt k s).resValue = s.resValue := rfl
@[simp] theorem awaitAt_lastFail (k : ReceiveAt) (s : State) : (awaitAt k s).lastFail = s.lastFail := rfl
@[simp] theorem awaitAt_csA (k : ReceiveAt) (s : State) : (awaitAt k s).csA = s.csA := rfl
@[simp] theorem awaitAt_csB (k : ReceiveAt) (s : State) : (awaitAt k s).csB = s.csB := rfl
@[simp] theorem awaitAt_deadline (k : ReceiveAt) (s : State) : (awaitAt k s).deadline = s.deadline := rfl
@[simp] theorem awaitAt_rxCursor (k : ReceiveAt) (s : State) : (awaitAt k s).rxCursor = s.rxCursor := rfl
@[simp] theorem awaitAt_rxAscii (k : ReceiveAt) (s : State) : (awaitAt k s).rxAscii = s.rxAscii := rfl
@[simp] theorem awaitAt_rxAck (k : ReceiveAt) (s : State) : (awaitAt k s).rxAck = s.rxAck := rfl
@[simp] theorem awaitAt_rxBin (k : ReceiveAt) (s : State) : (awaitAt k s).rxBin = s.rxBin := rfl
@[simp] theorem awaitAt_rxStr (k : ReceiveAt) (s : State) : (awaitAt k s).rxStr = s.rxStr := rfl
@[simp] theorem awaitAt_binRxDesc (k : ReceiveAt) (s : State) : (awaitAt k s).binRxDesc = s.binRxDesc := rfl
@[simp] theorem awaitAt_binTxDesc (k : ReceiveAt) (s : State) : (awaitAt k s).binTxDesc = s.binTxDesc := rfl
@[simp] theorem awaitAt_txText (k : ReceiveAt) (s : State) : (awaitAt k s).txText = s.txText := rfl
@[simp] theorem awaitAt_txStr (k : ReceiveAt) (s : State) : (awaitAt k s).txStr = s.txStr := rfl
@[simp] theorem awaitAt_hostMem (k : ReceiveAt) (s : State) : (awaitAt k s).hostMem = s.hostMem := rfl
@[simp] theorem awaitAt_rxFifo (k : ReceiveAt) (s : State) : (awaitAt k s).rxFifo = s.rxFifo := rfl
@[simp] theorem awaitAt_txOut (k : ReceiveAt) (s : State) : (awaitAt k s).txOut = s.txOut := rfl
@[simp] theorem awaitAt_now (k : ReceiveAt) (s : State) : (awaitAt k s).now = s.now := rfl
@[simp] theorem awaitAt_port (k : ReceiveAt) (s : State) : (awaitAt k s).port = s.port := rfl
@[simp] theorem awaitAt_schedule (k : ReceiveAt) (s : State) : (awaitAt k s).schedule = s.schedule := rfl

end Sys2Proof.Machine
end

