-- ==== Sys2Proof/Laws/Memory.lean ====
section
/-! SUPPORT. Host memory: read after write, the canonical form, and what each sequence operation can do. -/

namespace Sys2Proof.Machine

/-! ## One byte -/

@[simp] theorem Memory.get_nil (a : Nat) : Memory.get [] a = unlistedByte := rfl

theorem Memory.get_cons (c : Host.Cell) (m : Memory) (a : Nat) :
    Memory.get (c :: m) a = if c.1 = a then c.2 else Memory.get m a := rfl

/-- An address below every listed one is unlisted. -/
theorem Memory.get_of_lt (m : Memory) (a : Nat) (h : ∀ c ∈ m, a < c.1) : m.get a = unlistedByte := by
  induction m with
  | nil => rfl
  | cons c m ih =>
    have hc := h c (by simp)
    rw [Memory.get_cons, if_neg (by omega)]
    exact ih fun d hd => h d (by simp [hd])

theorem Memory.mem_erase_of (m : Memory) (a : Nat) (c : Host.Cell) (h : c ∈ m.erase a) : c ∈ m := by
  induction m with
  | nil => exact h
  | cons d m ih =>
    unfold Memory.erase at h
    split at h
    · exact List.mem_cons_of_mem _ h
    · rcases List.mem_cons.1 h with rfl | h
      · exact List.mem_cons_self
      · exact List.mem_cons_of_mem _ (ih h)

theorem Memory.mem_insert_of (m : Memory) (a : Nat) (v : Byte) (c : Host.Cell) (h : c ∈ m.insert a v) :
    c = (a, v) ∨ c ∈ m := by
  induction m with
  | nil => simpa [Memory.insert] using h
  | cons d m ih =>
    unfold Memory.insert at h
    split at h
    · simpa using h
    · split at h
      · rcases List.mem_cons.1 h with h | h
        · exact .inl h
        · exact .inr (List.mem_cons_of_mem _ h)
      · rcases List.mem_cons.1 h with rfl | h
        · exact .inr List.mem_cons_self
        · rcases ih h with h | h
          · exact .inl h
          · exact .inr (List.mem_cons_of_mem _ h)

theorem Memory.erase_wf (m : Memory) (a : Nat) (h : m.wf) : (m.erase a).wf := by
  refine ⟨?_, fun c hc => h.2 c (Memory.mem_erase_of m a c hc)⟩
  induction m with
  | nil => exact .nil
  | cons d m ih =>
    have hp := List.pairwise_cons.1 h.1
    unfold Memory.erase
    split
    · exact hp.2
    · refine List.pairwise_cons.2 ⟨fun c hc => hp.1 c (Memory.mem_erase_of m a c hc), ih ⟨hp.2, fun c hc => ?_⟩⟩
      exact h.2 c (List.mem_cons_of_mem _ hc)

theorem Memory.insert_wf (m : Memory) (a : Nat) (v : Byte) (h : m.wf) (hv : v ≠ unlistedByte) :
    (m.insert a v).wf := by
  refine ⟨?_, fun c hc => ?_⟩
  · induction m with
    | nil => simp [Memory.insert]
    | cons d m ih =>
      have hp := List.pairwise_cons.1 h.1
      unfold Memory.insert
      split
      · rename_i hlt
        refine List.pairwise_cons.2 ⟨fun c hc => ?_, h.1⟩
        rcases List.mem_cons.1 hc with rfl | hc
        · exact hlt
        · exact Nat.lt_trans hlt (hp.1 c hc)
      · split
        · rename_i heq
          exact List.pairwise_cons.2 ⟨fun c hc => heq ▸ hp.1 c hc, hp.2⟩
        · refine List.pairwise_cons.2 ⟨fun c hc => ?_, ih ⟨hp.2, fun c hc => h.2 c (List.mem_cons_of_mem _ hc)⟩⟩
          rcases Memory.mem_insert_of m a v c hc with rfl | hc
          · show d.1 < a
            omega
          · exact hp.1 c hc
  · rcases Memory.mem_insert_of m a v c hc with rfl | hc
    · exact hv
    · exact h.2 c hc

/-- A write keeps the canonical form. -/
theorem Memory.set_wf (m : Memory) (a : Nat) (v : Byte) (h : m.wf) : (m.set a v).wf := by
  unfold Memory.set
  split
  · exact Memory.erase_wf m a h
  · exact Memory.insert_wf m a v h ‹_›

theorem Memory.get_erase (m : Memory) (a b : Nat) (h : m.wf) :
    (m.erase a).get b = if a = b then unlistedByte else m.get b := by
  induction m with
  | nil => simp [Memory.erase]
  | cons d m ih =>
    have hp := List.pairwise_cons.1 h.1
    have ih := ih ⟨hp.2, fun c hc => h.2 c (List.mem_cons_of_mem _ hc)⟩
    unfold Memory.erase
    split
    · rename_i hd
      subst hd
      rw [Memory.get_cons]
      split
      · rename_i hb
        subst hb
        exact Memory.get_of_lt m _ hp.1
      · rfl
    · rename_i hd
      rw [Memory.get_cons, Memory.get_cons, ih]
      split
      · rename_i hb
        rw [if_neg (by omega)]
      · rfl

theorem Memory.get_insert (m : Memory) (a b : Nat) (v : Byte) (h : m.wf) :
    (m.insert a v).get b = if a = b then v else m.get b := by
  induction m with
  | nil => simp [Memory.insert, Memory.get_cons]
  | cons d m ih =>
    have hp := List.pairwise_cons.1 h.1
    have ih := ih ⟨hp.2, fun c hc => h.2 c (List.mem_cons_of_mem _ hc)⟩
    unfold Memory.insert
    split
    · rw [Memory.get_cons]
    · split
      · rename_i hd
        subst hd
        simp only [Memory.get_cons]
        split <;> rfl
      · rename_i hd
        simp only [Memory.get_cons, ih]
        split
        · rename_i hb
          rw [if_neg (by omega)]
        · rfl

/-- A read after a write: the byte written at its address, every other byte as before. -/
theorem Memory.get_set (m : Memory) (a b : Nat) (v : Byte) (h : m.wf) :
    (m.set a v).get b = if a = b then v else m.get b := by
  unfold Memory.set
  split
  · rename_i hv
    rw [Memory.get_erase m a b h, hv]
  · exact Memory.get_insert m a b v h

/-- A write lists no address but its own. -/
theorem Memory.mem_set_of (m : Memory) (a : Nat) (v : Byte) (c : Host.Cell) (h : c ∈ m.set a v) :
    c.1 = a ∨ c ∈ m := by
  unfold Memory.set at h
  split at h
  · exact .inr (Memory.mem_erase_of m a c h)
  · rcases Memory.mem_insert_of m a v c h with rfl | h
    · exact .inl rfl
    · exact .inr h

/-! ## Sequences of bytes -/

theorem Memory.setSeq_wf (bs : List Byte) (m : Memory) (a : Nat) (h : m.wf) : (m.setSeq a bs).wf := by
  induction bs generalizing m a with
  | nil => exact h
  | cons v vs ih => exact ih _ _ (Memory.set_wf m a v h)

/-- A read after a sequence of writes. -/
theorem Memory.get_setSeq (bs : List Byte) (m : Memory) (a b : Nat) (h : m.wf) :
    (m.setSeq a bs).get b = if a ≤ b then (bs[b - a]?).getD (m.get b) else m.get b := by
  induction bs generalizing m a with
  | nil => simp [Memory.setSeq]
  | cons v vs ih =>
    rw [Memory.setSeq, ih _ _ (Memory.set_wf m a v h), Memory.get_set m a b v h]
    by_cases h1 : a = b
    · subst h1
      simp
    · by_cases h2 : a ≤ b
      · obtain ⟨n, rfl⟩ : ∃ n, b = a + 1 + n := ⟨b - a - 1, by omega⟩
        have : a + 1 + n - a = n + 1 := by omega
        simp [h1, this, show a ≤ a + 1 + n by omega]
      · simp [h1, h2, show ¬ a + 1 ≤ b by omega]

theorem Memory.mem_setSeq_of (bs : List Byte) (m : Memory) (a : Nat) (c : Host.Cell) (h : c ∈ m.setSeq a bs) :
    (a ≤ c.1 ∧ c.1 < a + bs.length) ∨ c ∈ m := by
  induction bs generalizing m a with
  | nil => exact .inr h
  | cons v vs ih =>
    rcases ih _ _ h with h | h
    · left
      simp only [List.length_cons]
      omega
    · rcases Memory.mem_set_of m a v c h with h | h
      · left
        simp only [List.length_cons]
        omega
      · exact .inr h

/-- Canonical memories that read alike are equal. -/
theorem Memory.ext_get (m n : Memory) (hm : m.wf) (hn : n.wf) (h : ∀ a, m.get a = n.get a) : m = n := by
  induction m generalizing n with
  | nil =>
    cases n with
    | nil => rfl
    | cons d n =>
      have := h d.1
      rw [Memory.get_cons, if_pos rfl, Memory.get_nil] at this
      exact absurd this.symm (hn.2 d List.mem_cons_self)
  | cons c m ih =>
    have hpm := List.pairwise_cons.1 hm.1
    cases n with
    | nil =>
      have := h c.1
      rw [Memory.get_cons, if_pos rfl, Memory.get_nil] at this
      exact absurd this (hm.2 c List.mem_cons_self)
    | cons d n =>
      have hpn := List.pairwise_cons.1 hn.1
      have hc := h c.1
      have hd := h d.1
      rw [Memory.get_cons, if_pos rfl, Memory.get_cons] at hc
      rw [Memory.get_cons, Memory.get_cons, if_pos rfl] at hd
      have hcd : c.1 = d.1 := by
        rcases Nat.lt_trichotomy c.1 d.1 with hlt | heq | hgt
        · rw [if_neg (by omega), Memory.get_of_lt n c.1 fun e he => Nat.lt_trans hlt (hpn.1 e he)] at hc
          exact absurd hc (hm.2 c List.mem_cons_self)
        · exact heq
        · rw [if_neg (by omega), Memory.get_of_lt m d.1 fun e he => Nat.lt_trans hgt (hpm.1 e he)] at hd
          exact absurd hd.symm (hn.2 d List.mem_cons_self)
      rw [if_pos hcd.symm] at hc
      have hcell : c = d := Prod.ext hcd hc
      subst hcell
      congr 1
      refine ih n ⟨hpm.2, fun e he => hm.2 e (List.mem_cons_of_mem _ he)⟩
        ⟨hpn.2, fun e he => hn.2 e (List.mem_cons_of_mem _ he)⟩ fun a => ?_
      by_cases ha : c.1 = a
      · subst ha
        rw [Memory.get_of_lt m _ hpm.1, Memory.get_of_lt n _ hpn.1]
      · have := h a
        rwa [Memory.get_cons, Memory.get_cons, if_neg ha, if_neg ha] at this

/-! ## The primitives of 20_memory.md R82 -/

theorem memRead_of_lt {s : State} {a : Nat} (h : a < s.config.hostMemSize) :
    memRead s a = .ok (s.hostMem.get a) := by
  unfold memRead
  rw [if_neg (by omega)]

theorem memRead_of_ge {s : State} {a : Nat} (h : s.config.hostMemSize ≤ a) : memRead s a = .error .memRange := by
  unfold memRead
  rw [if_pos h]

theorem memWrite_of_lt {s : State} {a : Nat} (v : Byte) (h : a < s.config.hostMemSize) :
    memWrite a v s = .ok { s with hostMem := s.hostMem.set a v } := by
  unfold memWrite
  rw [if_neg (by omega)]

theorem memWrite_of_ge {s : State} {a : Nat} (v : Byte) (h : s.config.hostMemSize ≤ a) :
    memWrite a v s = .error .memRange := by
  unfold memWrite
  rw [if_pos h]

/-- What a write that succeeds has done. -/
theorem memWrite_ok {s t : State} {a : Nat} {v : Byte} (h : memWrite a v s = .ok t) :
    a < s.config.hostMemSize ∧ t = { s with hostMem := s.hostMem.set a v } := by
  unfold memWrite at h
  split at h
  · exact absurd h (by simp)
  · exact ⟨by omega, (Except.ok.inj h).symm⟩

/-- The bytes from an address on. -/
def bytesAt (m : Memory) : Nat → Nat → List Byte
  | _, 0 => []
  | a, n + 1 => m.get a :: bytesAt m (a + 1) n

@[simp] theorem bytesAt_length (m : Memory) (a n : Nat) : (bytesAt m a n).length = n := by
  induction n generalizing a with
  | zero => rfl
  | succ n ih => simp [bytesAt, ih]

theorem bytesAt_getElem? (m : Memory) (a n i : Nat) (h : i < n) : (bytesAt m a n)[i]? = some (m.get (a + i)) := by
  induction n generalizing a i with
  | zero => omega
  | succ n ih =>
    cases i with
    | zero => simp [bytesAt]
    | succ i =>
      rw [bytesAt, List.getElem?_cons_succ, ih _ _ (by omega)]
      congr 2
      omega

/-- Reads inside memory give its bytes; a read that leaves it faults MEM_RANGE. -/
theorem memReadSeq_eq (s : State) (a n : Nat) :
    memReadSeq s a n =
      if n = 0 ∨ a + n ≤ s.config.hostMemSize then .ok (bytesAt s.hostMem a n) else .error .memRange := by
  induction n generalizing a with
  | zero => simp [memReadSeq, bytesAt]
  | succ n ih =>
    unfold memReadSeq
    by_cases h : a < s.config.hostMemSize
    · rw [memRead_of_lt h]
      simp only [ih]
      by_cases h2 : a + (n + 1) ≤ s.config.hostMemSize
      · rw [if_pos (.inr (by omega)), if_pos (.inr h2)]
        rfl
      · rw [if_neg (by omega), if_neg (by omega)]
    · rw [memRead_of_ge (by omega), if_neg (by omega)]

/-- Writes inside memory store the bytes in order; a write that leaves it faults MEM_RANGE. -/
theorem memWriteSeq_eq (a : Nat) (bs : List Byte) (s : State) :
    memWriteSeq a bs s =
      if bs = [] ∨ a + bs.length ≤ s.config.hostMemSize then .ok { s with hostMem := s.hostMem.setSeq a bs }
      else .error .memRange := by
  induction bs generalizing a s with
  | nil => simp [memWriteSeq, Memory.setSeq]
  | cons b bs ih =>
    unfold memWriteSeq
    by_cases h : a < s.config.hostMemSize
    · rw [memWrite_of_lt b h]
      simp only [ih, Memory.setSeq, List.length_cons, reduceCtorEq, false_or]
      by_cases h2 : a + (bs.length + 1) ≤ s.config.hostMemSize
      · rw [if_pos (.inr (by omega)), if_pos h2]
      · rw [if_neg (by
          rintro (rfl | h3)
          · simp at h2
            omega
          · omega), if_neg h2]
    · rw [memWrite_of_ge b (by omega), if_neg (by simp; omega)]

/-! ## Text in host memory (43_frame_writer.md R248, 44_param_codec.md R279) -/

/-- A text that ends within the room is read whole. -/
theorem readText_of_text (s : State) (room a n : Nat) (hn : n ≤ room) (hs : a + n < s.config.hostMemSize)
    (hb : ∀ i < n, s.hostMem.get (a + i) ≠ chNul) (h0 : s.hostMem.get (a + n) = chNul) :
    readText s room a = .ok (some (bytesAt s.hostMem a n)) := by
  induction n generalizing room a with
  | zero =>
    cases room with
    | zero => simp [readText, memRead_of_lt (show a < s.config.hostMemSize by omega), show s.hostMem.get a = chNul from h0, bytesAt]
    | succ room => simp [readText, memRead_of_lt (show a < s.config.hostMemSize by omega), show s.hostMem.get a = chNul from h0, bytesAt]
  | succ n ih =>
    obtain ⟨room, rfl⟩ : ∃ r, room = r + 1 := ⟨room - 1, by omega⟩
    have hne : s.hostMem.get a ≠ chNul := hb 0 (by omega)
    have := ih room (a + 1) (by omega) (by omega)
      (fun i hi => by have := hb (i + 1) (by omega); rwa [show a + (i + 1) = a + 1 + i by omega] at this)
      (by rwa [show a + 1 + n = a + (n + 1) by omega])
    simp [readText, memRead_of_lt (show a < s.config.hostMemSize by omega), hne, this, bytesAt]

/-- A text longer than the room is read up to the first byte too many. -/
theorem readText_of_long (s : State) (room a : Nat) (hs : a + room < s.config.hostMemSize)
    (hb : ∀ i ≤ room, s.hostMem.get (a + i) ≠ chNul) : readText s room a = .ok none := by
  induction room generalizing a with
  | zero =>
    have hne : s.hostMem.get a ≠ chNul := hb 0 (by omega)
    simp [readText, memRead_of_lt (show a < s.config.hostMemSize by omega), hne]
  | succ room ih =>
    have hne : s.hostMem.get a ≠ chNul := hb 0 (by omega)
    have := ih (a + 1) (by omega)
      (fun i hi => by have := hb (i + 1) (by omega); rwa [show a + (i + 1) = a + 1 + i by omega] at this)
    simp [readText, memRead_of_lt (show a < s.config.hostMemSize by omega), hne, this]

/-- A read that leaves memory before the NUL and before the room is used up faults. -/
theorem readText_of_outside (s : State) (room a n : Nat) (hn : n ≤ room) (hs : s.config.hostMemSize ≤ a + n)
    (hb : ∀ i < n, s.hostMem.get (a + i) ≠ chNul) : readText s room a = .error .memRange := by
  induction n generalizing room a with
  | zero => cases room <;> simp [readText, memRead_of_ge (show s.config.hostMemSize ≤ a by omega)]
  | succ n ih =>
    by_cases h : a < s.config.hostMemSize
    · obtain ⟨room, rfl⟩ : ∃ r, room = r + 1 := ⟨room - 1, by omega⟩
      have hne : s.hostMem.get a ≠ chNul := hb 0 (by omega)
      have := ih room (a + 1) (by omega) (by omega)
        (fun i hi => by have := hb (i + 1) (by omega); rwa [show a + (i + 1) = a + 1 + i by omega] at this)
      simp [readText, memRead_of_lt h, hne, this]
    · cases room <;> simp [readText, memRead_of_ge (show s.config.hostMemSize ≤ a by omega)]

/-- Everything `readText` can answer. -/
theorem readText_cases (s : State) (room a : Nat) :
    readText s room a = .error .memRange ∨ readText s room a = .ok none ∨
      ∃ bs, readText s room a = .ok (some bs) ∧ bs.length ≤ room ∧ chNul ∉ bs := by
  induction room generalizing a with
  | zero =>
    by_cases h : a < s.config.hostMemSize
    · by_cases h0 : s.hostMem.get a = chNul
      · exact .inr (.inr ⟨[], by simp [readText, memRead_of_lt h, h0], by simp, by simp⟩)
      · exact .inr (.inl (by simp [readText, memRead_of_lt h, h0]))
    · exact .inl (by simp [readText, memRead_of_ge (show s.config.hostMemSize ≤ a by omega)])
  | succ room ih =>
    by_cases h : a < s.config.hostMemSize
    · by_cases h0 : s.hostMem.get a = chNul
      · exact .inr (.inr ⟨[], by simp [readText, memRead_of_lt h, h0], by simp, by simp⟩)
      · rcases ih (a + 1) with h1 | h1 | ⟨bs, h1, h2, h3⟩
        · exact .inl (by simp [readText, memRead_of_lt h, h0, h1])
        · exact .inr (.inl (by simp [readText, memRead_of_lt h, h0, h1]))
        · exact .inr (.inr ⟨_, by simp [readText, memRead_of_lt h, h0, h1]; rfl, by simpa using h2,
            by simp [h3]; exact fun h => h0 h.symm⟩)
    · exact .inl (by simp [readText, memRead_of_ge (show s.config.hostMemSize ≤ a by omega)])

end Sys2Proof.Machine
end

