-- ==== Sys2Proof/Laws/Step.lean ====
section
/-! SUPPORT. What one move can do: the four kinds of move, who moves when nothing is scheduled, and what an ENGINE turn
is in each phase. -/

namespace Sys2Proof.Machine

/-- Where the ENGINE moves next, the step is its turn. -/
theorem step_of_engineNext {s u : State} (h : EngineNext s u) : step s = engineTurn u := by
  obtain ⟨hs, ha, rfl⟩ | ⟨rest, hs, rfl⟩ := h
  · simp [step, nextMove, unscheduledTurn, takeTurn, hs, ha]
  · simp [step, nextMove, takeTurn, hs]

/-- An Idle engine with a request presented is not waiting. -/
theorem onlyWaits_of_presented {s : State} (hp : s.phase = .idle) (h : s.port ≠ []) : onlyWaits s = false := by
  simpa [onlyWaits, hp] using h

/-- A RECEIVE with a byte queued is not waiting. -/
theorem onlyWaits_of_queued {s : State} {k : ReceiveAt} (hk : s.phase = .busy k) (h : s.rxFifo ≠ []) :
    onlyWaits s = false := by
  have : rxEmpty s = false := by simpa [rxEmpty] using h
  simp [onlyWaits, hk, this]

/-- A RECEIVE whose deadline has passed is not waiting. -/
theorem onlyWaits_of_expired {s : State} {k : ReceiveAt} (hk : s.phase = .busy k) (h : expired s = true) :
    onlyWaits s = false := by
  simp [onlyWaits, hk, h]

/-- When a RECEIVE only waits. -/
theorem onlyWaits_iff {s : State} {k : ReceiveAt} (hk : s.phase = .busy k) : onlyWaits s = true ↔
    s.rxFifo = [] ∧ expired s = false ∧
      ∀ use acc, k = .field use acc → acc.length ≠ fieldMaxDigits s.config use := by
  cases k <;> simp [onlyWaits, hk, rxEmpty, and_assoc]

/-- Nothing is scheduled: the ENGINE moves next unless it only waits. -/
theorem engineNext_self {s : State} (hs : s.schedule = []) (ha : onlyWaits s = false) : EngineNext s s :=
  .inl ⟨hs, ha, rfl⟩

/-- Where nothing is scheduled and the ENGINE only waits, the clock moves. -/
theorem step_waiting {s : State} (hs : s.schedule = []) (ha : onlyWaits s = true) : step s = .next (linkTick s) := by
  simp [step, nextMove, unscheduledTurn, takeTurn, hs, ha]

theorem step_arrive {s : State} {b : Byte} {rest : List Turn} (h : s.schedule = .arrive b :: rest) :
    step s = .next (linkArrive b { s with schedule := rest }) := by simp [step, nextMove, takeTurn, h]

theorem step_tick {s : State} {rest : List Turn} (h : s.schedule = .tick :: rest) :
    step s = .next (linkTick { s with schedule := rest }) := by simp [step, nextMove, takeTurn, h]

theorem step_reset {s : State} {rest : List Turn} (h : s.schedule = .reset :: rest) :
    step s = .next (applyReset { s with schedule := rest }) := by simp [step, nextMove, takeTurn, h]

/-- Everything a move can be. -/
theorem step_cases {s t : State} (h : step s = .next t) :
    (∃ b rest, s.schedule = .arrive b :: rest ∧ t = linkArrive b { s with schedule := rest }) ∨
    (∃ rest, t = linkTick { s with schedule := rest }) ∨
    (∃ rest, s.schedule = .reset :: rest ∧ t = applyReset { s with schedule := rest }) ∨
    ∃ u, EngineNext s u ∧ engineTurn u = .next t := by
  cases hs : s.schedule with
  | nil =>
    cases ha : onlyWaits s with
    | true =>
      rw [step_waiting hs ha] at h
      cases h
      exact .inr (.inl ⟨[], by rw [← hs]⟩)
    | false =>
      have he := engineNext_self hs ha
      exact .inr (.inr (.inr ⟨s, he, by rwa [step_of_engineNext he] at h⟩))
  | cons m rest =>
    cases m with
    | arrive b => rw [step_arrive hs] at h; cases h; exact .inl ⟨b, rest, rfl, rfl⟩
    | tick => rw [step_tick hs] at h; cases h; exact .inr (.inl ⟨rest, rfl⟩)
    | reset => rw [step_reset hs] at h; cases h; exact .inr (.inr (.inl ⟨rest, rfl, rfl⟩))
    | engine =>
      have he : EngineNext s { s with schedule := rest } := .inr ⟨rest, hs, rfl⟩
      exact .inr (.inr (.inr ⟨_, he, by rwa [step_of_engineNext he] at h⟩))

/-- The state the ENGINE moves from is the whole state but for the schedule. -/
theorem EngineNext.eq {s u : State} (h : EngineNext s u) : u = { s with schedule := u.schedule } := by
  obtain ⟨_, _, rfl⟩ | ⟨_, _, rfl⟩ := h <;> rfl

theorem engineTurn_idle {s : State} (h : s.phase = .idle) : engineTurn s = serveHost s := by simp [engineTurn, h]

theorem engineTurn_busy {s : State} {k : ReceiveAt} (h : s.phase = .busy k) : engineTurn s = receiveStep k s := by
  simp [engineTurn, h]

theorem engineTurn_faulted {s : State} {r : Fault} (h : s.phase = .faulted r) : engineTurn s = .fault r := by
  simp [engineTurn, h]

theorem step_idle {s u : State} (he : EngineNext s u) (h : u.phase = .idle) : step s = serveHost u := by
  rw [step_of_engineNext he, engineTurn_idle h]

theorem step_busy {s u : State} {k : ReceiveAt} (he : EngineNext s u) (h : u.phase = .busy k) :
    step s = receiveStep k u := by
  rw [step_of_engineNext he, engineTurn_busy h]

/-- A relation between a state and its next state holds if it holds of each kind of move: the LINK's two, reset, a
poll of RECEIVE, and what the engine does while Idle. -/
theorem step_ind (P : State → State → Prop) (s t : State) (h : step s = .next t)
   (harr : ∀ b rest, s.schedule = .arrive b :: rest → P s (linkArrive b { s with schedule := rest }))
   (htick : ∀ rest, P s (linkTick { s with schedule := rest }))
   (hreset : ∀ rest, s.schedule = .reset :: rest → P s (applyReset { s with schedule := rest }))
   (hpoll : ∀ u k, EngineNext s u → u.phase = .busy k → receiveStep k u = .next t → P s t)
   (hidle : ∀ u, EngineNext s u → u.phase = .idle → serveHost u = .next t → P s t) : P s t := by
  obtain ⟨b, rest, hs, rfl⟩ | ⟨rest, rfl⟩ | ⟨rest, hs, rfl⟩ | ⟨u, he, h⟩ := step_cases h
  · exact harr _ _ hs
  · exact htick _
  · exact hreset _ hs
  · cases hp : u.phase with
    | idle => exact hidle u he hp (by rwa [engineTurn_idle hp] at h)
    | busy k => exact hpoll u k he hp (by rwa [engineTurn_busy hp] at h)
    | faulted r => rw [engineTurn_faulted hp] at h; cases h

end Sys2Proof.Machine
end

