-- ==== Sys2Proof/Laws/Receive.lean ====
section
/-! SUPPORT. One poll of each wait loop of RECEIVE: what it does once the deadline has passed, on an empty queue, and on
a queued byte. -/

namespace Sys2Proof.Machine

theorem waitByte_expired {cs : Bool} {k : Byte → State → Except Fault State} {s : State} (h : expired s = true) :
    waitByte cs k s = .ok (failReceive .timeout s) := by simp [waitByte, h]

theorem waitByte_empty {cs : Bool} {k : Byte → State → Except Fault State} {s : State} (h : expired s = false)
    (hf : s.rxFifo = []) : waitByte cs k s = .ok s := by simp [waitByte, h, rxEmpty, hf]

theorem waitByte_byte {cs : Bool} {k : Byte → State → Except Fault State} {s : State} {b : Byte} {rest : List Byte}
    (h : expired s = false) (hf : s.rxFifo = b :: rest) :
    waitByte cs k s = k b (if cs then csUpdate b { s with rxFifo := rest } else { s with rxFifo := rest }) := by
  simp [waitByte, h, rxEmpty, takeByte, rxTake, hf]

/-- Everything a poll of `WaitByte` can do. -/
theorem waitByte_cases {cs : Bool} {k : Byte → State → Except Fault State} {s : State} {r : Except Fault State}
    (h : waitByte cs k s = r) :
    (expired s = true ∧ r = .ok (failReceive .timeout s)) ∨
    (expired s = false ∧ s.rxFifo = [] ∧ r = .ok s) ∨
    ∃ b rest, expired s = false ∧ s.rxFifo = b :: rest ∧
      r = k b (if cs then csUpdate b { s with rxFifo := rest } else { s with rxFifo := rest }) := by
  cases he : expired s with
  | true => exact .inl ⟨rfl, by rw [← h, waitByte_expired he]⟩
  | false =>
    cases hf : s.rxFifo with
    | nil => exact .inr (.inl ⟨rfl, rfl, by rw [← h, waitByte_empty he hf]⟩)
    | cons b rest => exact .inr (.inr ⟨b, rest, rfl, rfl, by rw [← h, waitByte_byte he hf]⟩)

theorem pollField_expired {use : FieldUse} {acc : List Byte} {s : State} (h : expired s = true) :
    pollField use acc s = .ok (awaitAt (.fieldEnd use acc) s) := by simp [pollField, h]

theorem pollField_full {use : FieldUse} {acc : List Byte} {s : State} (h : acc.length = fieldMaxDigits s.config use) :
    pollField use acc s = .ok (awaitAt (.fieldEnd use acc) s) := by simp [pollField, h]

theorem pollField_empty {use : FieldUse} {acc : List Byte} {s : State} (h : expired s = false)
    (hl : acc.length ≠ fieldMaxDigits s.config use) (hf : s.rxFifo = []) : pollField use acc s = .ok s := by
  simp [pollField, h, hl, rxEmpty, hf]

theorem pollField_terminator {use : FieldUse} {acc : List Byte} {s : State} {b : Byte} {rest : List Byte}
    (hf : s.rxFifo = b :: rest) (ht : fieldTerminator use b = true) :
    pollField use acc s = .ok (awaitAt (.fieldEnd use acc) s) := by
  simp [pollField, rxEmpty, rxPeek, hf, ht]

theorem pollField_byte {use : FieldUse} {acc : List Byte} {s : State} {b : Byte} {rest : List Byte}
    (h : expired s = false) (hl : acc.length ≠ fieldMaxDigits s.config use) (hf : s.rxFifo = b :: rest)
    (ht : fieldTerminator use b = false) :
    pollField use acc s = .ok (awaitAt (.field use (acc ++ [b]))
      (if fieldChecksummed use then csUpdate b { s with rxFifo := rest } else { s with rxFifo := rest })) := by
  simp [pollField, h, hl, rxEmpty, rxPeek, rxTake, takeByte, hf, ht]

/-- Everything a poll of the loop of `ReadField` can do. -/
theorem pollField_cases (use : FieldUse) (acc : List Byte) (s : State) :
    pollField use acc s = .ok (awaitAt (.fieldEnd use acc) s) ∨
    (expired s = false ∧ acc.length ≠ fieldMaxDigits s.config use ∧ s.rxFifo = [] ∧ pollField use acc s = .ok s) ∨
    ∃ b rest, expired s = false ∧ acc.length ≠ fieldMaxDigits s.config use ∧ s.rxFifo = b :: rest ∧
      fieldTerminator use b = false ∧
      pollField use acc s = .ok (awaitAt (.field use (acc ++ [b]))
        (if fieldChecksummed use then csUpdate b { s with rxFifo := rest } else { s with rxFifo := rest })) := by
  cases he : expired s with
  | true => exact .inl (pollField_expired he)
  | false =>
    by_cases hl : acc.length = fieldMaxDigits s.config use
    · exact .inl (pollField_full hl)
    cases hf : s.rxFifo with
    | nil => exact .inr (.inl ⟨rfl, hl, rfl, pollField_empty he hl hf⟩)
    | cons b rest =>
      cases ht : fieldTerminator use b with
      | true => exact .inl (pollField_terminator hf ht)
      | false => exact .inr (.inr ⟨b, rest, rfl, hl, rfl, ht, pollField_byte he hl hf ht⟩)

theorem scanStep_expired {s : State} (h : expired s = true) : scanStep s = .next (failReceive .timeout s) := by
  simp [scanStep, h]

theorem scanStep_empty {s : State} (h : expired s = false) (hf : s.rxFifo = []) : scanStep s = .next s := by
  simp [scanStep, h, rxEmpty, hf]

theorem scanStep_byte {s : State} {b : Byte} {rest : List Byte} (h : expired s = false) (hf : s.rxFifo = b :: rest) :
    scanStep s = scanByte b (csUpdate b { s with rxFifo := rest }) := by
  simp [scanStep, h, rxEmpty, takeByte, rxTake, hf]

/-- Everything the scan can do with a byte. -/
theorem scanByte_cases (b : Byte) (s : State) :
    (b = chHash ∧ scanByte b s = .next (awaitAt (.field .asciiId []) s)) ∨
    (b = chQuestion ∧ scanByte b s = .next (awaitAt (.field .ackId []) s)) ∨
    (b = chBang ∧ scanByte b s = .next (awaitAt (.field .binId []) (extendDeadline s))) ∨
    (b = chQuote ∧ scanByte b s = .next (awaitAt (.field .strId []) s)) ∨
    (b ≠ chHash ∧ b ≠ chQuestion ∧ b ≠ chBang ∧ b ≠ chQuote ∧ scanByte b s = .next (csReset s)) := by
  by_cases h1 : b = chHash
  · subst h1; exact .inl ⟨rfl, rfl⟩
  by_cases h2 : b = chQuestion
  · subst h2; exact .inr (.inl ⟨rfl, rfl⟩)
  by_cases h3 : b = chBang
  · subst h3; exact .inr (.inr (.inl ⟨rfl, rfl⟩))
  by_cases h4 : b = chQuote
  · subst h4; exact .inr (.inr (.inr (.inl ⟨rfl, rfl⟩)))
  · exact .inr (.inr (.inr (.inr ⟨h1, h2, h3, h4, by simp [scanByte, decodeWire, h1, h2, h3, h4]⟩)))

/-- A poll after the deadline ends TIMEOUT in every loop but `ReadField`'s own. -/
theorem receiveStep_expired {s : State} {k : ReceiveAt} (hx : expired s = true) (hk : ∀ use acc, k ≠ .field use acc) :
    receiveStep k s = .next (failReceive .timeout s) := by
  cases k
  case scan => exact scanStep_expired hx
  case field use acc => exact absurd rfl (hk use acc)
  all_goals simp only [receiveStep, waitByte_expired hx]; rfl

/-- `ReadField`'s own loop goes on to await its terminator where the deadline has passed or the field is full. -/
theorem receiveStep_field_stops {s : State} {use : FieldUse} {acc : List Byte}
    (h : expired s = true ∨ acc.length = fieldMaxDigits s.config use) :
    receiveStep (.field use acc) s = .next (awaitAt (.fieldEnd use acc) s) := by
  rcases h with h | h
  · simp only [receiveStep, pollField_expired h]; rfl
  · simp only [receiveStep, pollField_full h]; rfl

/-- A poll of a RECEIVE that only waits changes nothing. -/
theorem receiveStep_waiting {s : State} {k : ReceiveAt} (hf : s.rxFifo = []) (hx : expired s = false)
    (hk : ∀ use acc, k = .field use acc → acc.length ≠ fieldMaxDigits s.config use) : receiveStep k s = .next s := by
  cases k
  case scan => exact scanStep_empty hx hf
  case field use acc => simp only [receiveStep, pollField_empty hx (hk use acc rfl) hf]; rfl
  all_goals simp only [receiveStep, waitByte_empty hx hf]; rfl

theorem settle_ok (s t : State) : settle s (.ok t) = .next t := rfl

theorem settle_error (s : State) (r : Fault) : settle s (.error r) = .next (enterFault r s) := rfl

/-- A property of what follows a field holds if it holds of each of its ends: the two failures of a field, the
capacity rejection, the next wait loop, and the end of the message. -/
theorem fieldDone_ind (use : FieldUse) (acc : List Byte) (t : Byte) (s : State) (P : State → Prop)
   (hf : ∀ c ∈ [FailCode.malformed, .range], P (failReceive c s)) 
   (hcap : P (failReceive .capacity (rxDiscard s)))
   (hw : ∀ k, P (awaitAt k s)) 
   (hp : ∀ e m v, use = .trailer e m → P (finishParsed m v s)) : P (fieldDone use acc t s) := by
  have hid : ∀ k : Byte → State, (∀ v, P (k v)) → P (withId acc s k) := by
    intro k hk; simp only [withId, decField]
    split
    · rename_i c h; refine hf _ ?_; repeat' split at h
      all_goals first | (cases h; simp) | cases h
    · exact hk _
  have hlen : ∀ k : U16 → State, (∀ v, P (k v)) → P (withLength acc s k) := by
    intro k hk; simp only [withLength, decField]
    split
    · rename_i c h; refine hf _ ?_; repeat' split at h
      all_goals first | (cases h; simp) | cases h
    · exact hk _
  cases use <;> simp only [fieldDone]
  · refine hid _ fun v => ?_
    split
    · exact hw _
    · exact hw _
  · exact hid _ fun v => hw _
  · exact hid _ fun v => hw _
  · refine hlen _ fun v => ?_
    simp only [startBinary]; repeat' split
    · exact hcap
    · exact hw _
    · exact hw _
  · exact hid _ fun v => hw _
  · refine hlen _ fun v => ?_
    simp only [startString]; repeat' split
    · exact hw _
    · exact hw _
  · split
    · exact hf _ (by simp)
    · exact hp _ _ _ rfl

/-- Every poll of RECEIVE answers a next state, and a property holds of it if it holds of each way a poll can go: the
timeout, a poll that changes nothing, a fault, the end of a field's loop, and with a byte `b` taken (`v` raw, `w`
checksummed) a failure, the next wait loop, the scan's own effects, the end of a message, or a stored payload byte. -/
theorem receiveStep_ind (k : ReceiveAt) (s : State) (P : State → Prop)
   (htimeout : P (failReceive .timeout s)) (hstay : P s) 
   (hfault : P (enterFault .memRange s))
   (hend : ∀ use acc, k = .field use acc → P (awaitAt (.fieldEnd use acc) s))
   (hbyte : ∀ b rest, expired s = false → s.rxFifo = b :: rest →
      let v := { s with rxFifo := rest }
      let w := csUpdate b v
      (∀ c ∈ [FailCode.malformed, .range, .overflow], P (failReceive c v) ∧ P (failReceive c w)) ∧
      P (failReceive .capacity (rxDiscard w)) ∧
      (∀ k', P (awaitAt k' v) ∧ P (awaitAt k' w)) ∧
      (k = .scan → P (awaitAt (.field .binId []) (extendDeadline w)) ∧ P (csReset w)) ∧
      (∀ e m acc c, k = .fieldEnd (.trailer e m) acc → P (finishParsed m c v)) ∧
      (∀ id length i k', k = .binByte id length i → s.binRxDesc.base + i < s.config.hostMemSize →
         P (awaitAt k' { w with hostMem := s.hostMem.set (s.binRxDesc.base + i) b }))) :
   ∃ t, receiveStep k s = .next t ∧ P t := by
  have key : ∀ (cs : Bool) (f : Byte → State → Except Fault State), 
     (∀ b rest, expired s = false → s.rxFifo = b :: rest → ∃ t, settle s (f b (if cs then csUpdate b { s with rxFifo := rest } else { s with rxFifo := rest })) = .next t ∧ P t) →
     ∃ t, settle s (waitByte cs f s) = .next t ∧ P t := by
    intro cs f h
    obtain ⟨_, e⟩ | ⟨_, _, e⟩ | ⟨b, rest, he, hf, e⟩ := waitByte_cases (cs := cs) (k := f) (s := s) rfl
    · exact ⟨_, by rw [e]; rfl, htimeout⟩
    · exact ⟨_, by rw [e]; rfl, hstay⟩
    · rw [e]; exact h b rest he hf
  cases k <;> simp only [receiveStep]
  case scan =>
    cases he : expired s with
    | true => exact ⟨_, scanStep_expired he, htimeout⟩
    | false =>
      cases hf : s.rxFifo with
      | nil => exact ⟨_, scanStep_empty he hf, hstay⟩
      | cons b rest =>
        obtain ⟨h1, h2, h3, h4, h5, h6⟩ := hbyte b rest he hf
        rw [scanStep_byte he hf]
        rcases scanByte_cases b (csUpdate b { s with rxFifo := rest }) with ⟨_, h⟩ | ⟨_, h⟩ | ⟨_, h⟩ | ⟨_, h⟩ | ⟨_, _, _, _, h⟩ <;> rw [h]
        · exact ⟨_, rfl, (h3 _).2⟩
        · exact ⟨_, rfl, (h3 _).2⟩
        · exact ⟨_, rfl, (h4 rfl).1⟩
        · exact ⟨_, rfl, (h3 _).2⟩
        · exact ⟨_, rfl, (h4 rfl).2⟩
  case field use acc =>
    rcases pollField_cases use acc s with h | ⟨_, _, _, h⟩ | ⟨b, rest, he, _, hf, _, h⟩ <;> rw [h]
    · exact ⟨_, rfl, hend _ _ rfl⟩
    · exact ⟨_, rfl, hstay⟩
    · obtain ⟨h1, h2, h3, h4, h5, h6⟩ := hbyte b rest he hf
      refine ⟨_, rfl, ?_⟩
      split
      · exact (h3 _).2
      · exact (h3 _).1
  case fieldEnd use acc =>
    refine key _ _ fun b rest he hf => ?_
    obtain ⟨h1, h2, h3, h4, h5, h6⟩ := hbyte b rest he hf
    simp only [afterField, settle_ok, Host.Outcome.next.injEq, exists_eq_left']
    cases hu : fieldChecksummed use
    · obtain ⟨e, m, rfl⟩ : ∃ e m, use = .trailer e m := by cases use <;> simp_all [fieldChecksummed]
      simp only [Bool.false_eq_true, if_false]
      split
      · simp only [fieldDone]; split
        · exact (h1 _ (by simp)).1
        · exact h5 _ _ _ _ rfl
      · exact (h1 _ (by simp)).1
    · simp only [if_true]
      split
      · refine fieldDone_ind _ _ _ _ P (fun c hc => (h1 c (by simp at hc ⊢; tauto)).2) h2 (fun k => (h3 k).2) ?_
        rintro e m v rfl; simp [fieldChecksummed] at hu
      · exact (h1 _ (by simp)).2
  case binByte id length i =>
    refine key _ _ fun b rest he hf => ?_
    obtain ⟨h1, h2, h3, h4, h5, h6⟩ := hbyte b rest he hf
    simp only [afterBinByte, if_true]
    by_cases hm : s.binRxDesc.base + i < s.config.hostMemSize
    · rw [memWrite_of_lt _ (by simpa using hm)]
      exact ⟨_, rfl, h6 _ _ _ _ rfl hm⟩
    · rw [memWrite_of_ge _ (by simpa using hm)]
      exact ⟨_, rfl, hfault⟩
  all_goals
    refine key _ _ fun b rest he hf => ?_
    obtain ⟨h1, h2, h3, h4, h5, h6⟩ := hbyte b rest he hf
    simp only [afterAsciiByte, afterAckValue, afterPayloadEnd, afterStrByte, settle_ok, Host.Outcome.next.injEq, exists_eq_left', startTrailer, if_true]
    repeat' split
    all_goals first | exact (h3 _).2 | exact (h1 _ (by simp)).2

end Sys2Proof.Machine
end

