-- ==== Sys2Proof/Laws/Bounds.lean ====
section
/-! SUPPORT. A poll of RECEIVE keeps the bounds of its buffers and of its micro-state. -/

namespace Sys2Proof.Machine

/-- The bounds of RECEIVE read only the parameters and the borrowed buffer. -/
theorem receiveFits_congr {s t : State} (hc : t.config = s.config) (hd : t.binRxDesc = s.binRxDesc) (k) (h : ReceiveFits s k) :
    ReceiveFits t k := by
  have hp : ∀ m, ParsedFits s m → ParsedFits t m := by intro m; cases m <;> simp [ParsedFits, hc, hd]
  have hf : ∀ m, FieldFits s m → FieldFits t m := by intro m; cases m <;> simp [FieldFits]; exact hp _
  cases k <;> simp [ReceiveFits] at h ⊢ <;> try rw [hc, hd]
  all_goals first | exact h | exact ⟨hf _ h.1, h.2⟩ | (rw [hc]; first | exact ⟨hf _ h.1, h.2⟩ | exact h) | (rw [hd]; exact h)

/-- The bounds of a state, but for the micro-state of RECEIVE. -/
def BuffersInv (s : State) : Prop := ConfigLegal s.config ∧ TransmitInv s ∧ RecordsInv s

theorem bounds_of_not_busy {t : State} (h : BuffersInv t) (hp : ∀ k, t.phase ≠ .busy k) :
    BoundsInv t := ⟨h.1, h.2.1, h.2.2, fun k hk => absurd hk (hp k)⟩
theorem bounds_of_busy {t : State} {k} (h : BuffersInv t) (hp : t.phase = .busy k) (hf : ReceiveFits t k) :
    BoundsInv t := ⟨h.1, h.2.1, h.2.2, fun k' hk => by rw [hp] at hk; cases hk; exact hf⟩
/-- A failed RECEIVE meets the bounds. -/
theorem bounds_failReceive {s : State} (c) (h : BuffersInv s) : BoundsInv (failReceive c s) := 
  bounds_of_not_busy ⟨h.1, h.2.1, by simp [RecordsInv, failReceive, resetRxRecords, AsciiRecord.default, StringRecord.default, CommaLed]⟩ (fun k hk => by cases hk)

/-- A wait loop entered from bounded buffers meets the bounds. -/
theorem bounds_of_await {s t : State} {k} (hb : BuffersInv s) (ht : t = { s with phase := .busy k, csA := t.csA, csB := t.csB, rxFifo := t.rxFifo, deadline := t.deadline, hostMem := t.hostMem }) (hf : ReceiveFits s k) :
    BoundsInv t := by
  have hb' : BuffersInv t := by rw [ht]; exact hb
  refine bounds_of_busy hb' (by rw [ht]) (receiveFits_congr (by rw [ht]) (by rw [ht]) _ hf)

theorem bounds_withId {acc s} {k : Byte → State} (hb : BuffersInv s) (h : ∀ v, BoundsInv (k v)) :
    BoundsInv (withId acc s k) := by
  unfold withId; split
  · exact bounds_failReceive _ hb
  · exact h _
theorem bounds_withLength {acc s} {k : U16 → State} (hb : BuffersInv s) (h : ∀ v, BoundsInv (k v)) :
    BoundsInv (withLength acc s k) := by
  unfold withLength; split
  · exact bounds_failReceive _ hb
  · exact h _

theorem bounds_startTrailer {m s} (hb : BuffersInv s) (h : ParsedFits s m) : BoundsInv (startTrailer m s) :=
  bounds_of_await hb rfl (by simp [ReceiveFits, FieldFits, h])

theorem bounds_finishParsed {m v} {s : State} (hb : BuffersInv s) (hc : s.rxCursor = 0) (h : ParsedFits s m) :
    BoundsInv (finishParsed m v s) := by
  obtain ⟨h1, h2, h3⟩ := hb
  have hc1 := h1.2
  cases m with
  | ascii id np text =>
    obtain ⟨a, b, c⟩ := h
    refine bounds_of_not_busy ⟨h1, h2, a, b, ?_, h3.2.2.2.1, h3.2.2.2.2.1, ?_⟩ (fun k hk => by cases hk)
    · show (BitVec.ofNat 8 np).toNat = text.count chComma
      have : text.count chComma ≤ text.length := List.count_le_length
      simp [c]
      omega
    · show s.rxCursor ≤ _; omega
  | ack id value => exact bounds_of_not_busy ⟨h1, h2, h3⟩ (fun k hk => by cases hk)
  | binary id l => exact bounds_of_not_busy ⟨h1, h2, h3⟩ (fun k hk => by cases hk)
  | string id l d => 
    obtain ⟨a, b⟩ := h
    exact bounds_of_not_busy ⟨h1, h2, h3.1, h3.2.1, h3.2.2.1, a, b, h3.2.2.2.2.2⟩ (fun k hk => by cases hk)

/-- What follows a field meets the bounds. -/
theorem bounds_fieldDone {use acc t} {s : State} (hb : BuffersInv s) (hc : s.rxCursor = 0) (hf : FieldFits s use) :
    BoundsInv (fieldDone use acc t s) := by
  cases use with
  | asciiId =>
    refine bounds_withId hb fun v => ?_
    split
    · refine bounds_of_await hb rfl ?_
      have := hb.1.1
      simp [ReceiveFits]; exact this
    · exact bounds_startTrailer hb (by simp [ParsedFits, CommaLed])
  | ackId => exact bounds_withId hb fun v => bounds_of_await hb rfl trivial
  | binId => exact bounds_withId hb fun v => bounds_of_await hb rfl ⟨trivial, by simp⟩
  | strId => exact bounds_withId hb fun v => bounds_of_await hb rfl ⟨trivial, by simp⟩
  | binLen id =>
    refine bounds_withLength hb fun v => ?_
    unfold startBinary
    split
    · exact bounds_failReceive _ hb
    · rename_i h
      simp at h
      split
      · exact bounds_of_await hb rfl ⟨h.1, h.2⟩
      · rename_i h0
        refine bounds_of_await hb rfl ⟨h.1, h.2, ?_⟩
        have : v.toNat ≠ 0 := fun h => h0 (BitVec.eq_of_toNat_eq h)
        omega
  | strLen id =>
    refine bounds_withLength hb fun v => ?_
    unfold startString
    split
    · rename_i h; subst h; exact bounds_of_await hb rfl (by simp [ReceiveFits])
    · rename_i h0
      have : v.toNat ≠ 0 := fun h => h0 (BitVec.eq_of_toNat_eq h)
      refine bounds_of_await hb rfl ⟨by omega, by simp⟩
  | trailer e m =>
    simp only [fieldDone]
    split
    · exact bounds_failReceive _ hb
    · exact bounds_finishParsed hb hc hf

/-- An iteration of `WaitByte` meets the bounds if what follows the byte does. -/
theorem bounds_waitByte {u t : State} (hb : BoundsInv u) (hc : u.rxCursor = 0) (cs : Bool) (f : Byte → State → Except Fault State) (h : settle u (waitByte cs f u) = .next t)
   (hP : ∀ b v, BuffersInv v → v.rxCursor = 0 → v.config = u.config → v.binRxDesc = u.binRxDesc → (∃ w, f b v = .ok w ∧ BoundsInv w) ∨ ∃ r, f b v = .error r) : BoundsInv t := by
  have hB : BuffersInv u := ⟨hb.1, hb.2.1, hb.2.2.1⟩
  obtain ⟨_, e⟩ | ⟨_, _, e⟩ | ⟨b, rest, he, hq, e⟩ := waitByte_cases (cs := cs) (k := f) (s := u) rfl
  · rw [e] at h; cases h; exact bounds_failReceive _ hB
  · rw [e] at h; cases h; exact hb
  · rw [e] at h
    rcases hP b (if cs then csUpdate b { u with rxFifo := rest } else { u with rxFifo := rest }) (by cases cs <;> exact hB) (by cases cs <;> exact hc) (by cases cs <;> rfl) (by cases cs <;> rfl) with ⟨w, hw, hw2⟩ | ⟨r, hr⟩
    · rw [hw] at h; cases h; exact hw2
    · rw [hr] at h; cases h; exact bounds_of_not_busy hB (fun k hk => by cases hk)

theorem bounds_scan {u t : State} (hk : u.phase = .busy .scan) (hb : BoundsInv u) (h : scanStep u = .next t) :
    BoundsInv t := by
  have hB : BuffersInv u := ⟨hb.1, hb.2.1, hb.2.2.1⟩
  cases he : expired u with
  | true => rw [scanStep_expired he] at h; cases h; exact bounds_failReceive _ hB
  | false =>
    cases hq : u.rxFifo with
    | nil => rw [scanStep_empty he hq] at h; cases h; exact hb
    | cons b rest =>
      rw [scanStep_byte he hq] at h
      rcases scanByte_cases b (csUpdate b { u with rxFifo := rest }) with ⟨_, e⟩ | ⟨_, e⟩ | ⟨_, e⟩ | ⟨_, e⟩ | ⟨_, _, _, _, e⟩ <;> rw [e] at h <;> cases h
      · exact bounds_of_await hB rfl ⟨trivial, by simp⟩
      · exact bounds_of_await hB rfl ⟨trivial, by simp⟩
      · exact bounds_of_await hB rfl ⟨trivial, by simp⟩
      · exact bounds_of_await hB rfl ⟨trivial, by simp⟩
      · exact bounds_of_busy (k := .scan) hB hk trivial

theorem bounds_field {u t : State} {use acc} (hk : u.phase = .busy (.field use acc)) (hb : BoundsInv u) (hc : u.rxCursor = 0) (h : receiveStep (.field use acc) u = .next t) :
    BoundsInv t := by
  have hB : BuffersInv u := ⟨hb.1, hb.2.1, hb.2.2.1⟩
  have hf := hb.2.2.2 _ hk
  have hself := hb
  have key := bounds_waitByte (t := t) hb hc
  simp only [receiveStep] at h
  rcases pollField_cases use acc u with e | ⟨_, _, _, e⟩ | ⟨b, rest, he, hl, hq, _, e⟩ <;> rw [e] at h <;> cases h
  · exact bounds_of_await hB rfl hf
  · exact hself
  · refine bounds_of_await hB (by split <;> rfl) (k := .field use (acc ++ [b])) ⟨hf.1, ?_⟩
    have := hf.2
    simp; omega

theorem bounds_fieldEnd {u t : State} {use acc} (hk : u.phase = .busy (.fieldEnd use acc)) (hb : BoundsInv u) (hc : u.rxCursor = 0) (h : receiveStep (.fieldEnd use acc) u = .next t) :
    BoundsInv t := by
  have hB : BuffersInv u := ⟨hb.1, hb.2.1, hb.2.2.1⟩
  have hf := hb.2.2.2 _ hk
  have hself := hb
  have key := bounds_waitByte (t := t) hb hc
  refine key _ _ h fun b v hv hc hcf hd => .inl ⟨_, rfl, ?_⟩
  split
  · refine bounds_fieldDone hv hc ?_
    have := receiveFits_congr (s := u) (t := v) hcf hd _ hf
    exact this.1
  · exact bounds_failReceive _ hv

theorem bounds_asciiByte {u t : State} {id np text} (hk : u.phase = .busy (.asciiByte id np text)) (hb : BoundsInv u) (hc : u.rxCursor = 0) (h : receiveStep (.asciiByte id np text) u = .next t) :
    BoundsInv t := by
  have hB : BuffersInv u := ⟨hb.1, hb.2.1, hb.2.2.1⟩
  have hf := hb.2.2.2 _ hk
  have hself := hb
  have key := bounds_waitByte (t := t) hb hc
  refine key _ _ h fun b v hv hc hcf hd => .inl ⟨_, rfl, ?_⟩
  obtain ⟨a, b', c⟩ := receiveFits_congr (s := u) (t := v) hcf hd _ hf
  split
  · exact bounds_startTrailer hv ⟨a, .inr b', c⟩
  · split
    · exact bounds_failReceive _ hv
    · refine bounds_of_await hv rfl ⟨?_, ?_, ?_⟩
      · simp; omega
      · cases text <;> simp_all
      · rw [List.count_append, ← c, List.count_singleton]; by_cases h : b = chComma <;> simp [h]

theorem bounds_ackValue {u t : State} {id} (hk : u.phase = .busy (.ackValue id)) (hb : BoundsInv u) (hc : u.rxCursor = 0) (h : receiveStep (.ackValue id) u = .next t) :
    BoundsInv t := by
  have hB : BuffersInv u := ⟨hb.1, hb.2.1, hb.2.2.1⟩
  have hf := hb.2.2.2 _ hk
  have hself := hb
  have key := bounds_waitByte (t := t) hb hc
  refine key _ _ h fun b v hv hc hcf hd => .inl ⟨_, rfl, ?_⟩
  repeat' split
  · exact bounds_of_await hv rfl trivial
  · exact bounds_of_await hv rfl trivial
  · exact bounds_failReceive _ hv

theorem bounds_ackEnd {u t : State} {id value} (hk : u.phase = .busy (.ackEnd id value)) (hb : BoundsInv u) (hc : u.rxCursor = 0) (h : receiveStep (.ackEnd id value) u = .next t) :
    BoundsInv t := by
  have hB : BuffersInv u := ⟨hb.1, hb.2.1, hb.2.2.1⟩
  have hf := hb.2.2.2 _ hk
  have hself := hb
  have key := bounds_waitByte (t := t) hb hc
  refine key _ _ h fun b v hv hc hcf hd => .inl ⟨_, rfl, ?_⟩
  split
  · exact bounds_startTrailer hv trivial
  · exact bounds_failReceive _ hv

theorem bounds_binByte {u t : State} {id length i} (hk : u.phase = .busy (.binByte id length i)) (hb : BoundsInv u) (hc : u.rxCursor = 0) (h : receiveStep (.binByte id length i) u = .next t) :
    BoundsInv t := by
  have hB : BuffersInv u := ⟨hb.1, hb.2.1, hb.2.2.1⟩
  have hf := hb.2.2.2 _ hk
  have hself := hb
  have key := bounds_waitByte (t := t) hb hc
  refine key _ _ h fun b v hv hc hcf hd => ?_
  obtain ⟨a, b', c⟩ := receiveFits_congr (s := u) (t := v) hcf hd _ hf
  unfold afterBinByte
  by_cases hm : v.binRxDesc.base + i < v.config.hostMemSize
  · rw [memWrite_of_lt _ hm]
    refine .inl ⟨_, rfl, bounds_of_await hv rfl ?_⟩
    split
    · exact ⟨a, b', by assumption⟩
    · exact ⟨a, b'⟩
  · rw [memWrite_of_ge _ (by omega)]; exact .inr ⟨_, rfl⟩

theorem bounds_binEnd {u t : State} {id length} (hk : u.phase = .busy (.binEnd id length)) (hb : BoundsInv u) (hc : u.rxCursor = 0) (h : receiveStep (.binEnd id length) u = .next t) :
    BoundsInv t := by
  have hB : BuffersInv u := ⟨hb.1, hb.2.1, hb.2.2.1⟩
  have hf := hb.2.2.2 _ hk
  have hself := hb
  have key := bounds_waitByte (t := t) hb hc
  refine key _ _ h fun b v hv hc hcf hd => .inl ⟨_, rfl, ?_⟩
  obtain ⟨a, b'⟩ := receiveFits_congr (s := u) (t := v) hcf hd _ hf
  split
  · exact bounds_startTrailer hv ⟨a, b'⟩
  · exact bounds_failReceive _ hv

theorem bounds_strByte {u t : State} {id length i data} (hk : u.phase = .busy (.strByte id length i data)) (hb : BoundsInv u) (hc : u.rxCursor = 0) (h : receiveStep (.strByte id length i data) u = .next t) :
    BoundsInv t := by
  have hB : BuffersInv u := ⟨hb.1, hb.2.1, hb.2.2.1⟩
  have hf := hb.2.2.2 _ hk
  have hself := hb
  have key := bounds_waitByte (t := t) hb hc
  refine key _ _ h fun b v hv hc hcf hd => .inl ⟨_, rfl, ?_⟩
  obtain ⟨a, b'⟩ := receiveFits_congr (s := u) (t := v) hcf hd _ hf
  refine bounds_of_await hv rfl ?_
  have hlen : (if i < min length.toNat v.config.strCap then data ++ [b] else data).length = min (i+1) v.config.strCap := by
    split
    · simp; omega
    · omega
  split
  · exact ⟨by assumption, hlen⟩
  · show _ = _; rw [hlen]; congr 1; omega

theorem bounds_strEnd {u t : State} {id length data} (hk : u.phase = .busy (.strEnd id length data)) (hb : BoundsInv u) (hc : u.rxCursor = 0) (h : receiveStep (.strEnd id length data) u = .next t) :
    BoundsInv t := by
  have hB : BuffersInv u := ⟨hb.1, hb.2.1, hb.2.2.1⟩
  have hf := hb.2.2.2 _ hk
  have hself := hb
  have key := bounds_waitByte (t := t) hb hc
  refine key _ _ h fun b v hv hc hcf hd => .inl ⟨_, rfl, ?_⟩
  have hd : data.length = min length.toNat v.config.strCap := receiveFits_congr (s := u) (t := v) hcf hd _ hf
  split
  · refine bounds_startTrailer hv ⟨?_, by omega⟩
    rw [hd, hcf]
    have := length.isLt
    simp; omega
  · exact bounds_failReceive _ hv

/-- A poll of RECEIVE keeps the bounds. -/
theorem bounds_receiveStep {u t : State} {k} (hk : u.phase = .busy k) (hb : BoundsInv u) (hc : u.rxCursor = 0) (h : receiveStep k u = .next t) :
    BoundsInv t := by
  cases k with
  | scan => exact bounds_scan hk hb h
  | field use acc => exact bounds_field hk hb hc h
  | fieldEnd use acc => exact bounds_fieldEnd hk hb hc h
  | asciiByte id np text => exact bounds_asciiByte hk hb hc h
  | ackValue id => exact bounds_ackValue hk hb hc h
  | ackEnd id value => exact bounds_ackEnd hk hb hc h
  | binByte id length i => exact bounds_binByte hk hb hc h
  | binEnd id length => exact bounds_binEnd hk hb hc h
  | strByte id length i data => exact bounds_strByte hk hb hc h
  | strEnd id length data => exact bounds_strEnd hk hb hc h

end Sys2Proof.Machine
end

