-- ==== Sys2Proof/Laws/Checksum.lean ====
section
/-! SUPPORT. The checksum over a sequence of bytes (41_checksum.md R173), and what the Frame Writer's helpers do
to the state as a whole. -/

namespace Sys2Proof.Machine

/-- The accumulator pair after a sequence of bytes (R171). -/
def csFold (p : Byte × Byte) (bs : List Byte) : Byte × Byte := bs.foldl csStep p

@[simp] theorem csFold_nil (p : Byte × Byte) : csFold p [] = p := rfl

theorem csFold_cons (p : Byte × Byte) (b : Byte) (bs : List Byte) : csFold p (b :: bs) = csFold (csStep p b) bs := rfl

theorem csFold_append (p : Byte × Byte) (bs cs : List Byte) : csFold p (bs ++ cs) = csFold (csFold p bs) cs := by
  simp [csFold]

theorem csUpdateSeq_eq (bs : List Byte) (s : State) :
    csUpdateSeq bs s = { s with csA := (csFold (s.csA, s.csB) bs).1, csB := (csFold (s.csA, s.csB) bs).2 } := by
  induction bs generalizing s with
  | nil => rfl
  | cons b bs ih =>
    show csUpdateSeq bs (csUpdate b s) = _
    rw [ih]
    rfl

/-- `Cs(s)` is `CsCombined` after `CsReset` and the updates (R173). -/
theorem checksumOf_eq (bs : List Byte) :
    checksumOf bs = (csFold (0#8, 0#8) bs).1 ++ (csFold (0#8, 0#8) bs).2 := rfl

/-- The high and the low byte of a checksum are the accumulators. -/
theorem append_bytes_inj {a b c d : Byte} (h : (a ++ b : U16) = c ++ d) : a = c ∧ b = d := by
  have h1 : (a ++ b : BitVec (8 + 8)).toNat = (c ++ d : BitVec (8 + 8)).toNat := congrArg BitVec.toNat h
  simp only [BitVec.toNat_append, Nat.shiftLeft_eq] at h1
  rw [← Nat.mul_comm (2 ^ 8), ← Nat.mul_comm (2 ^ 8), ← Nat.two_pow_add_eq_or_of_lt b.isLt,
    ← Nat.two_pow_add_eq_or_of_lt d.isLt] at h1
  have hb := b.isLt
  have hd := d.isLt
  exact ⟨BitVec.eq_of_toNat_eq (by omega), BitVec.eq_of_toNat_eq (by omega)⟩

/-! ## The Frame Writer's helpers (43_frame_writer.md R240) -/

/-- A state whose accumulators hold the checksum of a body sent since `s`. -/
def sent (body : List Byte) (s : State) : State :=
  { s with
    csA := (csFold (0#8, 0#8) body).1
    csB := (csFold (0#8, 0#8) body).2
    txOut := s.txOut ++ body }

theorem txCsSeq_sent (body bs : List Byte) (s : State) : txCsSeq bs (sent body s) = sent (body ++ bs) s := by
  simp [txCsSeq, csUpdateSeq_eq, txPutSeq, sent, csFold_append]

theorem txBegin_eq (d id : Byte) (s : State) : txBegin d id s = sent (d :: dec id.toNat) s := by
  have h : csReset s = sent [] s := by simp [csReset, sent]
  rw [txBegin, h, txCsSeq_sent, txCsSeq_sent]
  rfl

/-- After the body's `;`, the trailer is the body's checksum. -/
theorem txEnd_sent (body : List Byte) (s : State) :
    txEnd (sent body s) = { sent (body ++ [chSemi]) s with txOut := s.txOut ++ wireFrame (body ++ [chSemi]) } := by
  rw [txEnd, txCsSeq_sent]
  simp [txTrailer, txPutSeq, sent, csCombined, wireFrame, checksumOf_eq]

/-- The body of a length-prefixed frame. -/
def lengthPrefixedBody (d id : Byte) (payload : List Byte) : List Byte :=
  [d] ++ dec id.toNat ++ [chComma] ++ dec payload.length ++ [chSemi] ++ payload ++ [chSemi]

/-- A frame whose body is `body`, sent whole. -/
def sentFrame (body : List Byte) (s : State) : State := { sent body s with txOut := s.txOut ++ wireFrame body }

theorem txLengthPrefixed_eq (d id : Byte) (payload : List Byte) (s : State) :
    txLengthPrefixed d id payload s = sentFrame (lengthPrefixedBody d id payload) s := by
  rw [txLengthPrefixed, txBegin_eq, txCsSeq_sent, txCsSeq_sent, txCsSeq_sent, txCsSeq_sent, txEnd_sent]
  simp [sentFrame, lengthPrefixedBody]

end Sys2Proof.Machine
end

