-- ==== Sys2Proof/Laws/Decimal.lean ====
section
/-! SUPPORT. The decimal renderings and readings of 00_scope.md R14. -/

namespace Sys2Proof.Machine

/-! ## Digits -/

theorem digitByte_toNat {d : Nat} (h : d < 10) : (digitByte d).toNat = 0x30 + d := by
  simp only [digitByte, BitVec.toNat_ofNat]
  omega

@[simp] theorem isDigit_digitByte {d : Nat} (h : d < 10) : isDigit (digitByte d) = true := by
  simp only [isDigit, digitByte_toNat h, Bool.and_eq_true, decide_eq_true_eq]
  omega

@[simp] theorem digitVal_digitByte {d : Nat} (h : d < 10) : digitVal (digitByte d) = d := by
  simp only [digitVal, digitByte_toNat h]
  omega

/-- No digit is a separator, a terminator, a sign or a point. -/
theorem isDigit_ne {b c : Byte} (h : isDigit b = true) (hc : isDigit c = false) : b ≠ c := by
  rintro rfl
  simp [h] at hc

/-! ## `DecVal` -/

@[simp] theorem decVal_nil : decVal [] = 0 := rfl

theorem decVal_append_singleton (bs : List Byte) (b : Byte) : decVal (bs ++ [b]) = 10 * decVal bs + digitVal b := by
  simp [decVal]

theorem decVal_append (bs cs : List Byte) : decVal (bs ++ cs) = decVal bs * 10 ^ cs.length + decVal cs := by
  induction cs using List.reverseRecOn with
  | nil => simp
  | append_singleton cs c ih =>
    rw [← List.append_assoc, decVal_append_singleton, decVal_append_singleton, ih, List.length_append,
      List.length_singleton, pow_succ]
    ring

/-- A number of `k` digits is below `10^k`. -/
theorem decVal_lt (bs : List Byte) (h : ∀ b ∈ bs, isDigit b = true) : decVal bs < 10 ^ bs.length := by
  induction bs using List.reverseRecOn with
  | nil => simp
  | append_singleton bs b ih =>
    have hb := h b (by simp)
    have := ih fun c hc => h c (by simp [hc])
    simp only [isDigit, Bool.and_eq_true, decide_eq_true_eq] at hb
    rw [decVal_append_singleton, List.length_append, List.length_singleton, pow_succ]
    simp only [digitVal]
    omega

/-! ## `Dec` -/

theorem decDigits_append (fuel n : Nat) (acc : List Byte) : decDigits fuel n acc = decDigits fuel n [] ++ acc := by
  induction fuel generalizing n acc with
  | zero => rfl
  | succ fuel ih =>
    unfold decDigits
    split
    · rfl
    · rw [ih, ih (n / 10) [digitByte (n % 10)]]
      simp

theorem decDigits_fuel (f g n : Nat) (hf : n < 10 ^ (f + 1)) (hg : n < 10 ^ (g + 1)) :
    decDigits (f + 1) n [] = decDigits (g + 1) n [] := by
  induction f generalizing g n with
  | zero =>
    unfold decDigits
    rw [if_pos (by simpa using hf), if_pos (by simpa using hf)]
  | succ f ih =>
    cases g with
    | zero =>
      unfold decDigits
      rw [if_pos (by simpa using hg), if_pos (by simpa using hg)]
    | succ g =>
      unfold decDigits
      split
      · rfl
      · rw [decDigits_append, decDigits_append (g + 1), ih g (n / 10)]
        · rw [pow_succ] at hf
          omega
        · rw [pow_succ] at hg
          omega

theorem lt_ten_pow_log2 (n : Nat) : n < 10 ^ (n.log2 + 1) :=
  Nat.lt_of_lt_of_le Nat.lt_log2_self (Nat.pow_le_pow_left (by decide) _)

theorem dec_of_lt {n : Nat} (h : n < 10) : dec n = [digitByte n] := by
  unfold dec decDigits
  rw [if_pos h]

/-- A number of two or more digits: its tens, then its last digit. -/
theorem dec_of_ge {n : Nat} (h : 10 ≤ n) : dec n = dec (n / 10) ++ [digitByte (n % 10)] := by
  have hl := lt_ten_pow_log2 n
  have h0 : n.log2 ≠ 0 := by
    intro h0
    rw [h0] at hl
    omega
  obtain ⟨k, hk⟩ := Nat.exists_eq_succ_of_ne_zero h0
  unfold dec
  rw [hk, Nat.succ_eq_add_one]
  conv_lhs => unfold decDigits
  rw [if_neg (by omega), decDigits_append,
    decDigits_fuel k (n / 10).log2 (n / 10) (by rw [hk, Nat.succ_eq_add_one, pow_succ] at hl; omega)
      (lt_ten_pow_log2 _)]

theorem dec_ne_nil (n : Nat) : dec n ≠ [] := by
  by_cases h : n < 10
  · simp [dec_of_lt h]
  · simp [dec_of_ge (Nat.le_of_not_lt h)]

theorem isDigit_of_mem_dec (n : Nat) : ∀ b ∈ dec n, isDigit b = true := by
  induction n using Nat.strongRecOn with
  | _ n ih =>
    by_cases h : n < 10
    · simp [dec_of_lt h, h]
    · rw [dec_of_ge (Nat.le_of_not_lt h)]
      intro b hb
      rcases List.mem_append.1 hb with hb | hb
      · exact ih _ (by omega) b hb
      · simp only [List.mem_singleton] at hb
        subst hb
        exact isDigit_digitByte (by omega)

/-- Reading back a rendering. -/
theorem decVal_dec_eq (n : Nat) : decVal (dec n) = n := by
  induction n using Nat.strongRecOn with
  | _ n ih =>
    by_cases h : n < 10
    · simp [dec_of_lt h, decVal, h]
    · rw [dec_of_ge (Nat.le_of_not_lt h), decVal_append_singleton, ih _ (by omega), digitVal_digitByte (by omega)]
      omega

/-- A number below `10^k` renders in at most `k` bytes. -/
theorem dec_length_le {n k : Nat} (hk : 0 < k) (h : n < 10 ^ k) : (dec n).length ≤ k := by
  induction k generalizing n with
  | zero => omega
  | succ k ih =>
    by_cases hn : n < 10
    · simp [dec_of_lt hn]
    · rw [dec_of_ge (Nat.le_of_not_lt hn)]
      have hk' : 0 < k := by
        rcases Nat.eq_zero_or_pos k with rfl | h'
        · simp at h
          omega
        · exact h'
      rw [pow_succ] at h
      have := ih hk' (n := n / 10) (by omega)
      simp only [List.length_append, List.length_singleton]
      omega

theorem isNumber_dec (n : Nat) : isNumber (dec n) = true := by
  simp only [isNumber, Bool.and_eq_true, Bool.not_eq_true', List.all_eq_true]
  exact ⟨by simpa using dec_ne_nil n, isDigit_of_mem_dec n⟩

/-- What a field of digits is. -/
theorem isNumber_iff (f : List Byte) : isNumber f = true ↔ f ≠ [] ∧ ∀ b ∈ f, isDigit b = true := by
  simp [isNumber, List.all_eq_true]

/-- `Pad6` of a number below `10^6` has 6 digits. -/
theorem pad6_length {n : Nat} (h : n < 10 ^ 6) : (pad6 n).length = 6 := by
  have := dec_length_le (by decide) h
  simp only [pad6, List.length_append, List.length_replicate]
  omega

theorem isDigit_of_mem_pad6 (n : Nat) : ∀ b ∈ pad6 n, isDigit b = true := by
  intro b hb
  rcases List.mem_append.1 hb with hb | hb
  · rw [List.eq_of_mem_replicate hb]
    decide
  · exact isDigit_of_mem_dec n b hb

/-- `Pad6` keeps the value. -/
theorem decVal_pad6 (n : Nat) : decVal (pad6 n) = n := by
  rw [pad6, decVal_append, decVal_dec_eq]
  have : ∀ k, decVal (List.replicate k chZero) = 0 := by
    intro k
    induction k with
    | zero => rfl
    | succ k ih =>
      rw [List.replicate_succ', decVal_append_singleton, ih]
      decide
  rw [this]
  omega

end Sys2Proof.Machine
end

