-- ==== Sys2Proof/Laws/Codec.lean ====
section
/-! SUPPORT. Parameter fields, integer and signed readings, and what a rendering holds (44_param_codec.md). -/

namespace Sys2Proof.Machine

/-! ## `GetField` -/

theorem fieldBytes_of_field (f rest : List Byte) (w : Nat) (hf : ∀ b ∈ f, b ≠ chComma ∧ b ≠ chNul)
    (hr : rest = [] ∨ rest.head? = some chComma ∨ rest.head? = some chNul) :
    fieldBytes w (f ++ rest) = f.take w := by
  induction f generalizing w with
  | nil =>
    cases w with
    | zero => simp [fieldBytes]
    | succ w =>
      rcases rest with _ | ⟨b, rest⟩
      · simp [fieldBytes]
      · have : isFieldEnd b = true := by simpa [isFieldEnd] using hr
        simp [fieldBytes, this]
  | cons b f ih =>
    cases w with
    | zero => simp [fieldBytes]
    | succ w =>
      have hb : isFieldEnd b = false := by simpa [isFieldEnd] using hf b (by simp)
      simp [fieldBytes, hb, ih w fun c hc => hf c (by simp [hc])]

theorem fieldBytes_length_le (w : Nat) (t : List Byte) : (fieldBytes w t).length ≤ t.length := by
  induction t generalizing w with
  | nil => cases w <;> simp [fieldBytes]
  | cons b t ih =>
    cases w with
    | zero => simp [fieldBytes]
    | succ w =>
      simp only [fieldBytes]
      split
      · simp
      · simpa using ih w

/-- No leading `,` at the cursor. -/
theorem getField_of_noField {s : State} (w : Option Nat) (h : NoField s) : getField w s = .error .getNoField := by
  have h' : (s.rxAscii.text.drop s.rxCursor).head? ≠ some chComma := by rwa [List.head?_drop]
  unfold getField
  split
  · rfl
  · rename_i c rest hd
    rw [hd] at h'
    have : c ≠ chComma := by simpa using h'
    simp [this]

/-- A field at the cursor, at most as wide as the width, is given whole. -/
theorem getField_of_field {s : State} {f : List Byte} (w : Option Nat) (h : FieldAt s f)
    (hw : ∀ n, w = some n → f.length ≤ n) : getField w s = .ok (f, s.rxCursor + 1 + f.length) := by
  obtain ⟨before, after, ht, hc, hf, ha⟩ := h
  have hd : s.rxAscii.text.drop s.rxCursor = chComma :: (f ++ after) := by simp [ht, hc]
  have hfb : fieldBytes (w.getD (f ++ after).length) (f ++ after) = f := by
    rw [fieldBytes_of_field f after _ hf ha]
    cases w with
    | none => simp
    | some n => simpa using List.take_of_length_le (hw n rfl)
  unfold getField
  rw [hd]
  simp only [if_true, hfb, List.drop_left]
  rcases after with _ | ⟨b, after⟩
  · rfl
  · have : isFieldEnd b = true := by simpa [isFieldEnd] using ha
    simp [this]

/-- A field wider than the width. -/
theorem getField_of_wide {s : State} {f : List Byte} {n : Nat} (h : FieldAt s f) (hw : n < f.length) :
    getField (some n) s = .error .getSyntax := by
  obtain ⟨before, after, ht, hc, hf, ha⟩ := h
  have hd : s.rxAscii.text.drop s.rxCursor = chComma :: (f ++ after) := by simp [ht, hc]
  have hfb : fieldBytes n (f ++ after) = f.take n := fieldBytes_of_field f after _ hf ha
  unfold getField
  rw [hd]
  simp only [if_true, Option.getD_some, hfb]
  have hdrop : (f ++ after).drop (f.take n).length = f[n] :: (f.drop (n + 1) ++ after) := by
    have hl : (f.take n).length = n := by simp; omega
    rw [hl, List.drop_append_of_le_length (by omega), List.drop_eq_getElem_cons hw, List.cons_append]
  rw [hdrop]
  have : isFieldEnd f[n] = false := by simpa [isFieldEnd] using hf _ (List.getElem_mem hw)
  simp [this]

/-- The index `GetField` answers is within the text. -/
theorem getField_index_le {s : State} {w : Option Nat} {f : List Byte} {q : Nat} (h : getField w s = .ok (f, q)) :
    q ≤ s.rxAscii.text.length := by
  have key : ∀ c rest, s.rxAscii.text.drop s.rxCursor = c :: rest → ∀ g : List Byte, g.length ≤ rest.length →
      s.rxCursor + 1 + g.length ≤ s.rxAscii.text.length := by
    intro c rest hd g hg
    have := congrArg List.length hd
    simp at this
    omega
  unfold getField at h
  split at h
  · cases h
  · rename_i c rest hd
    split at h
    · dsimp only at h
      split at h
      · cases h
        exact key _ _ hd _ (fieldBytes_length_le _ _)
      · split at h
        · cases h
          exact key _ _ hd _ (fieldBytes_length_le _ _)
        · cases h
    · cases h

/-! ## Integer readings -/

theorem isDigit_iff (b : Byte) : isDigit b = true ↔ 0x30 ≤ b.toNat ∧ b.toNat ≤ 0x39 := by simp [isDigit]

theorem isNumber_iff_digits (f : List Byte) : isNumber f = true ↔ Digits f := by
  rw [isNumber_iff]
  simp only [isDigit_iff]

/-- The bytes of a number are neither a sign nor any other byte that is no digit. -/
theorem Digits.ne {f : List Byte} (h : Digits f) {b c : Byte} (hb : b ∈ f) (hc : isDigit c = false) : b ≠ c :=
  isDigit_ne ((isDigit_iff b).mpr (h.2 b hb)) hc

theorem splitSign_of_digits {f : List Byte} (h : Digits f) : splitSign f = (false, f) := by
  rcases f with _ | ⟨c, r⟩
  · rfl
  · simp [splitSign, h.ne (b := c) (by simp) (c := chMinus) rfl]

theorem splitSign_minus (f : List Byte) : splitSign (chMinus :: f) = (true, f) := by simp [splitSign]

/-- A field is what its sign and the rest spell. -/
theorem splitSign_spells (f : List Byte) :
    f = (if (splitSign f).1 then [chMinus] else []) ++ (splitSign f).2 := by
  rcases f with _ | ⟨c, r⟩
  · rfl
  · by_cases h : c = chMinus <;> simp [splitSign, h]

/-! ## What a rendering holds -/

theorem not_mem_dec {b : Byte} (h : isDigit b = false) (n : Nat) : b ∉ dec n := fun hb => by
  simp [isDigit_of_mem_dec n b hb] at h

theorem not_mem_sdec {b : Byte} (h : isDigit b = false) (hm : b ≠ chMinus) (n : Int) : b ∉ sdec n := by
  unfold sdec
  split <;> simp [not_mem_dec h, hm]

theorem not_mem_pad6 {b : Byte} (h : isDigit b = false) (n : Nat) : b ∉ pad6 n := fun hb => by
  simp [isDigit_of_mem_pad6 n b hb] at h

theorem not_mem_fmtF {b : Byte} (h : isDigit b = false) (hb : b ∉ [chMinus, chDot] ++ chInf ++ chNan) (ties : Ties)
    (x : U32) : b ∉ fmtF ties x := by
  simp only [List.mem_append, List.mem_cons, List.not_mem_nil, or_false, not_or] at hb
  obtain ⟨⟨⟨h1, h2⟩, h3⟩, h4⟩ := hb
  unfold fmtF
  simp only [List.mem_append, not_or]
  refine ⟨by split <;> simp [h1], ?_⟩
  split
  · split
    · exact h3
    · exact h4
  · simp [not_mem_dec h, not_mem_pad6 h, h2]

end Sys2Proof.Machine
end

