-- ==== Sys2Proof/Laws/Encoding.lean ====
section
/-! SUPPORT. What each operand reader answers, and the shape of a record each row of the opcode map accepts. -/

namespace Sys2Proof

@[simp] theorem readBits_toNat {w : Nat} (v : BitVec w) : readBits w (some v.toNat) = some v := by
  simp [readBits, v.isLt]

/-- A value read is the value's bit pattern. -/
theorem readBits_eq {w : Nat} {x : Option Nat} {v : BitVec w} (h : readBits w x = some v) : x = some v.toNat := by
  cases x <;> simp [readBits] at h
  obtain ⟨h1, rfl⟩ := h
  simp [Nat.mod_eq_of_lt h1]

theorem readFlag_eq {x : Option Nat} {v : Bool} (h : readFlag x = some v) : x = some v.toNat := by
  unfold readFlag at h
  split at h <;> cases h <;> rfl

/-- An operand within its type is read. -/
theorem readBits_of_lt {w n : Nat} (h : n < 2 ^ w) : readBits w (some n) = some (BitVec.ofNat w n) := by
  simp [readBits, h]

theorem decode0_eq {i j : Instr} {vs : List (Option Nat)} (h : decode0 i vs = some j) : vs = [] ∧ i = j := by
  cases vs <;> simp_all [decode0]

theorem decode1_eq {α : Type} {mk : α → Instr} {r : Option Nat → Option α} {vs : List (Option Nat)} {j : Instr}
    (h : decode1 mk r vs = some j) : ∃ x a, vs = [x] ∧ r x = some a ∧ j = mk a := by
  unfold decode1 at h
  split at h <;> simp at h
  obtain ⟨a, h1, h2⟩ := h
  exact ⟨_, a, rfl, h1, h2.symm⟩

theorem decode2_eq {α β : Type} {mk : α → β → Instr} {r : Option Nat → Option α} {q : Option Nat → Option β}
    {vs : List (Option Nat)} {j : Instr} (h : decode2 mk r q vs = some j) :
    ∃ x y a b, vs = [x, y] ∧ r x = some a ∧ q y = some b ∧ j = mk a b := by
  unfold decode2 at h
  split at h <;> simp [Option.bind_eq_some_iff] at h
  obtain ⟨a, h1, b, h2, h3⟩ := h
  exact ⟨_, _, a, b, rfl, h1, h2, h3.symm⟩

theorem decode3_eq {α β γ : Type} {mk : α → β → γ → Instr} {r : Option Nat → Option α} {q : Option Nat → Option β}
    {p : Option Nat → Option γ} {vs : List (Option Nat)} {j : Instr} (h : decode3 mk r q p vs = some j) :
    ∃ x y z a b c, vs = [x, y, z] ∧ r x = some a ∧ q y = some b ∧ p z = some c ∧ j = mk a b c := by
  unfold decode3 at h
  split at h <;> simp [Option.bind_eq_some_iff] at h
  obtain ⟨a, h1, b, h2, c, h3, h4⟩ := h
  exact ⟨_, _, _, a, b, c, rfl, h1, h2, h3, h4.symm⟩

/-- An opcode is known by its value. -/
theorem byte_eq_of_toNat {op : Byte} {n : Nat} (h : op.toNat = n) : op = BitVec.ofNat 8 n := by
  subst h
  simp

/-- A record decodes where its opcode has a reader that accepts its operands. -/
theorem decodeCommand_ok {r : CommandRecord} {i : Instr} (h : decodeCommand r = .ok i) :
    ∃ read, operandReader r.op.toNat = some read ∧ read r.operands = some i := by
  unfold decodeCommand at h
  split at h
  · cases h
  · rename_i read hr
    split at h
    · rename_i j hj
      cases h
      exact ⟨read, hr, hj⟩
    · cases h

end Sys2Proof
end

