-- ==== Sys2Proof/Laws/Exec.lean ====
section
/-! SUPPORT. Everything a command that is one ENGINE step can do: one inversion for the whole command set. -/

namespace Sys2Proof.Machine

/-- The body of the frame a TRANSMIT command sends, by kind. -/
theorem txAscii_eq (id : Byte) (s : State) :
    txEnd (txCsSeq s.txText (txBegin chHash id s)) = sentFrame (asciiBody (dec id.toNat) s.txText) s := by
  rw [txBegin_eq, txCsSeq_sent, txEnd_sent]
  simp [sentFrame, asciiBody]

theorem txAck_eq (id : Byte) (value : Bool) (s : State) :
    txEnd (txCsSeq [if value then chOne else chZero] (txCsSeq [chComma] (txBegin chQuestion id s))) =
      sentFrame (ackBody (dec id.toNat) value) s := by
  rw [txBegin_eq, txCsSeq_sent, txCsSeq_sent, txEnd_sent]
  simp [sentFrame, ackBody]

/-- What an append does: it fits, or it empties the text. -/
theorem appendParam_fits {r : List Byte} {s : State} (h : s.txText.length + 1 + r.length ≤ s.config.textCap) :
    appendParam r s = finishOk { s with txText := s.txText ++ chComma :: r } := by
  simp [appendParam, Nat.not_lt.mpr h]

theorem appendParam_full {r : List Byte} {s : State} (h : s.config.textCap < s.txText.length + 1 + r.length) :
    appendParam r s = finishFail .textFull { s with txText := [] } := by simp [appendParam, h]

/-- What a numeric GET does, for any field reading. -/
theorem getValue_cases (width : Nat) (parse : List Byte → Except FailCode U32) (s : State) :
    (∃ c, (getField (some width) s = .error c ∨ ∃ f q, getField (some width) s = .ok (f, q) ∧ parse f = .error c) ∧
      getValue width parse s = finishFail c s) ∨
    ∃ f q v, getField (some width) s = .ok (f, q) ∧ parse f = .ok v ∧ getValue width parse s = getOk v q s := by
  unfold getValue
  split
  · rename_i c h
    exact .inl ⟨c, .inl h, rfl⟩
  · rename_i f q h
    split
    · rename_i c hp
      exact .inl ⟨c, .inr ⟨f, q, h, hp⟩, rfl⟩
    · rename_i v hp
      exact .inr ⟨f, q, v, h, hp, rfl⟩

/-- The failures of a field. -/
theorem getField_error {s : State} {w : Option Nat} {c : FailCode} (h : getField w s = .error c) :
    c = .getNoField ∨ (c = .getSyntax ∧ w ≠ none) := by
  unfold getField at h
  split at h
  · cases h; simp
  · rename_i b rest hd
    split at h
    · dsimp only at h
      split at h
      · cases h
      · rename_i e tail ht
        split at h
        · cases h
        · rename_i he
          cases h
          refine .inr ⟨rfl, ?_⟩
          rintro rfl
          simp only [Option.getD_none] at ht
          have key : ∀ (n : Nat) (r : List Byte), r.length ≤ n →
              r.drop (fieldBytes n r).length = e :: tail → isFieldEnd e = true := by
            intro n
            induction n with
            | zero => intro r hr hd; simp at hr; subst hr; simp at hd
            | succ n ih =>
              intro r hr hd
              rcases r with _ | ⟨x, r⟩
              · simp at hd
              · simp only [fieldBytes] at hd
                split at hd
                · rename_i hx
                  simp at hd
                  rw [← hd.1]; exact hx
                · exact ih r (by simpa using hr) (by simpa using hd)
          exact he (key _ _ le_rfl ht)
    · cases h; simp

theorem parseUnsigned_error {max : Nat} {f : List Byte} {c : FailCode} (h : parseUnsigned max f = .error c) :
    c = .getSyntax ∨ c = .getRange := by
  unfold parseUnsigned at h
  repeat' split at h
  all_goals first | (cases h; simp) | cases h

theorem parseSigned_error {lo hi : Int} {f : List Byte} {c : FailCode} (h : parseSigned lo hi f = .error c) :
    c = .getSyntax ∨ c = .getRange := by
  unfold parseSigned at h
  dsimp only at h
  repeat' split at h
  all_goals first | (cases h; simp) | cases h

theorem parseF_error {f : List Byte} {c : FailCode} (h : parseF f = .error c) : c = .getSyntax := by
  unfold parseF at h
  split at h
  · cases h; rfl
  · cases h

/-- Every way a command that is one step can end. -/
inductive CommandEnd (i : Instr) (s : State) : State → Prop where
  | fault (h : mayFault i = true) : CommandEnd i s (enterFault .memRange s)
  | fail (c : FailCode) (hc : c ∈ failureCodes i) (h : writesOk i = true) : CommandEnd i s (finishFail c s)
  | full (hc : .textFull ∈ failureCodes i) (h : writesOk i = true) :
      CommandEnd i s (finishFail .textFull { s with txText := [] })
  | append (r : List Byte) (hr : chNul ∉ r) (hl : s.txText.length + 1 + r.length ≤ s.config.textCap)
      (h : writesOk i = true) : CommandEnd i s (finishOk { s with txText := s.txText ++ chComma :: r })
  | value (v : U32) (q : Nat) (hv : writesValue i = true) (h : writesOk i = true)
      (hq : q ≤ s.rxAscii.text.length) : CommandEnd i s (getOk v q s)
  | copied (dest : Nat) (bs : List Byte) (q : Nat) (hi : ∃ len, i = .getString dest len)
      (hq : q ≤ s.rxAscii.text.length) (hm : dest + bs.length ≤ s.config.hostMemSize) :
      CommandEnd i s (finishOk { s with hostMem := s.hostMem.setSeq dest bs, rxCursor := q })
  | assignRx (d : RxDesc) (h : writesOk i = false) : CommandEnd i s (finishQuiet { s with binRxDesc := d })
  | assignTx (d : TxDesc) (h : writesOk i = false) : CommandEnd i s (finishQuiet { s with binTxDesc := d })
  | sentQuiet (body t : List Byte) (ht : t = s.txText ∨ t = []) (h : writesOk i = false) :
      CommandEnd i s (finishQuiet { sentFrame body s with txText := t })
  | sentOk (body t : List Byte) (ht : t = s.txStr ∨ t.length ≤ s.config.strCap) (h : writesOk i = true) :
      CommandEnd i s (finishOk { sentFrame body s with txStr := t })

theorem appendParam_ends {i : Instr} {s : State} {r : List Byte} (hr : chNul ∉ r) (hc : .textFull ∈ failureCodes i)
    (h : writesOk i = true) : CommandEnd i s (appendParam r s) := by
  by_cases hl : s.txText.length + 1 + r.length ≤ s.config.textCap
  · rw [appendParam_fits hl]; exact .append r hr hl h
  · rw [appendParam_full (by omega)]; exact .full hc h

theorem getValue_ends {i : Instr} {s : State} {width : Nat} {parse : List Byte → Except FailCode U32}
    (hp : ∀ f c, parse f = .error c → c ∈ failureCodes i) (hn : .getNoField ∈ failureCodes i)
    (hs : .getSyntax ∈ failureCodes i) (hv : writesValue i = true) (h : writesOk i = true) :
    CommandEnd i s (getValue width parse s) := by
  obtain ⟨c, hc, e⟩ | ⟨f, q, v, h1, h2, e⟩ := getValue_cases width parse s <;> rw [e]
  · refine .fail c ?_ h
    obtain hc | ⟨f, q, h1, h2⟩ := hc
    · obtain rfl | ⟨rfl, _⟩ := getField_error hc
      · exact hn
      · exact hs
    · exact hp _ _ h2
  · exact .value v q hv h (getField_index_le h1)

theorem unsigned_codes {m : Nat} {f : List Byte} {c : FailCode} (h : parseUnsigned m f = .error c) :
    c ∈ [FailCode.getNoField, .getSyntax, .getRange] := by
  obtain rfl | rfl := parseUnsigned_error h <;> simp

theorem signed_codes {lo hi : Int} {f : List Byte} {c : FailCode} (h : parseSigned lo hi f = .error c) :
    c ∈ [FailCode.getNoField, .getSyntax, .getRange] := by
  obtain rfl | rfl := parseSigned_error h <;> simp

theorem transmitAscii_ends (id : Byte) (s : State) :
    ∃ t, exec (.transmitAscii id) s = .next t ∧ CommandEnd (.transmitAscii id) s t := by
  refine ⟨_, ?_, .sentQuiet (asciiBody (dec id.toNat) s.txText) [] (.inr rfl) rfl⟩
  simp only [exec, execTransmitAscii, txAscii_eq]

theorem transmitAck_ends (id : Byte) (value : Bool) (s : State) :
    ∃ t, exec (.transmitAck id value) s = .next t ∧ CommandEnd (.transmitAck id value) s t := by
  refine ⟨_, ?_, .sentQuiet (ackBody (dec id.toNat) value) s.txText (.inl rfl) rfl⟩
  simp only [exec, execTransmitAck, txAck_eq]
  rfl

theorem transmitTxStr_ends (i : Instr) (id : Byte) (t : List Byte) (s : State) (ht : t = s.txStr ∨ t.length ≤ s.config.strCap)
    (h : writesOk i = true) : CommandEnd i s (transmitTxStr id { s with txStr := t }) := by
  have e : transmitTxStr id { s with txStr := t } =
      finishOk { sentFrame (lengthPrefixedBody chQuote id t) s with txStr := t } := by
    rw [transmitTxStr, txLengthPrefixed_eq]; rfl
  rw [e]
  exact .sentOk _ t ht h

theorem transmitBinary_ends (id : Byte) (s : State) :
    ∃ t, exec (.transmitBinary id) s = .next t ∧ CommandEnd (.transmitBinary id) s t := by
  simp only [exec, execTransmitBinary, memReadSeq_eq, txLengthPrefixed_eq]
  split
  · exact ⟨_, rfl, .fail .txNoBuffer (by simp [failureCodes]) rfl⟩
  · split
    · rename_i r h
      split at h <;> cases h
      exact ⟨_, rfl, .fault rfl⟩
    · exact ⟨_, rfl, .sentOk _ s.txStr (.inl rfl) rfl⟩

theorem transmitStringText_ends (id : Byte) (text : Nat) (s : State) :
    ∃ t, exec (.transmitStringText id text) s = .next t ∧ CommandEnd (.transmitStringText id text) s t := by
  simp only [exec, execTransmitStringText]
  rcases readText_cases s s.config.strCap text with h | h | ⟨bs, h, hl, _⟩ <;> rw [h]
  · exact ⟨_, rfl, .fault rfl⟩
  · exact ⟨_, rfl, .fail .textTooLong (by simp [failureCodes]) rfl⟩
  · exact ⟨_, rfl, transmitTxStr_ends _ id bs s (.inr hl) rfl⟩

theorem addString_ends (text : Nat) (s : State) :
    ∃ t, exec (.addString text) s = .next t ∧ CommandEnd (.addString text) s t := by
  simp only [exec, execAddString]
  split
  · exact ⟨_, rfl, appendParam_ends (by simp) (by simp [failureCodes]) rfl⟩
  · rcases readText_cases s (s.config.textCap - s.txText.length - 1) text with e | e | ⟨bs, e, _, hn⟩ <;> rw [e]
    · exact ⟨_, rfl, .fault rfl⟩
    · exact ⟨_, rfl, .full (by simp [failureCodes]) rfl⟩
    · exact ⟨_, rfl, appendParam_ends hn (by simp [failureCodes]) rfl⟩

theorem getString_ends (dest : Nat) (len : U16) (s : State) :
    ∃ t, exec (.getString dest len) s = .next t ∧ CommandEnd (.getString dest len) s t := by
  simp only [exec, execGetString]
  split
  · exact ⟨_, rfl, .fail .getBadLen (by simp [failureCodes]) rfl⟩
  · split
    · rename_i c h
      obtain rfl | ⟨rfl, h⟩ := getField_error h
      · exact ⟨_, rfl, .fail .getNoField (by simp [failureCodes]) rfl⟩
      · rename_i h0; exact absurd rfl h0
    · rename_i f q h
      rw [memWriteSeq_eq]
      by_cases hm : dest + (stringBytes f len).length ≤ s.config.hostMemSize
      · rw [if_pos (.inr hm)]
        exact ⟨_, rfl, .copied dest _ q ⟨len, rfl⟩ (getField_index_le h) hm⟩
      · rw [if_neg (by simp [stringBytes] at hm ⊢; exact hm)]
        exact ⟨_, rfl, .fault rfl⟩

/-- A command that is one step answers a next state, one of the ends above. -/
theorem exec_ends (i : Instr) (s : State) (hi : isSingleStep i = true) : ∃ t, exec i s = .next t ∧ CommandEnd i s t := by
  cases i with
  | receive | frameAscii | frameAck | frameBinary | frameString => cases hi
  | transmitAscii id => exact transmitAscii_ends id s
  | transmitAck id value => exact transmitAck_ends id value s
  | transmitBinary id => exact transmitBinary_ends id s
  | transmitString id => exact ⟨transmitTxStr id s, rfl, transmitTxStr_ends _ id s.txStr s (.inl rfl) rfl⟩
  | transmitStringText id text => exact transmitStringText_ends id text s
  | assignBinaryRxBuffer buf cap => exact ⟨_, rfl, .assignRx _ rfl⟩
  | assignBinaryTxBuffer buf cap length => exact ⟨_, rfl, .assignTx _ rfl⟩
  | addUint8 v | addUint16 v | addUint32 v =>
    exact ⟨appendParam (dec v.toNat) s, rfl, appendParam_ends (not_mem_dec rfl _) (by simp [failureCodes]) rfl⟩
  | addInt8 v | addInt16 v | addInt32 v =>
    exact ⟨appendParam (sdec v.toInt) s, rfl,
      appendParam_ends (not_mem_sdec rfl (by decide) _) (by simp [failureCodes]) rfl⟩
  | addFloat x =>
    exact ⟨appendParam (fmtF s.config.floatFmtTies x) s, rfl,
      appendParam_ends (not_mem_fmtF rfl (by decide) _ _) (by simp [failureCodes]) rfl⟩
  | addString text => exact addString_ends text s
  | getUint8 =>
    exact ⟨getValue 3 (parseUnsigned 255) s, rfl,
      getValue_ends (fun _ _ h => unsigned_codes h) (by simp [failureCodes]) (by simp [failureCodes]) rfl rfl⟩
  | getUint16 =>
    exact ⟨getValue 5 (parseUnsigned 65535) s, rfl,
      getValue_ends (fun _ _ h => unsigned_codes h) (by simp [failureCodes]) (by simp [failureCodes]) rfl rfl⟩
  | getUint32 =>
    exact ⟨getValue 10 (parseUnsigned 4294967295) s, rfl,
      getValue_ends (fun _ _ h => unsigned_codes h) (by simp [failureCodes]) (by simp [failureCodes]) rfl rfl⟩
  | getInt8 =>
    exact ⟨getValue 4 (parseSigned (-128) 127) s, rfl,
      getValue_ends (fun _ _ h => signed_codes h) (by simp [failureCodes]) (by simp [failureCodes]) rfl rfl⟩
  | getInt16 =>
    exact ⟨getValue 6 (parseSigned (-32768) 32767) s, rfl,
      getValue_ends (fun _ _ h => signed_codes h) (by simp [failureCodes]) (by simp [failureCodes]) rfl rfl⟩
  | getInt32 =>
    exact ⟨getValue 11 (parseSigned (-2147483648) 2147483647) s, rfl,
      getValue_ends (fun _ _ h => signed_codes h) (by simp [failureCodes]) (by simp [failureCodes]) rfl rfl⟩
  | getFloat =>
    exact ⟨getValue 15 parseF s, rfl,
      getValue_ends (fun f c h => by simp [failureCodes, parseF_error h]) (by simp [failureCodes])
        (by simp [failureCodes]) rfl rfl⟩
  | getString dest len => exact getString_ends dest len s

/-- What a served request of the HOST can do: a command's own effect, from the state without the request. -/
theorem serveHost_cases {s t : State} (h : serveHost s = .next t) :
    (s.port = [] ∧ t = s) ∨
    (∃ r rest i, s.port = .command r :: rest ∧ decodeCommand r = .ok i ∧ exec i { s with port := rest } = .next t) ∨
    (∃ bs rest, s.port = .writeTxStr bs :: rest ∧ bs.length ≤ s.config.strCap ∧ t = { s with port := rest, txStr := bs }) ∨
    ∃ a bs rest, s.port = .poke a bs :: rest ∧ (a + bs.length ≤ s.config.hostMemSize ∨ bs = []) ∧
      t = { s with port := rest, hostMem := s.hostMem.setSeq a bs } := by
  unfold serveHost at h
  split at h
  · cases h; exact .inl ⟨by assumption, rfl⟩
  · rename_i r rest hp
    unfold runCommand at h
    split at h
    · cases h
    · rename_i i hi
      exact .inr (.inl ⟨r, rest, i, hp, hi, h⟩)
  · rename_i bs rest hp
    unfold hostWriteTxStr at h
    split at h
    · cases h
    · rename_i hl
      cases h
      exact .inr (.inr (.inl ⟨bs, rest, hp, by simpa using hl, rfl⟩))
  · rename_i a bs rest hp
    unfold hostPoke at h
    split at h
    · rename_i hl
      cases h
      exact .inr (.inr (.inr ⟨a, bs, rest, hp, hl, rfl⟩))
    · cases h

/-- A command that is decoded from the port is RECEIVE or one step. -/
theorem decodeCommand_kind {r : CommandRecord} {i : Instr} (h : decodeCommand r = .ok i) :
    i = .receive ∨ isSingleStep i = true := by
  obtain ⟨read, hr, hj⟩ := decodeCommand_ok h
  unfold operandReader at hr
  split at hr <;> simp only [Option.some.injEq, reduceCtorEq] at hr <;> subst hr <;>
    first
      | (obtain ⟨_, rfl⟩ := decode0_eq hj; simp [isSingleStep])
      | (obtain ⟨_, _, _, _, rfl⟩ := decode1_eq hj; exact .inr rfl)
      | (obtain ⟨_, _, _, _, _, _, _, rfl⟩ := decode2_eq hj; exact .inr rfl)
      | (obtain ⟨_, _, _, _, _, _, _, _, _, _, rfl⟩ := decode3_eq hj; exact .inr rfl)

/-- RECEIVE's first step ends at once or goes on to the scan. -/
theorem execReceive_cases (s : State) :
    (s.rxFifo = [] ∧ exec .receive s = .next (failReceive .noInput (resetRxRecords (armDeadline s)))) ∨
    (s.rxFifo ≠ [] ∧ exec .receive s = .next (awaitAt .scan (csReset (resetRxRecords (armDeadline s))))) := by
  cases h : s.rxFifo with
  | nil => exact .inl ⟨rfl, by simp [exec, execReceive, rxEmpty, resetRxRecords, armDeadline, h]⟩
  | cons b rest => exact .inr ⟨by simp, by simp [exec, execReceive, rxEmpty, resetRxRecords, armDeadline, h]⟩

end Sys2Proof.Machine
end

