-- ==== Sys2Proof/Laws/Run.lean ====
section
/-! SUPPORT. Runs: how they compose, what ticks alone do, when the deadline has passed, and the scan over noise when nothing
is scheduled. -/

namespace Sys2Proof.Machine

theorem runs_add {m n : Nat} {s t u : State} (h1 : runs m s t) (h2 : runs n t u) : runs (m + n) s u := by
  induction m generalizing s with
  | zero => cases h1; simpa using h2
  | succ m ih =>
    obtain ⟨v, hv, h1⟩ := h1
    rw [Nat.succ_add]
    exact ⟨v, hv, ih h1⟩

theorem runs_one {s t : State} (h : step s = .next t) : runs 1 s t := ⟨t, h, rfl⟩

/-- Ticks alone only advance the clock. -/
theorem runs_ticks (d : Nat) (s : State) (h : s.schedule = List.replicate d .tick) :
    runs d s { s with schedule := [], now := s.now + BitVec.ofNat 32 d } := by
  induction d generalizing s with
  | zero =>
    show s = _
    have : s.now + BitVec.ofNat 32 0 = s.now := by simp
    rw [this, ← show s.schedule = [] from h]
  | succ d ih =>
    rw [List.replicate_succ] at h
    refine ⟨_, step_tick h, ?_⟩
    have := ih (linkTick { s with schedule := List.replicate d .tick }) rfl
    have e : (linkTick { s with schedule := List.replicate d .tick }).now + BitVec.ofNat 32 d =
        s.now + BitVec.ofNat 32 (d + 1) := by
      simp only [linkTick]
      rw [BitVec.add_assoc, BitVec.add_comm 1#32]
      congr 1
      exact (BitVec.ofNat_add _ _).symm
    rw [e] at this
    exact this

/-- A tick brings a deadline one millisecond nearer. -/
theorem deadline_after_tick {deadline now : U32} {d : Nat} (h : deadline = now + BitVec.ofNat 32 (d + 1)) :
    deadline = (now + 1#32) + BitVec.ofNat 32 d := by
  rw [h, BitVec.add_assoc, BitVec.add_comm 1#32]
  exact congrArg _ (BitVec.ofNat_add _ _)

/-- A deadline 1 to 2^31 ms ahead has not passed (20_memory.md R93). -/
theorem expired_ahead {s : State} {d : Nat} (h : s.deadline = s.now + BitVec.ofNat 32 d) (h1 : 1 ≤ d)
    (h2 : d ≤ 2 ^ 31) : expired s = false := by
  simp only [expired, decide_eq_false_iff_not, h]
  have := s.now.isLt
  simp only [BitVec.toNat_sub, BitVec.toNat_add, BitVec.toNat_ofNat]
  omega

/-- A deadline less than 2^31 ms ago has passed (20_memory.md R93). -/
theorem expired_since {s : State} {d : Nat} (h : s.now = s.deadline + BitVec.ofNat 32 d) (h1 : d < 2 ^ 31) :
    expired s = true := by
  simp only [expired, decide_eq_true_eq, h]
  have := s.deadline.isLt
  simp only [BitVec.toNat_sub, BitVec.toNat_add, BitVec.toNat_ofNat]
  omega

theorem expired_now {s : State} (h : s.deadline = s.now) : expired s = true :=
  expired_since (d := 0) (by simp [h]) (by decide)

/-- A field's digits, as they are sent, are read back. -/
theorem decField_dec {max n : Nat} (h : n ≤ max) : decField max (dec n) = .ok n := by
  simp [decField, isNumber_dec, decVal_dec_eq, Nat.not_lt.mpr h]

theorem decField_malformed {max : Nat} {acc : List Byte} (h : ¬ Digits acc) : decField max acc = .error .malformed := by
  have : isNumber acc = false := by rw [← Bool.not_eq_true, isNumber_iff_digits]; exact h
  simp [decField, this]

theorem decField_range {max : Nat} {acc : List Byte} (h : Digits acc) (hr : max < decVal acc) :
    decField max acc = .error .range := by
  simp [decField, (isNumber_iff_digits acc).mpr h, hr]

theorem decField_ok {max : Nat} {acc : List Byte} (h : Digits acc) (hr : decVal acc ≤ max) :
    decField max acc = .ok (decVal acc) := by
  simp [decField, (isNumber_iff_digits acc).mpr h, Nat.not_lt.mpr hr]

/-- The scan discards a byte that is no delimiter. -/
theorem step_noise {s : State} {b : Byte} {rest : List Byte} (hs : s.schedule = []) (hp : s.phase = .busy .scan)
    (hx : expired s = false) (hf : s.rxFifo = b :: rest)
    (hb : b ≠ chHash ∧ b ≠ chQuestion ∧ b ≠ chBang ∧ b ≠ chQuote) :
    step s = .next { s with rxFifo := rest, csA := 0#8, csB := 0#8 } := by
  rw [step_busy (engineNext_self hs (onlyWaits_of_queued hp (by simp [hf]))) hp]
  simp only [receiveStep, scanStep_byte hx hf]
  obtain ⟨h1, h2, h3, h4⟩ := hb
  simp [scanByte, decodeWire, h1, h2, h3, h4, csReset, csUpdate]

end Sys2Proof.Machine
end

