-- ==== Sys2Proof/Laws/Frames.lean ====
section
/-! SUPPORT. How RECEIVE works through a frame whose bytes are queued or still arrive, whatever LINK and ENGINE do meanwhile
before the deadline. -/

namespace Sys2Proof.Machine

/-- `s` with RECEIVE at the wait loop `k`, the accumulators `p`, the queue `fifo`, the schedule `turns` and the clock at
`now`. -/
def enRoute (k : ReceiveAt) (p : Byte × Byte) (fifo : List Byte) (turns : List Turn) (now : U32) (s : State) : State :=
  { s with phase := .busy k, csA := p.1, csB := p.2, rxFifo := fifo, schedule := turns, now := now }

theorem enRoute_self {s : State} {k : ReceiveAt} (h : s.phase = .busy k) :
    enRoute k (s.csA, s.csB) s.rxFifo s.schedule s.now s = s := by
  rw [enRoute, ← h]

/-- In time before and after a move of the schedule. -/
theorem inTime_tail {deadline now : U32} {m : Turn} {turns : List Turn} (h : InTime deadline now (m :: turns)) :
    InTime deadline (if m = .tick then now + 1#32 else now) turns := by
  obtain ⟨hr, d, h1, h2, h3⟩ := h
  refine ⟨fun hm => hr (by simp [hm]), ?_⟩
  by_cases hm : m = .tick
  · subst hm
    rw [List.count_cons_self] at h1
    refine ⟨d - 1, by omega, by omega, ?_⟩
    rw [if_pos rfl]
    exact deadline_after_tick (by rw [h3]; congr 2; omega)
  · rw [List.count_cons_of_ne (by simpa using hm)] at h1
    rw [if_neg hm]
    exact ⟨d, h1, h2, h3⟩

theorem expired_of_inTime {s : State} {turns : List Turn} (h : InTime s.deadline s.now turns) : expired s = false := by
  obtain ⟨-, d, h1, h2, h3⟩ := h
  exact expired_ahead h3 (by omega) h2

/-- The ENGINE comes to a poll that does not wait: a byte is queued, or the field is full. By the end of `before` a byte
is there and the deadline has not passed, and a poll follows. -/
theorem runs_to_poll (k : ReceiveAt) (p : Byte × Byte) (s : State) (before after : List Turn) (fifo : List Byte)
    (now : U32) (hd : InTime s.deadline now before) (hne : fifo ++ arrivals before ≠ [])
    (ha : after = [] ∨ after.head? = some .engine) :
    ∃ m t turns' fifo' now', runs m (enRoute k p fifo (before ++ after) now s) t ∧
      EngineNext t (enRoute k p fifo' turns' now' s) ∧
      fifo' ++ arrivals turns' = fifo ++ arrivals (before ++ after) ∧
      (∀ d, InTime d now (before ++ after) → InTime d now' turns') ∧
      expired (enRoute k p fifo' turns' now' s) = false ∧
      (fifo' ≠ [] ∨ ∃ use acc, k = .field use acc ∧ acc.length = fieldMaxDigits s.config use) := by
  induction before generalizing fifo now with
  | nil =>
    have hx : ∀ turns, expired (enRoute k p fifo turns now s) = false := fun turns => expired_of_inTime hd
    have hf : fifo ≠ [] := by simpa [arrivals] using hne
    rcases after with _ | ⟨m, after⟩
    · exact ⟨0, _, [], fifo, now, rfl, engineNext_self rfl (onlyWaits_of_queued (k := k) rfl hf), rfl, fun _ h => h, hx _, .inl hf⟩
    · obtain rfl : m = .engine := by simpa using ha
      refine ⟨0, _, after, fifo, now, rfl, .inr ⟨after, rfl, rfl⟩, rfl, fun d h => ?_, hx _, .inl hf⟩
      exact inTime_tail h
  | cons m before ih =>
    have hd' := inTime_tail hd
    cases m with
    | arrive b =>
      obtain ⟨n, t, turns', fifo', now', h1, h2, h3, h4, h5⟩ :=
        ih (fifo ++ [b]) now hd' (by simp)
      refine ⟨n + 1, t, turns', fifo', now', ⟨_, step_arrive rfl, h1⟩, h2, by rw [h3]; simp [arrivals], ?_, h5⟩
      exact fun d h => h4 d (inTime_tail h)
    | tick =>
      obtain ⟨n, t, turns', fifo', now', h1, h2, h3, h4, h5⟩ := ih fifo (now + 1#32) hd' (by simpa [arrivals] using hne)
      refine ⟨n + 1, t, turns', fifo', now', ⟨_, step_tick rfl, h1⟩, h2, by rw [h3]; simp [arrivals], ?_, h5⟩
      exact fun d h => h4 d (inTime_tail h)
    | reset => exact absurd (by simp) hd.1
    | engine =>
      have he : EngineNext (enRoute k p fifo (.engine :: before ++ after) now s)
          (enRoute k p fifo (before ++ after) now s) := .inr ⟨_, rfl, rfl⟩
      have hx : ∀ turns, expired (enRoute k p fifo turns now s) = false := fun turns => expired_of_inTime hd
      by_cases hf : fifo ≠ [] ∨ ∃ use acc, k = .field use acc ∧ acc.length = fieldMaxDigits s.config use
      · exact ⟨0, _, before ++ after, fifo, now, rfl, he, by simp [arrivals], fun d h => inTime_tail h, hx _, hf⟩
      · simp only [not_or, not_not, not_exists, not_and] at hf
        have hw : step (enRoute k p fifo (.engine :: before ++ after) now s) =
            .next (enRoute k p fifo (before ++ after) now s) := by
          rw [step_busy he rfl]
          exact receiveStep_waiting hf.1 (hx _) hf.2
        obtain ⟨n, t, turns', fifo', now', h1, h2, h3, h4, h5⟩ := ih fifo now hd' (by simpa [arrivals] using hne)
        exact ⟨n + 1, t, turns', fifo', now', ⟨_, hw, h1⟩, h2, by rw [h3]; simp [arrivals],
          fun d h => h4 d (inTime_tail h), h5⟩

/-- `t` is `s` with RECEIVE at the wait loop `k`, the accumulators `p` and the bytes `bs` still to take, queued or
arriving, with the deadline ahead. -/
def Reaches (k : ReceiveAt) (p : Byte × Byte) (bs : List Byte) (s t : State) : Prop :=
  ∃ fifo turns now, t = enRoute k p fifo turns now s ∧ fifo ++ arrivals turns = bs ∧ InTime s.deadline now turns

/-- RECEIVE comes from one point of a frame to a later one. -/
def Leads (k : ReceiveAt) (p : Byte × Byte) (bs : List Byte) (s : State) (k' : ReceiveAt) (p' : Byte × Byte)
    (bs' : List Byte) (s' : State) : Prop :=
  ∀ t, Reaches k p bs s t → ∃ n t', runs n t t' ∧ Reaches k' p' bs' s' t'

theorem leads_refl (k : ReceiveAt) (p : Byte × Byte) (bs : List Byte) (s : State) : Leads k p bs s k p bs s :=
  fun t h => ⟨0, t, rfl, h⟩

theorem leads_trans {k k' k'' : ReceiveAt} {p p' p'' : Byte × Byte} {bs bs' bs'' : List Byte} {s s' s'' : State}
    (h1 : Leads k p bs s k' p' bs' s') (h2 : Leads k' p' bs' s' k'' p'' bs'' s'') :
    Leads k p bs s k'' p'' bs'' s'' := by
  intro t ht
  obtain ⟨n, u, hu, h⟩ := h1 t ht
  obtain ⟨m, v, hv, h⟩ := h2 u h
  exact ⟨n + m, v, runs_add hu hv, h⟩

/-- RECEIVE comes to a poll that does not wait, before the deadline. -/
theorem reaches_poll {k : ReceiveAt} {p : Byte × Byte} {bs : List Byte} {s t : State} (hbs : bs ≠ [])
    (h : Reaches k p bs s t) : ∃ n t' fifo turns now, runs n t t' ∧ EngineNext t' (enRoute k p fifo turns now s) ∧
      fifo ++ arrivals turns = bs ∧ InTime s.deadline now turns ∧ expired (enRoute k p fifo turns now s) = false ∧
      (fifo ≠ [] ∨ ∃ use acc, k = .field use acc ∧ acc.length = fieldMaxDigits s.config use) := by
  obtain ⟨fifo, turns, now, rfl, h1, h2⟩ := h
  obtain ⟨n, t', turns', fifo', now', h3, h4, h5, h6, h7⟩ :=
    runs_to_poll k p s turns [] fifo now h2 (by rw [h1]; exact hbs) (.inl rfl)
  rw [List.append_nil] at h3 h5 h6
  exact ⟨n, t', fifo', turns', now', h3, h4, h5.trans h1, h6 _ h2, h7⟩

/-- A poll that takes a byte leads on, from a loop that is no full field. -/
theorem leads_byte {k k' : ReceiveAt} {p p' : Byte × Byte} {b : Byte} {rest : List Byte} {s s' : State}
    (hk : ∀ use acc, k = .field use acc → acc.length ≠ fieldMaxDigits s.config use) (hd : s'.deadline = s.deadline)
    (h : ∀ fifo turns now, expired (enRoute k p (b :: fifo) turns now s) = false →
      receiveStep k (enRoute k p (b :: fifo) turns now s) = .next (enRoute k' p' fifo turns now s')) :
    Leads k p (b :: rest) s k' p' rest s' := by
  intro t ht
  obtain ⟨n, t', fifo, turns, now, h1, h2, h3, h4, h5, h6⟩ := reaches_poll (by simp) ht
  rcases fifo with _ | ⟨c, fifo⟩
  · obtain h6 | ⟨use, acc, hk', hl⟩ := h6
    · exact absurd rfl h6
    · exact absurd hl (hk use acc hk')
  · obtain ⟨rfl, hrest⟩ := List.cons.inj h3
    refine ⟨n + 1, _, runs_add h1 (runs_one ?_), fifo, turns, now, rfl, hrest, by rw [hd]; exact h4⟩
    rw [step_busy h2 rfl]
    exact h _ _ _ h5

/-- The accumulators after bytes of a field. -/
def fieldCs (use : FieldUse) (p : Byte × Byte) (bs : List Byte) : Byte × Byte :=
  if fieldChecksummed use then csFold p bs else p

theorem fieldCs_body {use : FieldUse} (h : fieldChecksummed use = true) (p : Byte × Byte) (bs : List Byte) :
    fieldCs use p bs = csFold p bs := by simp [fieldCs, h]

theorem fieldCs_append (use : FieldUse) (p : Byte × Byte) (bs cs : List Byte) :
    fieldCs use p (bs ++ cs) = fieldCs use (fieldCs use p bs) cs := by
  cases h : fieldChecksummed use <;> simp [fieldCs, h, csFold_append]

/-- The loop of `ReadField` takes the bytes of a field. -/
theorem leads_field (s : State) (use : FieldUse) (ds rest acc : List Byte) (p : Byte × Byte)
    (hd : ∀ b ∈ ds, fieldTerminator use b = false) (hl : acc.length + ds.length ≤ fieldMaxDigits s.config use) :
    Leads (.field use acc) p (ds ++ rest) s (.field use (acc ++ ds)) (fieldCs use p ds) rest s := by
  induction ds generalizing acc p with
  | nil =>
    have : fieldCs use p [] = p := by simp [fieldCs]
    rw [this, List.append_nil]
    exact leads_refl _ _ _ _
  | cons b ds ih =>
    simp only [List.length_cons] at hl
    have hne : acc.length ≠ fieldMaxDigits s.config use := by omega
    refine leads_trans (leads_byte (k' := .field use (acc ++ [b])) (p' := fieldCs use p [b]) (s' := s) ?_ rfl ?_) ?_
    · rintro use' acc' h
      cases h
      exact hne
    · intro fifo turns now hx
      simp only [receiveStep]
      rw [pollField_byte (acc := acc) (b := b) (rest := fifo) hx hne rfl (hd b (by simp)), settle_ok]
      cases hc : fieldChecksummed use <;> simp [fieldCs, hc, enRoute, awaitAt, csUpdate, csFold, csStep]
    · have := ih (acc ++ [b]) (fieldCs use p [b]) (fun c hc => hd c (by simp [hc])) (by simp; omega)
      rwa [← fieldCs_append, List.append_assoc] at this

/-- A field and its terminator: what follows the field runs in the step that takes the terminator. -/
theorem reaches_field_end {s : State} (use : FieldUse) (ds rest : List Byte) (t : Byte) (p : Byte × Byte)
    (hd : ∀ b ∈ ds, fieldTerminator use b = false) (ht : fieldTerminator use t = true)
    (hl : ds.length ≤ fieldMaxDigits s.config use) (v : State) (hv : Reaches (.field use []) p (ds ++ t :: rest) s v) :
    ∃ n fifo turns now, runs n v (fieldDone use ds t
        (enRoute (.fieldEnd use ds) (fieldCs use p (ds ++ [t])) fifo turns now s)) ∧
      fifo ++ arrivals turns = rest ∧ InTime s.deadline now turns := by
  obtain ⟨n1, v1, r1, h1⟩ := leads_field s use ds (t :: rest) [] p hd (by simpa using hl) v hv
  rw [List.nil_append] at h1
  obtain ⟨n2, v2, fifo, turns, now, r2, he, hq, hin, hx, hf⟩ := reaches_poll (by simp) h1
  have hstop : step v2 = .next (enRoute (.fieldEnd use ds) (fieldCs use p ds) fifo turns now s) := by
    rw [step_busy he rfl]
    obtain hf | ⟨use', acc', hk, hl'⟩ := hf
    · rcases fifo with _ | ⟨c, fifo⟩
      · exact absurd rfl hf
      · obtain ⟨rfl, -⟩ := List.cons.inj hq
        simp only [receiveStep]
        rw [pollField_terminator (b := c) (rest := fifo) rfl ht]
        rfl
    · cases hk
      exact receiveStep_field_stops (.inr hl')
  obtain ⟨n3, v3, fifo, turns, now, r3, he, hq, hin, hx, hf⟩ :=
    reaches_poll (k := .fieldEnd use ds) (by simp) ⟨fifo, turns, now, rfl, hq, hin⟩
  rcases fifo with _ | ⟨c, fifo⟩
  · obtain hf | ⟨use', acc', hk, -⟩ := hf
    · exact absurd rfl hf
    · cases hk
  · obtain ⟨rfl, hrest⟩ := List.cons.inj hq
    refine ⟨_, fifo, turns, now, runs_add r1 (runs_add r2 (runs_add (runs_one hstop) (runs_add r3 (runs_one ?_)))), hrest, hin⟩
    rw [step_busy he rfl]
    simp only [receiveStep]
    rw [waitByte_byte (b := c) (rest := fifo) hx rfl]
    simp only [afterField, ht, if_true, settle_ok]
    congr 2
    cases hc : fieldChecksummed use <;> simp [fieldCs, hc, enRoute, csUpdate, csFold_append, csFold_cons, csStep]

/-- A field after which `ReadField`'s caller goes on to another loop. -/
theorem leads_field_end {s : State} (use : FieldUse) (ds rest : List Byte) (t : Byte) (p : Byte × Byte) (k' : ReceiveAt)
    (hd : ∀ b ∈ ds, fieldTerminator use b = false) (ht : fieldTerminator use t = true)
    (hl : ds.length ≤ fieldMaxDigits s.config use)
    (h : ∀ fifo turns now, fieldDone use ds t (enRoute (.fieldEnd use ds) (fieldCs use p (ds ++ [t])) fifo turns now s) =
      enRoute k' (fieldCs use p (ds ++ [t])) fifo turns now s) :
    Leads (.field use []) p (ds ++ t :: rest) s k' (fieldCs use p (ds ++ [t])) rest s := by
  intro v hv
  obtain ⟨n, fifo, turns, now, hr, hq, hin⟩ := reaches_field_end use ds rest t p hd ht hl v hv
  rw [h] at hr
  exact ⟨n, _, hr, fifo, turns, now, rfl, hq, hin⟩

/-- A byte taken by a checksummed wait loop other than `ReadField`'s. -/
theorem leads_wait {s s' : State} {k k' : ReceiveAt} {b : Byte} {rest : List Byte} {p : Byte × Byte}
    (f : Byte → State → Except Fault State) (hk : ∀ use acc, k ≠ .field use acc) (hd : s'.deadline = s.deadline)
    (hr : ∀ fifo turns now, receiveStep k (enRoute k p (b :: fifo) turns now s) =
      settle (enRoute k p (b :: fifo) turns now s) (waitByte true f (enRoute k p (b :: fifo) turns now s)))
    (hf : ∀ fifo turns now, f b (enRoute k (csStep p b) fifo turns now s) =
      .ok (enRoute k' (csStep p b) fifo turns now s')) :
    Leads k p (b :: rest) s k' (csStep p b) rest s' := by
  refine leads_byte (fun use acc h => absurd h (hk use acc)) hd fun fifo turns now hx => ?_
  rw [hr, waitByte_byte (b := b) (rest := fifo) hx rfl]
  have : (if true = true then csUpdate b { enRoute k p (b :: fifo) turns now s with rxFifo := fifo } else
      { enRoute k p (b :: fifo) turns now s with rxFifo := fifo }) = enRoute k (csStep p b) fifo turns now s := rfl
  rw [this, hf]
  rfl

/-- The payload bytes of an ASCII frame. -/
theorem leads_ascii (s : State) (id : Byte) (bs rest text : List Byte) (p : Byte × Byte) (hb : chSemi ∉ bs)
    (hl : text.length + bs.length ≤ s.config.textCap) :
    Leads (.asciiByte id (text.count chComma) text) p (bs ++ rest) s
      (.asciiByte id ((text ++ bs).count chComma) (text ++ bs)) (csFold p bs) rest s := by
  induction bs generalizing text p with
  | nil => simpa using leads_refl _ _ _ _
  | cons b bs ih =>
    simp only [List.length_cons] at hl
    have h1 : b ≠ chSemi := fun h => hb (by simp [h])
    have h2 : text.length ≠ s.config.textCap := by omega
    have h3 : (text ++ [b]).count chComma = if b = chComma then text.count chComma + 1 else text.count chComma := by
      rw [List.count_append, List.count_singleton]
      by_cases h : b = chComma <;> simp [h]
    have := ih (text ++ [b]) (csStep p b) (fun h => hb (by simp [h])) (by simp; omega)
    rw [List.append_assoc] at this
    refine leads_trans (leads_wait (afterAsciiByte id (text.count chComma) text) (by simp) rfl (fun _ _ _ => rfl) ?_) this
    intro fifo turns now
    rw [h3]
    simp only [afterAsciiByte, if_neg h1]
    rw [if_neg (by exact h2)]
    rfl

/-- The payload bytes of a string frame: all are taken, the first `STR_CAP` are kept. -/
theorem leads_string (s : State) (id : Byte) (length : U16) (bs done rest : List Byte) (p : Byte × Byte)
    (hl : done.length + bs.length = length.toNat) (hb : bs ≠ []) :
    Leads (.strByte id length done.length (done.take s.config.strCap)) p (bs ++ rest) s
      (.strEnd id length ((done ++ bs).take s.config.strCap)) (csFold p bs) rest s := by
  induction bs generalizing done p with
  | nil => exact absurd rfl hb
  | cons b bs ih =>
    simp only [List.length_cons] at hl
    have hdata : (if done.length < min length.toNat s.config.strCap then done.take s.config.strCap ++ [b]
        else done.take s.config.strCap) = (done ++ [b]).take s.config.strCap := by
      split
      · rw [List.take_of_length_le (by omega), List.take_of_length_le (by simp; omega)]
      · rw [List.take_append_of_le_length (by omega)]
    have h1 : Leads (.strByte id length done.length (done.take s.config.strCap)) p (b :: (bs ++ rest)) s
        (if done.length + 1 < length.toNat then .strByte id length (done.length + 1) ((done ++ [b]).take s.config.strCap)
          else .strEnd id length ((done ++ [b]).take s.config.strCap)) (csStep p b) (bs ++ rest) s := by
      refine leads_wait (afterStrByte id length done.length (done.take s.config.strCap)) (by simp) rfl
        (fun _ _ _ => rfl) fun fifo turns now => ?_
      rw [← hdata]
      rfl
    rcases bs with _ | ⟨c, bs⟩
    · rw [if_neg (by simp at hl; omega)] at h1
      exact h1
    · rw [if_pos (by simp at hl; omega)] at h1
      have := ih (done ++ [b]) (csStep p b) (by simp at hl ⊢; omega) (by simp)
      rw [List.append_assoc, List.length_append] at this
      exact leads_trans h1 this

/-- The payload bytes of a binary frame, stored one by one. -/
theorem leads_binary (s : State) (id : Byte) (length : U16) (bs rest : List Byte) (i : Nat) (p : Byte × Byte)
    (hl : i + bs.length = length.toNat) (hb : bs ≠ [])
    (hm : s.binRxDesc.base + length.toNat ≤ s.config.hostMemSize) :
    Leads (.binByte id length i) p (bs ++ rest) s (.binEnd id length) (csFold p bs) rest
      { s with hostMem := s.hostMem.setSeq (s.binRxDesc.base + i) bs } := by
  induction bs generalizing s i p with
  | nil => exact absurd rfl hb
  | cons b bs ih =>
    simp only [List.length_cons] at hl
    have h1 : Leads (.binByte id length i) p (b :: (bs ++ rest)) s
        (if i + 1 < length.toNat then .binByte id length (i + 1) else .binEnd id length) (csStep p b) (bs ++ rest)
        { s with hostMem := s.hostMem.set (s.binRxDesc.base + i) b } := by
      refine leads_wait (afterBinByte id length i) (by simp) rfl (fun _ _ _ => rfl) fun fifo turns now => ?_
      simp only [afterBinByte]
      rw [memWrite_of_lt _ (by show s.binRxDesc.base + i < s.config.hostMemSize; omega)]
      rfl
    rcases bs with _ | ⟨c, bs⟩
    · rw [if_neg (by simp at hl; omega)] at h1
      exact h1
    · rw [if_pos (by simp at hl; omega)] at h1
      exact leads_trans h1
        (ih { s with hostMem := s.hostMem.set (s.binRxDesc.base + i) b } (i + 1) (csStep p b)
          (by simp at hl ⊢; omega) (by simp) hm)

/-- The `;` that ends a payload starts the trailer, whose expected value is the checksum of the bytes so far. -/
theorem leads_payload_end (s : State) (k : ReceiveAt) (m : Parsed) (rest : List Byte) (p : Byte × Byte)
    (hk : ∀ use acc, k ≠ .field use acc)
    (hr : ∀ fifo turns now, receiveStep k (enRoute k p fifo turns now s) =
      settle (enRoute k p fifo turns now s) (waitByte true (afterPayloadEnd m) (enRoute k p fifo turns now s))) :
    Leads k p (chSemi :: rest) s
      (.field (.trailer ((csStep p chSemi).1 ++ (csStep p chSemi).2) m) []) (csStep p chSemi) rest s :=
  leads_wait (afterPayloadEnd m) hk rfl (fun _ _ _ => hr _ _ _) fun _ _ _ => rfl

/-- What ends a RECEIVE that has come to its trailer: a trailer of digits and its `;`. -/
theorem frame_ends {s : State} {m : Parsed} {body trailer rest : List Byte} {p : Byte × Byte} {k : ReceiveAt}
    {q : Byte × Byte} {bs : List Byte} {v v' : State} {n : Nat} (hrun : runs n v v') (hv : Reaches k q bs s v')
    (h : Leads k q bs s (.field (.trailer (checksumOf body) m) []) p (trailer ++ chSemi :: rest) s)
    (hd : Digits trailer) (hl : trailer.length ≤ s.config.csDigits) :
    ∃ n k p fifo turns now, runs n v (finishParsed m (decide (decVal trailer = (checksumOf body).toNat))
      (enRoute k p fifo turns now s)) ∧ fifo ++ arrivals turns = rest := by
  obtain ⟨n1, v1, r1, h1⟩ := h v' hv
  obtain ⟨n2, fifo, turns, now, r2, hq, -⟩ := reaches_field_end (.trailer (checksumOf body) m) trailer rest chSemi p
    (fun b hb => by simpa [fieldTerminator] using hd.ne hb (c := chSemi) rfl) rfl hl v1 h1
  have := runs_add hrun (runs_add r1 r2)
  simp only [fieldDone, (isNumber_iff_digits trailer).mpr hd, Bool.not_true, Bool.false_eq_true, if_false] at this
  exact ⟨_, _, _, fifo, turns, now, this, hq⟩

/-- The digits of a field are no terminators. -/
theorem digits_no_terminator {ds : List Byte} (h : Digits ds) (use : FieldUse) :
    ∀ b ∈ ds, fieldTerminator use b = false := by
  intro b hb
  have h1 := h.ne hb (c := chComma) rfl
  have h2 := h.ne hb (c := chSemi) rfl
  cases use <;> simp [fieldTerminator, h1, h2]

theorem withId_digits {ds : List Byte} (h : Digits ds) (hr : decVal ds ≤ 255) (s : State) (k : Byte → State) :
    withId ds s k = k (BitVec.ofNat 8 (decVal ds)) := by rw [withId, decField_ok h hr]

theorem withLength_digits {ds : List Byte} (h : Digits ds) (hr : decVal ds ≤ 65535) (s : State) (k : U16 → State) :
    withLength ds s k = k (BitVec.ofNat 16 (decVal ds)) := by rw [withLength, decField_ok h hr]

/-- The scan takes a delimiter that starts its sub-parser and changes nothing else. -/
theorem leads_delimiter (s : State) (b : Byte) (rest : List Byte) (p : Byte × Byte) (i : Instr) (k : ReceiveAt)
    (hi : decodeWire b = .ok i) (he : ∀ t, exec i t = .next (awaitAt k t)) :
    Leads .scan p (b :: rest) s k (csStep p b) rest s := by
  refine leads_byte (by simp) rfl fun fifo turns now hx => ?_
  simp only [receiveStep]
  rw [scanStep_byte (b := b) (rest := fifo) hx rfl, scanByte, hi]
  exact he _

/-- The scan takes `!`: by the end of `before` a byte is there and the deadline has not passed, and a poll follows. -/
theorem scan_takes_bang {s : State} {before after : List Turn} {rest : List Byte} (hp : s.phase = .busy .scan)
    (hs : s.schedule = before ++ after) (hd : InTime s.deadline s.now before) (hne : s.rxFifo ++ arrivals before ≠ [])
    (ha : after = [] ∨ after.head? = some .engine) (hd' : InTime (extendDeadline s).deadline s.now s.schedule)
    (hq : s.rxFifo ++ arrivals s.schedule = chBang :: rest) :
    ∃ n t, runs n s t ∧ Reaches (.field .binId []) (csStep (s.csA, s.csB) chBang) rest (extendDeadline s) t := by
  obtain ⟨n, t, turns, fifo, now, h1, h2, h3, h4, h5, h6⟩ :=
    runs_to_poll .scan (s.csA, s.csB) s before after s.rxFifo s.now hd hne ha
  rw [← hs, enRoute_self hp] at h1
  rw [← hs] at h3 h4
  rw [hq] at h3
  rcases fifo with _ | ⟨c, fifo⟩
  · obtain h6 | ⟨_, _, h6, _⟩ := h6
    · exact absurd rfl h6
    · cases h6
  · obtain ⟨rfl, hrest⟩ := List.cons.inj h3
    refine ⟨n + 1, enRoute (.field .binId []) (csStep (s.csA, s.csB) chBang) fifo turns now (extendDeadline s),
      runs_add h1 (runs_one ?_), fifo, turns, now, rfl, hrest, h4 _ hd'⟩
    rw [step_busy h2 rfl]
    simp only [receiveStep]
    rw [scanStep_byte (b := chBang) (rest := fifo) h5 rfl]
    rfl

end Sys2Proof.Machine
end

