-- ==== Sys2Proof/Laws/Liveness.lean ====
section
/-! SUPPORT. How far a RECEIVE still has to go: every poll comes nearer to its end, waits, or stays in one wait loop before
its deadline; and how the clock of a fair environment reaches a deadline. -/

namespace Sys2Proof.Machine

/-- How far a numeric field is from the end of a RECEIVE. -/
def fieldRank : FieldUse → Nat
  | .trailer _ _ => 0
  | .binLen _ | .strLen _ => 65540
  | .asciiId | .ackId | .binId | .strId => 65542

/-- How far a wait loop is from the end of a RECEIVE: no poll raises it, and a poll after the deadline lowers it. -/
def loopRank : ReceiveAt → Nat
  | .field use _ => fieldRank use + 1
  | .fieldEnd use _ => fieldRank use
  | .ackEnd _ _ | .binEnd _ _ | .strEnd _ _ _ | .asciiByte _ _ _ => 2
  | .ackValue _ => 3
  | .binByte _ length i | .strByte _ length i _ => 3 + (length.toNat - i)
  | .scan => 65544

/-- A state of a RECEIVE in progress below a rank, or of one that has ended. -/
def Nearer (rank : Nat) (t : State) : Prop := ∀ k, t.phase = .busy k → loopRank k < rank

theorem nearer_of_not_busy {rank : Nat} {t : State} (h : ∀ k, t.phase ≠ .busy k) : Nearer rank t :=
  fun k hk => absurd hk (h k)

theorem nearer_failReceive (rank : Nat) (c : FailCode) (s : State) : Nearer rank (failReceive c s) :=
  nearer_of_not_busy (by simp [failReceive])

theorem nearer_awaitAt {rank : Nat} {k : ReceiveAt} {s : State} (h : loopRank k < rank) : Nearer rank (awaitAt k s) := by
  intro k' hk
  cases hk
  exact h

theorem nearer_finishParsed (rank : Nat) (m : Parsed) (valid : Bool) (s : State) :
    Nearer rank (finishParsed m valid s) :=
  nearer_of_not_busy (by cases m <;> simp [finishParsed, finishReceive])

theorem nearer_withId {rank : Nat} {acc : List Byte} {s : State} {k : Byte → State} (h : ∀ v, Nearer rank (k v)) :
    Nearer rank (withId acc s k) := by
  unfold withId
  split
  · exact nearer_failReceive _ _ _
  · exact h _

theorem nearer_withLength {rank : Nat} {acc : List Byte} {s : State} {k : U16 → State} (h : ∀ v, Nearer rank (k v)) :
    Nearer rank (withLength acc s k) := by
  unfold withLength
  split
  · exact nearer_failReceive _ _ _
  · exact h _

/-- What follows a field is nearer to the end. -/
theorem nearer_fieldDone (use : FieldUse) (acc : List Byte) (t : Byte) (s : State) :
    Nearer (fieldRank use) (fieldDone use acc t s) := by
  have hbyte : ∀ length : U16, 3 + (length.toNat - 0) < 65540 := fun length => by have := length.isLt; omega
  cases use with
  | asciiId =>
    refine nearer_withId fun v => ?_
    split
    · exact nearer_awaitAt (by simp [loopRank, fieldRank])
    · exact nearer_awaitAt (by simp [loopRank, fieldRank])
  | ackId => exact nearer_withId fun v => nearer_awaitAt (by simp [loopRank, fieldRank])
  | binId => exact nearer_withId fun v => nearer_awaitAt (by simp [loopRank, fieldRank])
  | strId => exact nearer_withId fun v => nearer_awaitAt (by simp [loopRank, fieldRank])
  | binLen id =>
    refine nearer_withLength fun v => ?_
    simp only [startBinary]
    repeat' split
    · exact nearer_failReceive _ _ _
    · exact nearer_awaitAt (by simp [loopRank, fieldRank])
    · exact nearer_awaitAt (hbyte v)
  | strLen id =>
    refine nearer_withLength fun v => ?_
    simp only [startString]
    split
    · exact nearer_awaitAt (by simp [loopRank, fieldRank])
    · exact nearer_awaitAt (hbyte v)
  | trailer e m =>
    simp only [fieldDone]
    split
    · exact nearer_failReceive _ _ _
    · exact nearer_finishParsed _ _ _ _

/-- A poll that stays in one wait loop: before its deadline, which does not move; it takes a byte, or it waits. -/
def StaysInLoop (k : ReceiveAt) (s t : State) : Prop :=
  (∃ k', t.phase = .busy k' ∧ loopRank k' = loopRank k) ∧ expired s = false ∧ t.deadline = s.deadline ∧
    (t.rxFifo.length < s.rxFifo.length ∨
      (s.rxFifo = [] ∧ ∀ use acc, k = .field use acc → acc.length ≠ fieldMaxDigits s.config use))

/-- What a poll of `WaitByte` does, where a byte taken leads to `r`. -/
theorem waitByte_nearer {cs : Bool} {f : Byte → State → Except Fault State} {k : ReceiveAt} {s t : State}
    (hp : s.phase = .busy k) (hk : ∀ use acc, k ≠ .field use acc) (h : settle s (waitByte cs f s) = .next t)
    (hf : ∀ b rest v, expired s = false → s.rxFifo = b :: rest → v.rxFifo = rest → v.deadline = s.deadline →
      settle s (f b v) = .next t → Nearer (loopRank k) t ∨ StaysInLoop k s t) :
    Nearer (loopRank k) t ∨ StaysInLoop k s t := by
  obtain ⟨_, e⟩ | ⟨hx, hq, e⟩ | ⟨b, rest, hx, hq, e⟩ := waitByte_cases (cs := cs) (k := f) (s := s) rfl
  · rw [e] at h
    cases h
    exact .inl (nearer_failReceive _ _ _)
  · rw [e] at h
    cases h
    exact .inr ⟨⟨k, hp, rfl⟩, hx, rfl, .inr ⟨hq, fun use acc h => absurd h (hk use acc)⟩⟩
  · rw [e] at h
    refine hf b rest _ hx hq ?_ ?_ h <;> cases cs <;> rfl

theorem nearer_enterFault (rank : Nat) (r : Fault) (s : State) : Nearer rank (enterFault r s) :=
  nearer_of_not_busy (by simp [enterFault])

/-- A byte of a payload leads nearer to the end. -/
theorem nearer_afterPayloadEnd {k : ReceiveAt} {m : Parsed} {b : Byte} {s v t : State} (hk : 1 < loopRank k)
    (h : settle s (afterPayloadEnd m b v) = .next t) : Nearer (loopRank k) t := by
  simp only [afterPayloadEnd, settle] at h
  cases h
  split
  · exact nearer_awaitAt (by simpa [loopRank, fieldRank] using hk)
  · exact nearer_failReceive _ _ _

/-- Every poll of RECEIVE comes nearer to its end, or stays in its wait loop. -/
theorem receiveStep_nearer {k : ReceiveAt} {s t : State} (hp : s.phase = .busy k) (h : receiveStep k s = .next t) :
    Nearer (loopRank k) t ∨ StaysInLoop k s t := by
  cases k with
  | scan =>
    simp only [receiveStep] at h
    cases hx : expired s with
    | true =>
      rw [scanStep_expired hx] at h
      cases h
      exact .inl (nearer_failReceive _ _ _)
    | false =>
      cases hq : s.rxFifo with
      | nil =>
        rw [scanStep_empty hx hq] at h
        cases h
        exact .inr ⟨⟨_, hp, rfl⟩, hx, rfl, .inr ⟨hq, by simp⟩⟩
      | cons b rest =>
        rw [scanStep_byte hx hq] at h
        rcases scanByte_cases b (csUpdate b { s with rxFifo := rest }) with
          ⟨_, e⟩ | ⟨_, e⟩ | ⟨_, e⟩ | ⟨_, e⟩ | ⟨_, _, _, _, e⟩ <;> rw [e] at h <;> cases h
        · exact .inl (nearer_awaitAt (by simp [loopRank, fieldRank]))
        · exact .inl (nearer_awaitAt (by simp [loopRank, fieldRank]))
        · exact .inl (nearer_awaitAt (by simp [loopRank, fieldRank]))
        · exact .inl (nearer_awaitAt (by simp [loopRank, fieldRank]))
        · exact .inr ⟨⟨_, hp, rfl⟩, hx, rfl, .inl (by simp [csReset, csUpdate, hq])⟩
  | field use acc =>
    simp only [receiveStep] at h
    obtain e | ⟨hx, hl, hq, e⟩ | ⟨b, rest, hx, hl, hq, _, e⟩ := pollField_cases use acc s
    · rw [e] at h
      cases h
      exact .inl (nearer_awaitAt (by simp [loopRank]))
    · rw [e] at h
      cases h
      refine .inr ⟨⟨_, hp, rfl⟩, hx, rfl, .inr ⟨hq, ?_⟩⟩
      rintro use' acc' h
      cases h
      exact hl
    · rw [e] at h
      cases h
      refine .inr ⟨⟨_, rfl, rfl⟩, hx, ?_, .inl ?_⟩
      · cases fieldChecksummed use <;> rfl
      · cases fieldChecksummed use <;> simp [awaitAt, csUpdate, hq]
  | fieldEnd use acc =>
    refine waitByte_nearer hp (by simp) h fun b rest v _ _ _ _ h => .inl ?_
    simp only [afterField, settle] at h
    cases h
    split
    · exact nearer_fieldDone _ _ _ _
    · exact nearer_failReceive _ _ _
  | asciiByte id np text =>
    refine waitByte_nearer hp (by simp) h fun b rest v hx hq hv hd h => ?_
    simp only [afterAsciiByte, settle] at h
    cases h
    repeat' split
    · exact .inl (nearer_awaitAt (by simp [loopRank, fieldRank]))
    · exact .inl (nearer_failReceive _ _ _)
    · exact .inr ⟨⟨_, rfl, rfl⟩, hx, hd, .inl (by simp [awaitAt, hv, hq])⟩
    · exact .inr ⟨⟨_, rfl, rfl⟩, hx, hd, .inl (by simp [awaitAt, hv, hq])⟩
  | ackValue id =>
    refine waitByte_nearer hp (by simp) h fun b rest v _ _ _ _ h => .inl ?_
    simp only [afterAckValue, settle] at h
    cases h
    repeat' split
    · exact nearer_awaitAt (by simp [loopRank])
    · exact nearer_awaitAt (by simp [loopRank])
    · exact nearer_failReceive _ _ _
  | ackEnd id value =>
    exact waitByte_nearer hp (by simp) h fun b rest v _ _ _ _ h => .inl (nearer_afterPayloadEnd (by simp [loopRank]) h)
  | binByte id length i =>
    refine waitByte_nearer hp (by simp) h fun b rest v _ _ _ _ h => .inl ?_
    simp only [afterBinByte] at h
    split at h
    · cases h
      exact nearer_enterFault _ _ _
    · cases h
      refine nearer_awaitAt ?_
      split
      · simp only [loopRank]
        omega
      · simp only [loopRank]
        omega
  | binEnd id length =>
    exact waitByte_nearer hp (by simp) h fun b rest v _ _ _ _ h => .inl (nearer_afterPayloadEnd (by simp [loopRank]) h)
  | strByte id length i data =>
    refine waitByte_nearer hp (by simp) h fun b rest v _ _ _ _ h => .inl ?_
    simp only [afterStrByte, settle] at h
    cases h
    refine nearer_awaitAt ?_
    split
    · simp only [loopRank]
      omega
    · simp only [loopRank]
      omega
  | strEnd id length data =>
    exact waitByte_nearer hp (by simp) h fun b rest v _ _ _ _ h => .inl (nearer_afterPayloadEnd (by simp [loopRank]) h)

/-- Every poll answers a next state, with the clock, the parameters and the schedule as they were. -/
theorem receiveStep_next (k : ReceiveAt) (s : State) : ∃ t, receiveStep k s = .next t ∧ t.now = s.now ∧
    t.config = s.config ∧ t.schedule = s.schedule := by
  refine receiveStep_ind k s _ ⟨rfl, rfl, rfl⟩ ⟨rfl, rfl, rfl⟩ ⟨rfl, rfl, rfl⟩ (fun _ _ _ => ⟨rfl, rfl, rfl⟩) ?_
  intro b rest _ _ v w
  refine ⟨fun c _ => ⟨⟨rfl, rfl, rfl⟩, rfl, rfl, rfl⟩, ⟨rfl, rfl, rfl⟩, fun k' => ⟨⟨rfl, rfl, rfl⟩, rfl, rfl, rfl⟩,
    fun _ => ⟨⟨rfl, rfl, rfl⟩, rfl, rfl, rfl⟩, ?_, fun _ _ _ _ _ _ => ⟨rfl, rfl, rfl⟩⟩
  rintro e m acc c _
  cases m <;> exact ⟨rfl, rfl, rfl⟩

/-! ## Fair environments -/

/-- The ticks of an environment between two moves. -/
def ticksIn (environment : Environment) (n m : Nat) : Nat :=
  ((List.range' n (m - n)).map environment).count .tick

theorem ticksIn_self (environment : Environment) (n : Nat) : ticksIn environment n n = 0 := by simp [ticksIn]

theorem ticksIn_succ (environment : Environment) {n m : Nat} (h : n ≤ m) :
    ticksIn environment n (m + 1) = ticksIn environment n m + if environment m = .tick then 1 else 0 := by
  have e : m + 1 - n = (m - n) + 1 := by omega
  rw [ticksIn, e, List.range'_concat, List.map_append, List.count_append, ticksIn]
  have e' : n + 1 * (m - n) = m := by omega
  simp only [List.map_cons, List.map_nil, e', List.count_singleton, beq_iff_eq]

/-- A fair clock makes any number of ticks. -/
theorem exists_ticksIn {environment : Environment} (h : FairClock environment) (n j : Nat) :
    ∃ m, n ≤ m ∧ ticksIn environment n m = j := by
  induction j with
  | zero => exact ⟨n, le_rfl, ticksIn_self _ _⟩
  | succ j ih =>
    obtain ⟨m, hm, hj⟩ := ih
    have hex : ∃ i, m ≤ i ∧ environment i = .tick := h m
    classical
    obtain ⟨i, hi, hmin⟩ : ∃ i, (m ≤ i ∧ environment i = .tick) ∧ ∀ i' < i, ¬(m ≤ i' ∧ environment i' = .tick) :=
      ⟨Nat.find hex, Nat.find_spec hex, fun i' h => Nat.find_min hex h⟩
    have hno : ∀ d, m + d ≤ i → ticksIn environment n (m + d) = j := by
      intro d
      induction d with
      | zero => exact fun _ => hj
      | succ d ihd =>
        intro hd
        have hne : environment (m + d) ≠ .tick := fun ht => hmin (m + d) (by omega) ⟨by omega, ht⟩
        rw [← Nat.add_assoc, ticksIn_succ _ (by omega), ihd (by omega), if_neg hne, Nat.add_zero]
    refine ⟨i + 1, by omega, ?_⟩
    have := hno (i - m) (by omega)
    rw [show m + (i - m) = i by omega] at this
    rw [ticksIn_succ _ (by omega), this, if_pos hi.2]

/-- What a named move does while a RECEIVE is in progress. -/
theorem move_while_busy {s t : State} {k : ReceiveAt} {m : Turn} (hk : s.phase = .busy k)
    (h : step { s with schedule := m :: s.schedule } = .next t) :
    (m = .reset ∧ t.phase = .idle ∧ t.now = s.now) ∨ (m = .tick ∧ t = { s with now := s.now + 1#32 }) ∨
      (∃ b, m = .arrive b ∧ t = { s with rxFifo := s.rxFifo ++ [b] }) ∨ (m = .engine ∧ receiveStep k s = .next t) := by
  cases m with
  | arrive b =>
    rw [step_arrive rfl] at h
    injection h with h
    exact .inr (.inr (.inl ⟨b, rfl, h.symm⟩))
  | tick =>
    rw [step_tick rfl] at h
    injection h with h
    exact .inr (.inl ⟨rfl, h.symm⟩)
  | reset =>
    rw [step_reset rfl] at h
    injection h with h
    subst h
    exact .inl ⟨rfl, rfl, rfl⟩
  | engine =>
    have he : EngineNext { s with schedule := .engine :: s.schedule } s := .inr ⟨s.schedule, rfl, rfl⟩
    rw [step_busy he hk] at h
    exact .inr (.inr (.inr ⟨rfl, h⟩))

/-- The clock of a trace counts the ticks, while a RECEIVE is in progress. -/
theorem now_of_follows {environment : Environment} {trace : Nat → State} (hf : Follows environment trace)
    {n m : Nat} (h : n ≤ m) (hb : ∀ i, n ≤ i → ∃ k, (trace i).phase = .busy k) :
    (trace m).now = (trace n).now + BitVec.ofNat 32 (ticksIn environment n m) := by
  induction m, h using Nat.le_induction with
  | base => simp [ticksIn_self]
  | succ m hm ih =>
    obtain ⟨k, hk⟩ := hb m hm
    have key : (trace (m + 1)).now = (trace m).now + BitVec.ofNat 32 (if environment m = .tick then 1 else 0) := by
      obtain ⟨he, -, hn⟩ | ⟨he, ht⟩ | ⟨b, he, ht⟩ | ⟨he, hstep⟩ := move_while_busy hk (hf m k hk)
      · simp [he, hn]
      · simp [he, ht]
      · simp [he, ht]
      · obtain ⟨t, ht, hn, -⟩ := receiveStep_next k (trace m)
        rw [ht] at hstep
        injection hstep with hstep
        simp [he, ← hstep, hn]
    rw [ticksIn_succ _ hm, key, ih, BitVec.add_assoc]
    exact congrArg _ (BitVec.ofNat_add _ _).symm

end Sys2Proof.Machine
end

