-- ==== Sys2Proof/Laws/PerInstr.lean ====
section
/-! SUPPORT. Statements made per instruction: every instruction has a well-formed encoding. -/

namespace Sys2Proof.Laws.WellFormedEncoding

/-- The encoded form of the instruction has an opcode of 30_encoding.md R152 with operands of their types, or is a
delimiter of R121. -/
def Statement (i : Instr) : Prop := (encode i).wellFormed = true

theorem byteFits (v : Byte) : OperandType.u8.admits (some v.toNat) = true := decide_eq_true v.isLt
theorem halfFits (v : U16) : OperandType.u16.admits (some v.toNat) = true := decide_eq_true v.isLt
theorem wordFits (v : U32) : OperandType.u32.admits (some v.toNat) = true := decide_eq_true v.isLt
theorem boolFits (v : Bool) : OperandType.bool.admits (some v.toNat) = true := by cases v <;> rfl
theorem addrFits (a : Nat) : OperandType.addr.admits (some a) = true := rfl
theorem optFits (a : Option Nat) : OperandType.optAddr.admits a = true := by cases a <;> rfl

/-- Operands that fit one by one fit together. -/
theorem consFits {t : OperandType} {v : Option Nat} {ts : List OperandType} {vs : List (Option Nat)}
    (h : t.admits v = true) (h' : operandsFit ts vs = true) : operandsFit (t :: ts) (v :: vs) = true := by
  simp [operandsFit, h, h']

theorem receive : Statement .receive := rfl
theorem transmitAscii (id : Byte) : Statement (.transmitAscii id) := consFits (byteFits id) rfl
theorem transmitAck (id : Byte) (value : Bool) : Statement (.transmitAck id value) :=
  consFits (byteFits id) (consFits (boolFits value) rfl)
theorem transmitBinary (id : Byte) : Statement (.transmitBinary id) := consFits (byteFits id) rfl
theorem transmitString (id : Byte) : Statement (.transmitString id) := consFits (byteFits id) rfl
theorem transmitStringText (id : Byte) (text : Nat) : Statement (.transmitStringText id text) :=
  consFits (byteFits id) (consFits (addrFits text) rfl)
theorem assignBinaryRxBuffer (buf : Option Nat) (cap : U32) : Statement (.assignBinaryRxBuffer buf cap) :=
  show operandsFit [.optAddr, .u32] [buf, some cap.toNat] = true from
    consFits (optFits buf) (consFits (wordFits cap) rfl)
theorem assignBinaryTxBuffer (buf : Option Nat) (cap : U32) (length : U16) : Statement (.assignBinaryTxBuffer buf cap length) :=
  show operandsFit [.optAddr, .u32, .u16] [buf, some cap.toNat, some length.toNat] = true from
    consFits (optFits buf) (consFits (wordFits cap) (consFits (halfFits length) rfl))
theorem addUint8 (v : Byte) : Statement (.addUint8 v) := consFits (byteFits v) rfl
theorem addUint16 (v : U16) : Statement (.addUint16 v) := consFits (halfFits v) rfl
theorem addUint32 (v : U32) : Statement (.addUint32 v) := consFits (wordFits v) rfl
theorem addInt8 (v : BitVec 8) : Statement (.addInt8 v) := consFits (byteFits v) rfl
theorem addInt16 (v : BitVec 16) : Statement (.addInt16 v) := consFits (halfFits v) rfl
theorem addInt32 (v : BitVec 32) : Statement (.addInt32 v) := consFits (wordFits v) rfl
theorem addFloat (x : U32) : Statement (.addFloat x) := consFits (wordFits x) rfl
theorem addString (text : Nat) : Statement (.addString text) := consFits (addrFits text) rfl
theorem getUint8 : Statement .getUint8 := rfl
theorem getUint16 : Statement .getUint16 := rfl
theorem getUint32 : Statement .getUint32 := rfl
theorem getInt8 : Statement .getInt8 := rfl
theorem getInt16 : Statement .getInt16 := rfl
theorem getInt32 : Statement .getInt32 := rfl
theorem getFloat : Statement .getFloat := rfl
theorem getString (dest : Nat) (len : U16) : Statement (.getString dest len) :=
  show operandsFit [.addr, .u16] [some dest, some len.toNat] = true from
    consFits (addrFits dest) (consFits (halfFits len) rfl)
theorem frameAscii : Statement .frameAscii := rfl
theorem frameAck : Statement .frameAck := rfl
theorem frameBinary : Statement .frameBinary := rfl
theorem frameString : Statement .frameString := rfl

end Sys2Proof.Laws.WellFormedEncoding
end

