-- ==== Sys2Proof/Laws/Rounding.lean ====
section
/-! SUPPORT. Rounding a quotient to the nearest integer, the value of a binary32 bit pattern,
and the reading of a float field. -/

namespace Sys2Proof.Machine

/-- What `roundQuot` can answer. -/
theorem roundQuot_cases (ties : Ties) (num den : Nat) :
    (roundQuot ties num den = num / den ∧
      (2 * (num % den) < den ∨ (2 * (num % den) ≤ den ∧ ties = .even ∧ num / den % 2 = 0))) ∨
    (roundQuot ties num den = num / den + 1 ∧
      (den < 2 * (num % den) ∨ (den ≤ 2 * (num % den) ∧ (ties = .even → num / den % 2 = 1)))) := by
  unfold roundQuot
  dsimp only
  by_cases h1 : 2 * (num % den) < den
  · rw [if_pos h1]
    exact .inl ⟨rfl, .inl h1⟩
  · rw [if_neg h1]
    by_cases h2 : den < 2 * (num % den)
    · rw [if_pos h2]
      exact .inr ⟨rfl, .inl h2⟩
    · rw [if_neg h2]
      cases ties with
      | even =>
        dsimp only
        split_ifs with h3
        · exact .inl ⟨rfl, .inr ⟨by omega, rfl, h3⟩⟩
        · exact .inr ⟨rfl, .inr ⟨by omega, fun _ => by omega⟩⟩
      | away => exact .inr ⟨rfl, .inr ⟨by omega, by simp⟩⟩

/-- The rounded quotient lies within half of the divisor of the exact one. -/
theorem roundQuot_bounds (ties : Ties) (num : Nat) {den : Nat} (h : 0 < den) :
    2 * num ≤ 2 * (roundQuot ties num den * den) + den ∧ 2 * (roundQuot ties num den * den) ≤ 2 * num + den := by
  have hq := Nat.div_add_mod num den
  have hr := Nat.mod_lt num h
  rw [Nat.mul_comm] at hq
  rcases roundQuot_cases ties num den with ⟨h1, h2⟩ | ⟨h1, h2⟩
  · rw [h1]
    omega
  · rw [h1, Nat.add_mul]
    omega

/-- A tie goes to the even quotient, or up. -/
theorem roundQuot_tie {ties : Ties} {num den : Nat} (h : 0 < den)
    (ht : 2 * num = 2 * (roundQuot ties num den * den) + den ∨ 2 * (roundQuot ties num den * den) = 2 * num + den) :
    (ties = .even → roundQuot ties num den % 2 = 0) ∧ (ties = .away → num < roundQuot ties num den * den) := by
  have hq := Nat.div_add_mod num den
  have hr := Nat.mod_lt num h
  rw [Nat.mul_comm] at hq
  rcases roundQuot_cases ties num den with ⟨h1, h2⟩ | ⟨h1, h2⟩
  · rw [h1] at ht
    have : ties = .even ∧ num / den % 2 = 0 := by
      rcases h2 with h2 | ⟨-, h2⟩
      · omega
      · exact h2
    obtain ⟨rfl, h3⟩ := this
    exact ⟨fun _ => h1 ▸ h3, by simp⟩
  · rw [h1, Nat.add_mul] at ht
    refine ⟨fun he => ?_, fun _ => ?_⟩
    · rcases h2 with h2 | ⟨-, h2⟩
      · omega
      · have := h2 he
        omega
    · rw [h1, Nat.add_mul]
      omega

/-- `roundQuot` over the rationals. -/
theorem roundQuot_nearest (ties : Ties) (num : Nat) {den : Nat} (h : 0 < den) :
    |(roundQuot ties num den : ℚ) - (num : ℚ) / den| ≤ 1 / 2 := by
  obtain ⟨h1, h2⟩ := roundQuot_bounds ties num h
  have hd : (0 : ℚ) < den := by exact_mod_cast h
  have h1' : (2 : ℚ) * num ≤ 2 * (roundQuot ties num den * den) + den := by exact_mod_cast h1
  have h2' : (2 : ℚ) * (roundQuot ties num den * den) ≤ 2 * num + den := by exact_mod_cast h2
  rw [abs_le]
  constructor
  · rw [le_sub_iff_add_le, ← le_sub_iff_add_le', div_le_iff₀ hd]
    linarith
  · rw [sub_le_iff_le_add, ← sub_le_iff_le_add', le_div_iff₀ hd]
    linarith

/-- A tie of `roundQuot` over the rationals. -/
theorem roundQuot_nearest_tie {ties : Ties} {num den : Nat} (h : 0 < den)
    (ht : |(roundQuot ties num den : ℚ) - (num : ℚ) / den| = 1 / 2) :
    (ties = .even → roundQuot ties num den % 2 = 0) ∧
      (ties = .away → (num : ℚ) / den < roundQuot ties num den) := by
  have hd : (0 : ℚ) < den := by exact_mod_cast h
  have key : 2 * num = 2 * (roundQuot ties num den * den) + den ∨
      2 * (roundQuot ties num den * den) = 2 * num + den := by
    rcases (abs_eq (by norm_num)).1 ht with h1 | h1
    · right
      have : (roundQuot ties num den : ℚ) * den - num = den / 2 := by
        have h3 : (num : ℚ) = num / den * den := by field_simp
        rw [h3]
        linear_combination (den : ℚ) * h1
      have : (2 : ℚ) * (roundQuot ties num den * den) = 2 * num + den := by linarith
      exact_mod_cast this
    · left
      have : (roundQuot ties num den : ℚ) * den - num = -(den / 2) := by
        have h3 : (num : ℚ) = num / den * den := by field_simp
        rw [h3]
        linear_combination (den : ℚ) * h1
      have : (2 : ℚ) * num = 2 * (roundQuot ties num den * den) + den := by linarith
      exact_mod_cast this
  refine ⟨(roundQuot_tie h key).1, fun ha => ?_⟩
  rw [div_lt_iff₀ hd]
  exact_mod_cast (roundQuot_tie h key).2 ha

/-! ## Binary32 values -/

theorem floatMant_lt (x : U32) : floatMant x < 2 ^ 24 := by
  unfold floatMant floatFrac
  split <;> omega

theorem floatScale_pos (x : U32) : 1 ≤ floatScale x := by
  unfold floatScale
  omega

theorem abs_floatValue (x : U32) : |floatValue x| = (floatMant x : ℚ) * 2 ^ ((floatScale x : ℤ) - 150) := by
  unfold floatValue
  rw [abs_mul, abs_mul, Nat.abs_cast, abs_of_pos (by positivity : (0 : ℚ) < 2 ^ ((floatScale x : ℤ) - 150))]
  split <;> simp

/-- The magnitude of a binary32 value as a quotient of the numbers `floatMicros` divides. -/
theorem abs_floatValue_eq_div (x : U32) (c : Nat) :
    |floatValue x| * c = ((floatMant x * c * 2 ^ (floatScale x - 150) : Nat) : ℚ) / (2 ^ (150 - floatScale x) : Nat) := by
  rw [abs_floatValue]
  push_cast
  rcases Nat.le_total (floatScale x) 150 with h | h
  · rw [Nat.sub_eq_zero_of_le h, pow_zero, mul_one, ← neg_sub, zpow_neg]
    have : ((150 : ℤ) - floatScale x) = ((150 - floatScale x : Nat) : ℤ) := by omega
    rw [this, zpow_natCast]
    ring
  · rw [Nat.sub_eq_zero_of_le h, pow_zero, div_one]
    have : ((floatScale x : ℤ) - 150) = ((floatScale x - 150 : Nat) : ℤ) := by omega
    rw [this, zpow_natCast]
    ring

/-- A power of 2 with an integer exponent, as the quotient of two natural powers of which one is 1. -/
theorem two_zpow_eq (e : ℤ) : (2 : ℚ) ^ e = (2 ^ e.toNat : Nat) / (2 ^ (-e).toNat : Nat) := by
  push_cast
  rcases le_total 0 e with h | h
  · obtain ⟨n, rfl⟩ := Int.eq_ofNat_of_zero_le h
    simp
  · obtain ⟨n, hn⟩ := Int.eq_ofNat_of_zero_le (Int.neg_nonneg_of_nonpos h)
    obtain rfl : e = -n := by omega
    simp

/-- `quotLog2` is the floor of the binary logarithm. -/
theorem quotLog2_spec {num den : Nat} (hn : 0 < num) (hd : 0 < den) :
    (2 : ℚ) ^ quotLog2 num den ≤ (num : ℚ) / den ∧ (num : ℚ) / den < 2 ^ (quotLog2 num den + 1) := by
  have hd' : (0 : ℚ) < den := by exact_mod_cast hd
  have n1 : ((2 : ℚ) ^ (num.log2 : ℤ)) ≤ num := by exact_mod_cast Nat.log2_self_le hn.ne'
  have n2 : (num : ℚ) < 2 ^ ((num.log2 : ℤ) + 1) := by exact_mod_cast (Nat.lt_log2_self (n := num))
  have d1 : ((2 : ℚ) ^ (den.log2 : ℤ)) ≤ den := by exact_mod_cast Nat.log2_self_le hd.ne'
  have d2 : (den : ℚ) < 2 ^ ((den.log2 : ℤ) + 1) := by exact_mod_cast (Nat.lt_log2_self (n := den))
  have hlow : (2 : ℚ) ^ ((num.log2 : ℤ) - den.log2 - 1) ≤ (num : ℚ) / den := by
    rw [le_div_iff₀ hd']
    calc (2 : ℚ) ^ ((num.log2 : ℤ) - den.log2 - 1) * den
        ≤ 2 ^ ((num.log2 : ℤ) - den.log2 - 1) * 2 ^ ((den.log2 : ℤ) + 1) := by gcongr
      _ = 2 ^ (num.log2 : ℤ) := by rw [← zpow_add₀ (by norm_num)]; congr 1; omega
      _ ≤ num := n1
  have hhigh : (num : ℚ) / den < 2 ^ ((num.log2 : ℤ) - den.log2 + 1) := by
    rw [div_lt_iff₀ hd']
    calc (num : ℚ) < 2 ^ ((num.log2 : ℤ) + 1) := n2
      _ = 2 ^ ((num.log2 : ℤ) - den.log2 + 1) * 2 ^ (den.log2 : ℤ) := by
        rw [← zpow_add₀ (by norm_num)]; congr 1; omega
      _ ≤ 2 ^ ((num.log2 : ℤ) - den.log2 + 1) * den := by gcongr
  have test : ∀ e : ℤ, den * 2 ^ e.toNat ≤ num * 2 ^ (-e).toNat ↔ (2 : ℚ) ^ e ≤ (num : ℚ) / den := by
    intro e
    have h2 : (0 : ℚ) < (2 ^ (-e).toNat : Nat) := by positivity
    rw [two_zpow_eq, div_le_div_iff₀ h2 hd', mul_comm]
    exact_mod_cast Iff.rfl
  unfold quotLog2
  dsimp only
  split_ifs with h
  · exact ⟨(test _).1 h, hhigh⟩
  · refine ⟨hlow, ?_⟩
    rw [test] at h
    simpa using h

/-- The significand `roundBinary32` finds: the integer nearest the quotient over its unit in the last place. -/
theorem roundBinary32_spec {num den : Nat} (hn : 0 < num) (hd : 0 < den)
    (hlo : (2 : ℚ) ^ (-126 : ℤ) ≤ (num : ℚ) / den) (hhi : (num : ℚ) / den < 2 ^ (127 : ℤ)) :
    ∃ (e : ℤ) (m : Nat), roundBinary32 num den = (e + 126).toNat * 2 ^ 23 + m ∧ -126 ≤ e ∧ e ≤ 126 ∧
      2 ^ 23 ≤ m ∧ m ≤ 2 ^ 24 ∧ (2 : ℚ) ^ e ≤ (num : ℚ) / den ∧
      |(m : ℚ) - (num : ℚ) / den / 2 ^ (e - 23)| ≤ 1 / 2 ∧
      (|(m : ℚ) - (num : ℚ) / den / 2 ^ (e - 23)| = 1 / 2 → m % 2 = 0) := by
  obtain ⟨h1, h2⟩ := quotLog2_spec hn hd
  have e1 : -126 ≤ quotLog2 num den := by
    have := lt_of_le_of_lt hlo h2
    rw [zpow_lt_zpow_iff_right₀ (by norm_num)] at this
    omega
  have e2 : quotLog2 num den ≤ 126 := by
    have := lt_of_le_of_lt h1 hhi
    rw [zpow_lt_zpow_iff_right₀ (by norm_num)] at this
    omega
  generalize he : quotLog2 num den = e at *
  have hden : 0 < den * 2 ^ (e - 23).toNat := by positivity
  have hq : ((num * 2 ^ (-(e - 23)).toNat : Nat) : ℚ) / (den * 2 ^ (e - 23).toNat : Nat) =
      (num : ℚ) / den / 2 ^ (e - 23) := by
    rw [two_zpow_eq]
    push_cast
    have : (den : ℚ) ≠ 0 := by exact_mod_cast hd.ne'
    field_simp
  have hr := roundQuot_nearest .even (num * 2 ^ (-(e - 23)).toNat) hden
  have ht := fun h => (roundQuot_nearest_tie (ties := .even) (num := num * 2 ^ (-(e - 23)).toNat) hden h).1 rfl
  rw [hq] at hr ht
  generalize hm : roundQuot .even (num * 2 ^ (-(e - 23)).toNat) (den * 2 ^ (e - 23).toNat) = m at *
  have q1 : (2 : ℚ) ^ 23 ≤ (num : ℚ) / den / 2 ^ (e - 23) := by
    rw [le_div_iff₀ (by positivity), ← zpow_natCast, ← zpow_add₀ (by norm_num)]
    simpa using h1
  have q2 : (num : ℚ) / den / 2 ^ (e - 23) < 2 ^ 24 := by
    rw [div_lt_iff₀ (by positivity), ← zpow_natCast, ← zpow_add₀ (by norm_num)]
    rw [show ((24 : ℕ) : ℤ) + (e - 23) = e + 1 by omega]
    exact h2
  obtain ⟨r1, r2⟩ := abs_le.1 hr
  have m1 : 2 ^ 23 ≤ m := by
    have : ((2 ^ 23 : Nat) : ℚ) < (m + 1 : Nat) := by push_cast; linarith
    have : 2 ^ 23 < m + 1 := by exact_mod_cast this
    omega
  have m2 : m ≤ 2 ^ 24 := by
    have : (m : ℚ) < ((2 ^ 24 + 1 : Nat) : ℚ) := by push_cast; linarith
    have : m < 2 ^ 24 + 1 := by exact_mod_cast this
    omega
  refine ⟨e, m, ?_, e1, e2, m1, m2, h1, hr, ht⟩
  have hmax : max e (-126) = e := by omega
  unfold roundBinary32
  rw [he]
  dsimp only
  rw [hmax, hm]
  have : (e + 126).toNat ≤ 252 := by omega
  apply Nat.min_eq_left
  omega

/-- A sign bit and 31 bits: what the fields of the bit pattern are. -/
theorem signed_fields (neg : Bool) {p : Nat} (hp : p < 2 ^ 31) :
    let r : U32 := BitVec.ofNat 32 ((if neg then 2 ^ 31 else 0) + p)
    r.msb = neg ∧ floatExp r = p / 2 ^ 23 ∧ floatFrac r = p % 2 ^ 23 := by
  intro r
  have hr : r.toNat = (if neg then 2 ^ 31 else 0) + p := by
    simp only [r, BitVec.toNat_ofNat]
    split <;> omega
  refine ⟨?_, ?_, ?_⟩
  · rw [BitVec.msb_eq_decide, hr]
    cases neg
    · simp; omega
    · simp
  · rw [floatExp, hr]
    split <;> omega
  · rw [floatFrac, hr]
    split <;> omega

/-- The fields of the pattern of a significand `m` at exponent `e`. -/
theorem normal_fields {e : ℤ} {m : Nat} (h1 : -126 ≤ e) (h2 : e ≤ 126) (m1 : 2 ^ 23 ≤ m) (m2 : m ≤ 2 ^ 24)
    {r : U32} (he : floatExp r = ((e + 126).toNat * 2 ^ 23 + m) / 2 ^ 23)
    (hf : floatFrac r = ((e + 126).toNat * 2 ^ 23 + m) % 2 ^ 23) :
    floatExp r ≠ 0 ∧ FloatFinite r ∧ |floatValue r| = (m : ℚ) * 2 ^ (e - 23) ∧ floatFrac r % 2 = m % 2 := by
  have hn : ((e + 126).toNat : ℤ) = e + 126 := by omega
  generalize (e + 126).toNat = n at *
  obtain rfl : e = n - 126 := by omega
  rcases Nat.lt_or_ge m (2 ^ 24) with h | h
  · have e' : floatExp r = n + 1 := by omega
    have f' : floatFrac r = m - 2 ^ 23 := by omega
    refine ⟨by omega, by unfold FloatFinite; omega, ?_, by omega⟩
    have hm : floatMant r = m := by
      unfold floatMant
      rw [if_neg (by omega)]
      omega
    have hs : floatScale r = n + 1 := by
      unfold floatScale
      omega
    rw [abs_floatValue, hm, hs]
    congr 2
    push_cast
    omega
  · obtain rfl : m = 2 ^ 24 := by omega
    have e' : floatExp r = n + 2 := by omega
    have f' : floatFrac r = 0 := by omega
    refine ⟨by omega, by unfold FloatFinite; omega, ?_, by omega⟩
    have hm : floatMant r = 2 ^ 23 := by
      unfold floatMant
      rw [if_neg (by omega)]
      omega
    have hs : floatScale r = n + 2 := by
      unfold floatScale
      omega
    rw [abs_floatValue, hm, hs]
    have : ((n + 2 : Nat) : ℤ) - 150 = (n : ℤ) - 126 - 23 + 1 := by omega
    rw [this, zpow_add₀ (by norm_num)]
    push_cast
    ring

theorem eq_of_fields {x y : U32} (hs : x.msb = y.msb) (he : floatExp x = floatExp y) (hf : floatFrac x = floatFrac y) :
    x = y := by
  rw [BitVec.msb_eq_decide, BitVec.msb_eq_decide, decide_eq_decide] at hs
  unfold floatExp at he
  unfold floatFrac at hf
  have := x.isLt
  have := y.isLt
  apply BitVec.eq_of_toNat_eq
  omega

/-- Two bit patterns of the same sign and magnitude are the same. -/
theorem eq_of_abs_floatValue {x y : U32} (hs : x.msb = y.msb) (h : |floatValue x| = |floatValue y|) : x = y := by
  have key : ∀ x y : U32, |floatValue x| = |floatValue y| → floatScale x ≤ floatScale y →
      floatExp x = floatExp y ∧ floatFrac x = floatFrac y := by
    intro x y h hle
    rw [abs_floatValue, abs_floatValue] at h
    obtain ⟨d, hd⟩ := Nat.exists_eq_add_of_le hle
    have h' : floatMant x = floatMant y * 2 ^ d := by
      have : (floatMant x : ℚ) = floatMant y * 2 ^ d := by
        have hz : (2 : ℚ) ^ ((floatScale y : ℤ) - 150) = 2 ^ d * 2 ^ ((floatScale x : ℤ) - 150) := by
          rw [← zpow_natCast, ← zpow_add₀ (by norm_num)]
          congr 1
          omega
        rw [hz, ← mul_assoc] at h
        exact mul_right_cancel₀ (by positivity) h
      exact_mod_cast this
    have hx := floatMant_lt x
    have hd0 : d = 0 := by
      by_contra hne
      have hexp : floatExp y ≠ 0 ∧ 2 ^ 23 ≤ floatMant y := by
        have : floatScale y ≠ 1 := by
          have := floatScale_pos x
          omega
        unfold floatScale at this
        refine ⟨by omega, ?_⟩
        unfold floatMant
        rw [if_neg (by omega)]
        omega
      have : 2 ^ 1 ≤ 2 ^ d := Nat.pow_le_pow_right (by decide) (by omega)
      have := Nat.mul_le_mul hexp.2 this
      omega
    subst hd0
    have hfx : floatFrac x < 2 ^ 23 := by unfold floatFrac; omega
    have hfy : floatFrac y < 2 ^ 23 := by unfold floatFrac; omega
    unfold floatMant at h'
    unfold floatScale at hd
    split at h' <;> split at h' <;> omega
  rcases Nat.le_total (floatScale x) (floatScale y) with hle | hle
  · obtain ⟨h1, h2⟩ := key x y h hle
    exact eq_of_fields hs h1 h2
  · obtain ⟨h1, h2⟩ := key y x h.symm hle
    exact eq_of_fields hs h1.symm h2.symm

/-- A binary32 value, with either sign put before it, is an integer multiple of a unit `2^(e-23)`, or it is below
`2^e`. -/
theorem floatValue_grid (x : U32) (neg : Bool) (e : ℤ) :
    (∃ n : ℤ, (if neg then -1 else 1) * floatValue x = n * 2 ^ (e - 23)) ∨
      (if neg then -1 else 1) * floatValue x < 2 ^ e := by
  rcases le_or_gt (e - 23) ((floatScale x : ℤ) - 150) with h | h
  · left
    obtain ⟨d, hd⟩ := Int.eq_ofNat_of_zero_le (sub_nonneg.2 h)
    have hz : (2 : ℚ) ^ ((floatScale x : ℤ) - 150) = 2 ^ d * 2 ^ (e - 23) := by
      rw [← zpow_natCast, ← zpow_add₀ (by norm_num)]
      congr 1
      omega
    refine ⟨(if neg then -1 else 1) * (if x.msb then -1 else 1) * floatMant x * 2 ^ d, ?_⟩
    unfold floatValue
    rw [hz]
    split_ifs <;> push_cast <;> ring
  · right
    have hle : (if neg then -1 else 1) * floatValue x ≤ |floatValue x| := by
      split_ifs
      · rw [neg_one_mul]
        exact neg_le_abs _
      · rw [one_mul]
        exact le_abs_self _
    refine lt_of_le_of_lt hle ?_
    rw [abs_floatValue]
    have hm : (floatMant x : ℚ) < 2 ^ (24 : ℤ) := by exact_mod_cast floatMant_lt x
    calc (floatMant x : ℚ) * 2 ^ ((floatScale x : ℤ) - 150)
        < 2 ^ (24 : ℤ) * 2 ^ ((floatScale x : ℤ) - 150) := by
          apply mul_lt_mul_of_pos_right hm
          positivity
      _ ≤ 2 ^ (24 : ℤ) * 2 ^ (e - 24) := by
          apply mul_le_mul_of_nonneg_left _ (by positivity)
          exact zpow_le_zpow_right₀ (by norm_num) (by omega)
      _ = 2 ^ e := by
          rw [← zpow_add₀ (by norm_num)]
          congr 1
          omega

/-- An integer within half of a number is the nearest one to it. -/
theorem nearest_int {m n : ℤ} {t : ℚ} (h : |(m : ℚ) - t| ≤ 1 / 2) :
    |(m : ℚ) - t| ≤ |(n : ℚ) - t| ∧ (n ≠ m → |(m : ℚ) - t| = |(n : ℚ) - t| → |(m : ℚ) - t| = 1 / 2) := by
  by_cases hnm : n = m
  · subst hnm
    exact ⟨le_rfl, fun h => absurd rfl h⟩
  · have h1 : (1 : ℚ) ≤ |(n : ℚ) - m| := by
      have : 1 ≤ |n - m| := Int.one_le_abs (sub_ne_zero.2 hnm)
      exact_mod_cast this
    have h2 : |(n : ℚ) - m| ≤ |(n : ℚ) - t| + |(m : ℚ) - t| := by
      have := abs_sub_le (n : ℚ) t m
      rwa [abs_sub_comm t] at this
    exact ⟨by linarith, fun _ he => by linarith⟩


/-- The pattern of a positive quotient within the range of normal numbers is the nearest binary32. -/
theorem nearest_roundBinary32 (neg : Bool) {num den : Nat} (hn : 0 < num) (hd : 0 < den)
    (hlo : (2 : ℚ) ^ (-126 : ℤ) ≤ (num : ℚ) / den) (hhi : (num : ℚ) / den < 2 ^ (127 : ℤ)) :
    NearestFloat neg ((if neg then -1 else 1) * ((num : ℚ) / den)) (signedBinary32 neg num den) := by
  obtain ⟨e, m, hr, e1, e2, m1, m2, hq, hm, ht⟩ := roundBinary32_spec hn hd hlo hhi
  generalize (num : ℚ) / den = q at *
  have hp : (e + 126).toNat * 2 ^ 23 + m < 2 ^ 31 := by
    have : (e + 126).toNat ≤ 252 := by omega
    omega
  obtain ⟨s1, s2, s3⟩ := signed_fields neg hp
  have hs : signedBinary32 neg num den =
      BitVec.ofNat 32 ((if neg then 2 ^ 31 else 0) + ((e + 126).toNat * 2 ^ 23 + m)) := by
    unfold signedBinary32
    rw [if_neg hn.ne', hr]
  rw [hs]
  generalize (BitVec.ofNat 32 ((if neg then 2 ^ 31 else 0) + ((e + 126).toNat * 2 ^ 23 + m)) : U32) = r at *
  obtain ⟨f1, f2, f3, f4⟩ := normal_fields e1 e2 m1 m2 s2 s3
  have hg : (0 : ℚ) < 2 ^ (e - 23) := by positivity
  have habs : ∀ x : ℚ, |x - (if neg then -1 else 1) * q| = |(if neg then -1 else 1) * x - q| := by
    intro x
    cases neg
    · simp
    · rw [← abs_neg]
      congr 1
      simp
      ring
  have hv : (if neg then -1 else 1) * floatValue r = (m : ℚ) * 2 ^ (e - 23) := by
    rw [← f3, abs_floatValue]
    unfold floatValue
    rw [s1]
    cases neg <;> simp
  have scale : ∀ n : ℤ, |(n : ℚ) * 2 ^ (e - 23) - q| = |(n : ℚ) - q / 2 ^ (e - 23)| * 2 ^ (e - 23) := by
    intro n
    conv_rhs => rw [← abs_of_pos hg]
    rw [← abs_mul, abs_of_pos hg, sub_mul, div_mul_cancel₀ _ hg.ne']
  have hmz : ((m : ℤ) : ℚ) = m := by push_cast; rfl
  refine ⟨f2, s1, .inl f1, fun x hx => ?_⟩
  rw [habs, habs, hv, ← hmz, scale]
  rcases floatValue_grid x neg e with ⟨n, hn'⟩ | hlt
  · obtain ⟨b1, b2⟩ := nearest_int (m := m) (n := n) (t := q / 2 ^ (e - 23)) (by rw [hmz]; exact hm)
    rw [hn', scale]
    refine ⟨mul_le_mul_of_nonneg_right b1 hg.le, fun hne heq => ?_⟩
    rw [f4]
    apply ht
    rw [← hmz]
    apply b2 _ (mul_right_cancel₀ hg.ne' heq)
    rintro rfl
    apply hne
    have hpos : (0 : ℚ) < (m : ℚ) * 2 ^ (e - 23) := by
      have : 0 < m := by omega
      positivity
    rw [hmz] at hn'
    apply eq_of_abs_floatValue
    · rw [s1]
      by_contra hmsb
      have hneg : (if neg then -1 else 1) * floatValue x ≤ 0 := by
        unfold floatValue
        have h0 : (0 : ℚ) ≤ (floatMant x : ℚ) * 2 ^ ((floatScale x : ℤ) - 150) := by positivity
        cases neg <;> cases hb : x.msb <;> simp_all
      linarith
    · have : |floatValue x| = |(if neg then -1 else 1) * floatValue x| := by cases neg <;> simp
      rw [this, hn', f3, abs_of_pos hpos]
  · have hle : |(m : ℚ) - q / 2 ^ (e - 23)| * 2 ^ (e - 23) ≤ q - 2 ^ e := by
      obtain ⟨b1, -⟩ := nearest_int (m := m) (n := 2 ^ 23) (t := q / 2 ^ (e - 23)) (by rw [hmz]; exact hm)
      have := mul_le_mul_of_nonneg_right b1 hg.le
      rw [hmz] at this
      refine le_trans this (le_of_eq ?_)
      have hz : ((2 ^ 23 : ℤ) : ℚ) * 2 ^ (e - 23) = 2 ^ e := by
        have : ((2 ^ 23 : ℤ) : ℚ) = 2 ^ (23 : ℤ) := by norm_num
        rw [this, ← zpow_add₀ (by norm_num)]
        congr 1
        omega
      rw [← scale, abs_sub_comm, hz, abs_of_nonneg (by linarith)]
    rw [hmz]
    have : q - 2 ^ e < |(if neg then -1 else 1) * floatValue x - q| := by
      rw [abs_sub_comm, abs_of_pos (by linarith)]
      linarith
    exact ⟨by linarith, fun _ h => by linarith⟩

/-- The pattern of zero with a sign. -/
theorem nearest_zero (neg : Bool) (den : Nat) : NearestFloat neg 0 (signedBinary32 neg 0 den) := by
  have hs : signedBinary32 neg 0 den = BitVec.ofNat 32 ((if neg then 2 ^ 31 else 0) + 0) := rfl
  obtain ⟨s1, s2, s3⟩ := signed_fields neg (p := 0) (by decide)
  rw [hs]
  generalize (BitVec.ofNat 32 ((if neg then 2 ^ 31 else 0) + 0) : U32) = r at *
  have hv : floatValue r = 0 := by
    unfold floatValue floatMant
    rw [s2, s3]
    simp
  refine ⟨by unfold FloatFinite; omega, s1, .inr s3, fun x _ => ?_⟩
  rw [hv, s3]
  simp

/-! ## Float fields (44_param_codec.md R288) -/

theorem takeWhile_digits {a b : List Byte} (h : ∀ x ∈ a, isDigit x = true)
    (hb : ∀ x, b.head? = some x → isDigit x = false) :
    (a ++ b).takeWhile isDigit = a ∧ (a ++ b).dropWhile isDigit = b := by
  have h1 : b.takeWhile isDigit = [] ∧ b.dropWhile isDigit = b := by
    cases b with
    | nil => simp
    | cons c r => simp [hb c rfl]
  constructor
  · rw [List.takeWhile_append_of_pos h, h1.1, List.append_nil]
  · rw [List.dropWhile_append_of_pos h, h1.2]

/-- A magnitude with a point. -/
theorem parseMagnitude_point {whole frac : List Byte} (h : ∀ b ∈ whole ++ frac, isDigit b = true)
    (hne : whole ++ frac ≠ []) :
    parseMagnitude (whole ++ [chDot] ++ frac) = some (decVal (whole ++ frac), frac.length) := by
  have hw : ∀ x ∈ whole, isDigit x = true := fun x hx => h x (by simp [hx])
  have hf : ∀ x ∈ frac, isDigit x = true := fun x hx => h x (by simp [hx])
  obtain ⟨h1, h2⟩ := takeWhile_digits (a := whole) (b := chDot :: frac) hw
    (by intro x hx; simp only [List.head?_cons, Option.some.injEq] at hx; subst hx; rfl)
  unfold parseMagnitude
  rw [List.append_assoc, List.singleton_append, h1, h2]
  dsimp only
  rw [if_pos]
  refine ⟨rfl, List.all_eq_true.2 hf, ?_⟩
  rintro ⟨rfl, rfl⟩
  exact hne rfl

/-- A magnitude without a point. -/
theorem parseMagnitude_whole {whole : List Byte} (h : ∀ b ∈ whole, isDigit b = true) (hne : whole ≠ []) :
    parseMagnitude whole = some (decVal whole, 0) := by
  obtain ⟨h1, h2⟩ := takeWhile_digits (a := whole) (b := []) h (by simp)
  rw [List.append_nil] at h1 h2
  unfold parseMagnitude
  rw [h1, h2]
  simp [hne]

/-- A magnitude that parses is digits, with a point or without. -/
theorem parseMagnitude_some {g : List Byte} {n places : Nat} (h : parseMagnitude g = some (n, places)) :
    ∃ whole frac, (∀ b ∈ whole ++ frac, isDigit b = true) ∧ whole ++ frac ≠ [] ∧
      (g = whole ++ [chDot] ++ frac ∨ (frac = [] ∧ g = whole)) := by
  have hg := List.takeWhile_append_dropWhile (p := isDigit) (l := g)
  have ht : ∀ b ∈ g.takeWhile isDigit, isDigit b = true := fun b hb => List.mem_takeWhile_imp hb
  unfold parseMagnitude at h
  dsimp only at h
  generalize g.takeWhile isDigit = w at *
  split at h
  · next hd =>
    rw [hd, List.append_nil] at hg
    subst hg
    split at h
    · simp at h
    · next hne => exact ⟨w, [], by simpa using ht, by simpa using hne, .inr ⟨rfl, rfl⟩⟩
  · next c fr hd =>
    rw [hd] at hg
    split at h
    · next hc =>
      obtain ⟨rfl, hfr, hne⟩ := hc
      refine ⟨w, fr, ?_, ?_, .inl (by simp [← hg])⟩
      · intro b hb
        rcases List.mem_append.1 hb with hb | hb
        · exact ht b hb
        · exact List.all_eq_true.1 hfr b hb
      · simpa [not_and] using hne
    · simp at h

theorem splitSign_of_head {g : List Byte} (h : g.head? ≠ some chMinus) : splitSign g = (false, g) := by
  rcases g with _ | ⟨c, r⟩
  · rfl
  · have : c ≠ chMinus := by simpa using h
    simp [splitSign, this]

/-- `ParseF` of a field of the syntax. -/
theorem parseF_of_syntax {f whole frac : List Byte} {neg : Bool} (h : FloatSyntax f neg whole frac) :
    parseF f = .ok (signedBinary32 neg (decVal (whole ++ frac)) (10 ^ frac.length)) := by
  obtain ⟨hd, hne, hf⟩ := h
  have hd' : ∀ b ∈ whole ++ frac, isDigit b = true := fun b hb => (isDigit_iff b).2 (hd b hb)
  have key : ∀ g, (g = whole ++ [chDot] ++ frac ∨ (frac = [] ∧ g = whole)) →
      parseMagnitude g = some (decVal (whole ++ frac), frac.length) ∧ g.head? ≠ some chMinus := by
    rintro g (rfl | ⟨rfl, rfl⟩)
    · refine ⟨parseMagnitude_point hd' hne, ?_⟩
      cases whole with
      | nil => simp [chDot, chMinus]
      | cons c w =>
        have : isDigit c = true := hd' c (by simp)
        have := isDigit_ne (c := chMinus) this rfl
        simpa using this
    · simp only [List.append_nil] at hd' hne ⊢
      refine ⟨parseMagnitude_whole hd' hne, ?_⟩
      cases g with
      | nil => simp
      | cons c w =>
        have : isDigit c = true := hd' c (by simp)
        have := isDigit_ne (c := chMinus) this rfl
        simpa using this
  have hs : splitSign f = (neg, f.drop (if neg then 1 else 0)) ∧
      parseMagnitude (f.drop (if neg then 1 else 0)) = some (decVal (whole ++ frac), frac.length) := by
    cases neg with
    | true =>
      have : ∃ g, f = chMinus :: g ∧ (g = whole ++ [chDot] ++ frac ∨ (frac = [] ∧ g = whole)) := by
        rcases hf with rfl | ⟨h0, rfl⟩
        · exact ⟨_, by simp, .inl rfl⟩
        · exact ⟨_, by simp, .inr ⟨h0, rfl⟩⟩
      obtain ⟨g, rfl, hg⟩ := this
      exact ⟨by simp [splitSign_minus], by simpa using (key g hg).1⟩
    | false =>
      have hg : f = whole ++ [chDot] ++ frac ∨ (frac = [] ∧ f = whole) := by simpa using hf
      exact ⟨by simpa using splitSign_of_head (key f hg).2, by simpa using (key f hg).1⟩
  unfold parseF
  rw [hs.1]
  dsimp only
  rw [hs.2]

/-- `ParseF` of any other field. -/
theorem parseF_of_not_syntax {f : List Byte} (h : ∀ neg whole frac, ¬ FloatSyntax f neg whole frac) :
    parseF f = .error .getSyntax := by
  unfold parseF
  split
  · rfl
  · next n places hp =>
    obtain ⟨whole, frac, hd, hne, hg⟩ := parseMagnitude_some hp
    refine absurd ⟨fun b hb => (isDigit_iff b).1 (hd b hb), hne, ?_⟩ (h (splitSign f).1 whole frac)
    have := splitSign_spells f
    rcases hg with hg | ⟨h0, hg⟩
    · left
      rw [hg] at this
      simpa using this
    · right
      rw [hg] at this
      exact ⟨h0, this⟩

/-- The range of the numbers that a field of at most 15 bytes spells: no subnormal and no overflow (R288). -/
theorem field_in_range {f whole frac : List Byte} {neg : Bool} (h : FloatSyntax f neg whole frac) (hl : f.length ≤ 15)
    (h0 : decVal (whole ++ frac) ≠ 0) :
    (2 : ℚ) ^ (-126 : ℤ) ≤ (decVal (whole ++ frac) : ℚ) / (10 ^ frac.length : Nat) ∧
      (decVal (whole ++ frac) : ℚ) / (10 ^ frac.length : Nat) < 2 ^ (127 : ℤ) := by
  have hlen : whole.length + frac.length ≤ 15 := by
    rcases h.2.2 with rfl | ⟨rfl, rfl⟩
    · simp at hl
      omega
    · simp at hl ⊢
      omega
  have hlt := decVal_lt (whole ++ frac) fun b hb => (isDigit_iff b).2 (h.1 b hb)
  have hpos : (0 : ℚ) < (10 ^ frac.length : Nat) := by positivity
  have hp : 10 ^ frac.length ≤ 10 ^ 15 := Nat.pow_le_pow_right (by decide) (by omega)
  have hq : decVal (whole ++ frac) < 10 ^ 15 :=
    lt_of_lt_of_le hlt (Nat.pow_le_pow_right (by decide) (by simpa using hlen))
  have hge : (1 : ℚ) ≤ decVal (whole ++ frac) := by exact_mod_cast Nat.one_le_iff_ne_zero.2 h0
  have hp' : ((10 ^ frac.length : Nat) : ℚ) ≤ 10 ^ 15 := by exact_mod_cast hp
  have hq' : (decVal (whole ++ frac) : ℚ) < 10 ^ 15 := by exact_mod_cast hq
  have hone : (1 : ℚ) ≤ (10 ^ frac.length : Nat) := by exact_mod_cast Nat.one_le_pow _ _ (by decide)
  rw [le_div_iff₀ hpos, div_lt_iff₀ hpos]
  constructor
  · calc (2 : ℚ) ^ (-126 : ℤ) * (10 ^ frac.length : Nat) ≤ 2 ^ (-126 : ℤ) * 10 ^ 15 := by gcongr
      _ ≤ 1 := by norm_num
      _ ≤ _ := hge
  · calc (decVal (whole ++ frac) : ℚ) < 10 ^ 15 := hq'
      _ ≤ 2 ^ (127 : ℤ) * 1 := by norm_num
      _ ≤ _ := by gcongr

end Sys2Proof.Machine
end

