-- ==== Sys2Proof/Tests/Slice0.lean ====
section
/-! SUPPORT. Tests: ill-formed terms refused, words written out from the spec decoded, single steps of
95_test_vectors.md, and for each statement of Certificates/Slice0/Obligations.lean a case that meets its
hypotheses. -/

namespace Sys2Proof.Tests

open Sys2Proof Sys2Proof.Machine

/-! ## Well-formedness (30_encoding.md R151 to R153, R129) -/

/-- A record of an opcode and operand values. -/
def record (op : Byte) (operands : List (Option Nat)) : Encoded := .command ⟨op, operands⟩

theorem test_u8_of_256_refused : (record 0x10#8 [some 256]).wellFormed = false := by decide
theorem test_u8_absent_refused : (record 0x30#8 [none]).wellFormed = false := by decide
theorem test_bool_of_2_refused : (record 0x11#8 [some 3, some 2]).wellFormed = false := by decide
theorem test_u16_of_65536_refused : (record 0x47#8 [some 0, some 65536]).wellFormed = false := by decide
theorem test_u32_of_2_pow_32_refused : (record 0x36#8 [some 4294967296]).wellFormed = false := by decide
theorem test_addr_absent_refused : (record 0x37#8 [none]).wellFormed = false := by decide
theorem test_operand_missing_refused : (record 0x21#8 [none, some 0]).wellFormed = false := by decide
theorem test_operand_extra_refused : (record 0x01#8 [some 0]).wellFormed = false := by decide
theorem test_reserved_opcodes_refused :
    ∀ op ∈ [0x00#8, 0x02#8, 0x0F#8, 0x15#8, 0x1F#8, 0x22#8, 0x2F#8, 0x38#8, 0x3F#8, 0x48#8, 0xFF#8],
      (record op []).wellFormed = false := by decide
theorem test_non_delimiter_refused : ∀ b ∈ [0x20#8, 0x24#8, 0x3E#8, 0x40#8, 0x00#8, 0x0A#8],
    (Encoded.wire b).wellFormed = false := by decide
theorem test_absent_buffer_fits : (record 0x20#8 [none, some 4294967295]).wellFormed = true := by decide

/-! ## Decoding: the opcode bytes and operand values of 30_encoding.md R150 to R152 and of 95_test_vectors.md
Part 3, and the delimiters of R121 -/

theorem test_decode_receive : decode (record 0b00000001#8 []) = .ok .receive := by decide
theorem test_decode_transmitAscii : decode (record 0b00010000#8 [some 0x07]) = .ok (.transmitAscii 7#8) := by decide
theorem test_decode_transmitAck :
    decode (record 0b00010001#8 [some 0x03, some 1]) = .ok (.transmitAck 3#8 true) := by decide
theorem test_decode_transmitBinary : decode (record 0b00010010#8 [some 0x05]) = .ok (.transmitBinary 5#8) := by decide
theorem test_decode_transmitString : decode (record 0b00010011#8 [some 0x02]) = .ok (.transmitString 2#8) := by decide
theorem test_decode_transmitStringText :
    decode (record 0b00010100#8 [some 0x09, some 0x200]) = .ok (.transmitStringText 9#8 0x200) := by decide
theorem test_decode_assignBinaryRxBuffer :
    decode (record 0b00100000#8 [some 0x100, some 4]) = .ok (.assignBinaryRxBuffer (some 0x100) 4#32) := by decide
theorem test_decode_assignBinaryTxBuffer : decode (record 0b00100001#8 [some 0x100, some 4, some 3]) =
    .ok (.assignBinaryTxBuffer (some 0x100) 4#32 3#16) := by decide
theorem test_decode_addUint8 : decode (record 0b00110000#8 [some 0x05]) = .ok (.addUint8 5#8) := by decide
theorem test_decode_addUint16 : decode (record 0b00110001#8 [some 0x012C]) = .ok (.addUint16 300#16) := by decide
theorem test_decode_addUint32 :
    decode (record 0b00110010#8 [some 0xFFFFFFFF]) = .ok (.addUint32 4294967295#32) := by decide
theorem test_decode_addInt8 : decode (record 0b00110011#8 [some 0xFD]) = .ok (.addInt8 (-3)) := by decide
theorem test_decode_addInt16 : decode (record 0b00110100#8 [some 0x8000]) = .ok (.addInt16 (-32768)) := by decide
theorem test_decode_addInt32 : decode (record 0b00110101#8 [some 0xFFFFFFFF]) = .ok (.addInt32 (-1)) := by decide
theorem test_decode_addFloat :
    decode (record 0b00110110#8 [some 0x3FC00000]) = .ok (.addFloat 0x3FC00000#32) := by decide
theorem test_decode_addString : decode (record 0b00110111#8 [some 0x400]) = .ok (.addString 0x400) := by decide
theorem test_decode_getUint8 : decode (record 0b01000000#8 []) = .ok .getUint8 := by decide
theorem test_decode_getUint16 : decode (record 0b01000001#8 []) = .ok .getUint16 := by decide
theorem test_decode_getUint32 : decode (record 0b01000010#8 []) = .ok .getUint32 := by decide
theorem test_decode_getInt8 : decode (record 0b01000011#8 []) = .ok .getInt8 := by decide
theorem test_decode_getInt16 : decode (record 0b01000100#8 []) = .ok .getInt16 := by decide
theorem test_decode_getInt32 : decode (record 0b01000101#8 []) = .ok .getInt32 := by decide
theorem test_decode_getFloat : decode (record 0b01000110#8 []) = .ok .getFloat := by decide
theorem test_decode_getString :
    decode (record 0b01000111#8 [some 0xFFF, some 3]) = .ok (.getString 0xFFF 3#16) := by decide
theorem test_decode_frameAscii : decode (.wire 0b00100011#8) = .ok .frameAscii := by decide
theorem test_decode_frameAck : decode (.wire 0b00111111#8) = .ok .frameAck := by decide
theorem test_decode_frameBinary : decode (.wire 0b00100001#8) = .ok .frameBinary := by decide
theorem test_decode_frameString : decode (.wire 0b00100010#8) = .ok .frameString := by decide
theorem test_decode_says_why :
    decode (record 0x02#8 []) = .error (.reservedOpcode 0x02#8) ∧
    decode (record 0x10#8 [some 256]) = .error (.operandOutOfType 0x10#8) ∧
    decode (.wire 0x0A#8) = .error (.notADelimiter 0x0A#8) := by decide

/-! ## The words of spec/opcode_table.json -/

/-- The state a step goes to. -/
def after : Host.Outcome State Fault Refusal → Option State
  | .next t => some t
  | .fault _ => none
  | .refused _ => none

/-- What a step stops with. -/
def stopOf : Host.Outcome State Fault Refusal → Option (Fault ⊕ Refusal)
  | .next _ => none
  | .fault r => some (.inl r)
  | .refused r => some (.inr r)

/-- The transmit and assignment rows' words with the instructions they stand for: the table gives no bits to the
operands, so they are 0. The row FRAME_BINARY has the word 0x21 too (log 1). -/
def transmitWords : List (Nat × Instr) :=
  [(0x01, .receive), (0x10, .transmitAscii 0#8), (0x11, .transmitAck 0#8 false), (0x12, .transmitBinary 0#8),
    (0x13, .transmitString 0#8), (0x14, .transmitStringText 0#8 0), (0x20, .assignBinaryRxBuffer (some 0) 0#32),
    (0x21, .assignBinaryTxBuffer (some 0) 0#32 0#16)]

/-- The rows of the parameter codec. -/
def codecWords : List (Nat × Instr) :=
  [(0x30, .addUint8 0#8), (0x31, .addUint16 0#16), (0x32, .addUint32 0#32), (0x33, .addInt8 0#8),
    (0x34, .addInt16 0#16), (0x35, .addInt32 0#32), (0x36, .addFloat 0#32), (0x37, .addString 0), (0x40, .getUint8),
    (0x41, .getUint16), (0x42, .getUint32), (0x43, .getInt8), (0x44, .getInt16), (0x45, .getInt32),
    (0x46, .getFloat), (0x47, .getString 0 0#16)]

/-- The rows of the wire. -/
def wireWords : List (Nat × Instr) := [(0x23, .frameAscii), (0x3F, .frameAck), (0x22, .frameString)]

theorem test_table_words_decode : ∀ p ∈ transmitWords ++ codecWords ++ wireWords,
    decodeTableWord 8 p.1 = some p.2 := by decide

/-- The first step after reset with a command's word placed runs that command, from the state with nothing placed. -/
theorem test_placed_commands_run : ∀ p ∈ transmitWords ++ codecWords,
    after (step (State.reset.withFetchWord 8 p.1)) = after (exec p.2 State.reset) := by decide

/-- A frame's first byte placed is consumed and checksummed by a scanning RECEIVE, and its row runs. -/
theorem test_placed_frame_runs : after (step (State.reset.withFetchWord 8 0x23)) =
    after (exec .frameAscii { State.reset with
      phase := .busy .scan, deadline := 1, csA := 0x23#8, csB := 0x23#8 }) := by decide
/-! ## Small states -/

/-- `HOSTMEM` of the vectors: `ABC` at 0x100, `hello` and a NUL at 0x200, `ab` at the end of memory. -/
def memory : Memory :=
  [(0x100, 0x41#8), (0x101, 0x42#8), (0x102, 0x43#8), (0x200, 0x68#8), (0x201, 0x65#8), (0x202, 0x6C#8)] ++
  [(0x203, 0x6C#8), (0x204, 0x6F#8), (0xFFE, 0x61#8), (0xFFF, 0x62#8)]

/-- An Idle engine at `NOW` = 0 with bytes received. -/
def idleWith (fifo : List Byte) : State := State.launch Config.default memory fifo 0#32

/-- A RECEIVE in progress at `NOW` = 0 with its deadline at 100. -/
def busyAt (k : ReceiveAt) (fifo : List Byte) : State := { idleWith fifo with phase := .busy k, deadline := 100#32 }

/-- The same with the deadline passed. -/
def lateAt (k : ReceiveAt) (fifo : List Byte) : State := { busyAt k fifo with now := 100#32 }

/-- An Idle engine with received text and a cursor, and 0xDEAD in `RES_VALUE`. -/
def textAt (text : List Byte) (cursor : Nat) : State :=
  { idleWith [] with rxAscii := ⟨1#8, 1#8, text, true⟩, resKind := .ascii, rxCursor := cursor, resValue := 0xDEAD#32 }

/-- An Idle engine with bytes of `TX_TEXT`. -/
def composing (text : List Byte) : State := { idleWith [] with txText := text }

/-- `RES_OK`, `RES_VALUE`, `RX_CURSOR` and `LAST_FAIL` after a step. -/
def codecResult (o : Host.Outcome State Fault Refusal) : Option (Bool × U32 × Nat × FailCode) :=
  (after o).map fun t => (t.resOk, t.resValue, t.rxCursor, t.lastFail)

/-- `TX_TEXT`, `RES_OK` and `LAST_FAIL` after a step. -/
def composeResult (o : Host.Outcome State Fault Refusal) : Option (List Byte × Bool × FailCode) :=
  (after o).map fun t => (t.txText, t.resOk, t.lastFail)

/-- `TX_OUT`, `RES_OK` and `LAST_FAIL` after a step. -/
def sendResult (o : Host.Outcome State Fault Refusal) : Option (List Byte × Bool × FailCode) :=
  (after o).map fun t => (t.txOut, t.resOk, t.lastFail)

/-! ## The Frame Writer: vectors W-1 to W-19 -/

/-- W-1. -/
theorem test_transmitAscii_text : (after (exec (.transmitAscii 7#8) (composing [0x2C#8, 0x33#8, 0x30#8, 0x30#8,
    0x2C#8, 0x31#8, 0x2E#8, 0x35#8, 0x30#8, 0x30#8, 0x30#8, 0x30#8, 0x30#8]))).map
    (fun t => (t.txOut, t.txText)) = some ([0x23#8, 0x37#8, 0x2C#8, 0x33#8, 0x30#8, 0x30#8, 0x2C#8, 0x31#8,
        0x2E#8, 0x35#8, 0x30#8, 0x30#8, 0x30#8, 0x30#8, 0x30#8, 0x3B#8, 0x31#8, 0x30#8, 0x33#8, 0x31#8, 0x3B#8,
        0x0A#8], []) := by decide
/-- W-2. -/
theorem test_transmitAscii_empty :
    sendResult (exec (.transmitAscii 7#8) (composing [])) = some ([0x23#8, 0x37#8, 0x3B#8, 0x33#8, 0x38#8,
        0x31#8, 0x36#8, 0x32#8, 0x3B#8, 0x0A#8], false, .none) := by decide
/-- W-5. -/
theorem test_transmitAck_true :
    sendResult (exec (.transmitAck 3#8 true) State.reset) = some ([0x3F#8, 0x33#8, 0x2C#8, 0x31#8, 0x3B#8,
        0x32#8, 0x36#8, 0x30#8, 0x30#8, 0x3B#8, 0x0A#8], false, .none) := by decide
/-- W-6. -/
theorem test_transmitAck_false :
    sendResult (exec (.transmitAck 3#8 false) State.reset) = some ([0x3F#8, 0x33#8, 0x2C#8, 0x30#8, 0x3B#8,
        0x32#8, 0x33#8, 0x34#8, 0x32#8, 0x3B#8, 0x0A#8], false, .none) := by decide
/-- W-8. -/
theorem test_transmitBinary_sends :
    sendResult (exec (.transmitBinary 5#8) { idleWith [] with binTxDesc := ⟨true, 0x100, 8#32, 3#16⟩ }) =
      some ([0x21#8, 0x35#8, 0x2C#8, 0x33#8, 0x3B#8, 0x41#8, 0x42#8, 0x43#8, 0x3B#8, 0x36#8, 0x31#8, 0x39#8,
          0x32#8, 0x39#8, 0x3B#8, 0x0A#8], true, .none) := by decide
/-- W-12. -/
theorem test_transmitBinary_faults :
    (after (exec (.transmitBinary 5#8) { idleWith [] with binTxDesc := ⟨true, 0xFFE, 8#32, 3#16⟩ })).map
      (fun t => (t.phase, t.txOut)) = some (.faulted .memRange, []) := by decide
/-- W-13. -/
theorem test_transmitString_sends : sendResult (exec (.transmitString 9#8) { idleWith [] with txStr := [0x68#8,
    0x65#8, 0x6C#8, 0x6C#8, 0x6F#8] }) =
    some ([0x22#8, 0x39#8, 0x2C#8, 0x35#8, 0x3B#8, 0x68#8, 0x65#8, 0x6C#8, 0x6C#8, 0x6F#8, 0x3B#8, 0x31#8,
        0x38#8, 0x31#8, 0x36#8, 0x37#8, 0x3B#8, 0x0A#8], true, .none) := by decide
/-- W-14. -/
theorem test_transmitString_empty :
    sendResult (exec (.transmitString 2#8) (idleWith [])) = some ([0x22#8, 0x32#8, 0x2C#8, 0x30#8, 0x3B#8,
        0x3B#8, 0x39#8, 0x39#8, 0x31#8, 0x31#8, 0x3B#8, 0x0A#8], true, .none) := by decide
/-- W-15. -/
theorem test_transmitStringText_sends : (after (exec (.transmitStringText 9#8 0x200) (idleWith []))).map
    (fun t => (t.txOut, t.txStr)) = some ([0x22#8, 0x39#8, 0x2C#8, 0x35#8, 0x3B#8, 0x68#8, 0x65#8, 0x6C#8,
        0x6C#8, 0x6F#8, 0x3B#8, 0x31#8, 0x38#8, 0x31#8, 0x36#8, 0x37#8, 0x3B#8, 0x0A#8], [0x68#8, 0x65#8, 0x6C#8,
        0x6C#8, 0x6F#8]) := by decide
/-- W-16. -/
theorem test_transmitStringText_empty : sendResult (exec (.transmitStringText 9#8 0x300) (idleWith [])) =
    some ([0x22#8, 0x39#8, 0x2C#8, 0x30#8, 0x3B#8, 0x3B#8, 0x31#8, 0x31#8, 0x37#8, 0x33#8, 0x38#8, 0x3B#8,
        0x0A#8], true, .none) := by decide

/-! ## Buffer assignment: vectors B-1 to B-6 -/

/-- B-1. -/
theorem test_assignRx_assigns : (after (exec (.assignBinaryRxBuffer (some 0x100) 4#32) State.reset)).map
    (fun t => t.binRxDesc) = some ⟨true, 0x100, 4#32⟩ := by decide
/-- B-2. -/
theorem test_assignRx_clears : (after (exec (.assignBinaryRxBuffer none 4#32) State.reset)).map
    (fun t => t.binRxDesc) = some ⟨false, 0, 0#32⟩ := by decide
/-- B-4. -/
theorem test_assignTx_assigns : (after (exec (.assignBinaryTxBuffer (some 0x100) 8#32 3#16) State.reset)).map
    (fun t => t.binTxDesc) = some ⟨true, 0x100, 8#32, 3#16⟩ := by decide
/-- B-6. -/
theorem test_assignTx_clears : (after (exec (.assignBinaryTxBuffer none 8#32 3#16) State.reset)).map
    (fun t => t.binTxDesc) = some ⟨false, 0, 0#32, 0#16⟩ := by decide

/-! ## ADD_*: vectors A-1 to A-16, F-1 to F-16 -/

/-- A-1. -/
theorem test_addUint8 : composeResult (exec (.addUint8 12#8) (composing [])) = some ([0x2C#8, 0x31#8,
    0x32#8], true, .none) := by decide
/-- A-4. -/
theorem test_addUint8_zero : composeResult (exec (.addUint8 0#8) (composing [])) = some ([0x2C#8,
    0x30#8], true, .none) := by decide
/-- A-9. -/
theorem test_addUint16 :
    composeResult (exec (.addUint16 300#16) (composing [])) = some ([0x2C#8, 0x33#8, 0x30#8,
        0x30#8], true, .none) := by decide
/-- A-5. -/
theorem test_addUint32_fits :
    (after (exec (.addUint32 4294967295#32) (composing (0x2C#8 :: List.replicate 115 0x78#8)))).map
      (fun t => t.txText.length) = some 127 := by decide
/-- A-6. -/
theorem test_addUint32_full :
    composeResult (exec (.addUint32 4294967295#32) (composing (0x2C#8 :: List.replicate 116 0x78#8))) =
      some ([], false, .textFull) := by decide
/-- A-2. -/
theorem test_addInt8 :
    composeResult (exec (.addInt8 0xFD#8) (composing [0x2C#8, 0x31#8, 0x32#8])) = some ([0x2C#8, 0x31#8, 0x32#8,
        0x2C#8, 0x2D#8, 0x33#8], true, .none) := by decide
/-- 44_param_codec.md R276. -/
theorem test_addInt16 :
    composeResult (exec (.addInt16 0x8000#16) (composing [])) = some ([0x2C#8, 0x2D#8, 0x33#8, 0x32#8, 0x37#8,
        0x36#8, 0x38#8], true, .none) := by decide
/-- 44_param_codec.md R277. -/
theorem test_addInt32 :
    composeResult (exec (.addInt32 0xFFFFFFFF#32) (composing [])) = some ([0x2C#8, 0x2D#8,
        0x31#8], true, .none) := by decide
/-- A-10. -/
theorem test_addFloat : composeResult (exec (.addFloat 0x3FC00000#32) (composing [0x2C#8, 0x33#8, 0x30#8, 0x30#8])) =
    some ([0x2C#8, 0x33#8, 0x30#8, 0x30#8, 0x2C#8, 0x31#8, 0x2E#8, 0x35#8, 0x30#8, 0x30#8, 0x30#8, 0x30#8,
        0x30#8], true, .none) := by decide
/-- F-3, F-5, F-8, F-10, F-12, F-14 and F-15. -/
theorem test_float_renderings :
    fmtF .even 0x3C000000#32 = [0x30#8, 0x2E#8, 0x30#8, 0x30#8, 0x37#8, 0x38#8, 0x31#8,
        0x32#8] ∧ fmtF .away 0x3C000000#32 = [0x30#8, 0x2E#8, 0x30#8, 0x30#8, 0x37#8, 0x38#8, 0x31#8, 0x33#8] ∧
    fmtF .even 0x42F6E979#32 = [0x31#8, 0x32#8, 0x33#8, 0x2E#8, 0x34#8, 0x35#8, 0x36#8, 0x30#8, 0x30#8,
        0x31#8] ∧ fmtF .even 0x80000000#32 = [0x2D#8, 0x30#8, 0x2E#8, 0x30#8, 0x30#8, 0x30#8, 0x30#8, 0x30#8,
        0x30#8] ∧
    fmtF .even 0x00000001#32 = [0x30#8, 0x2E#8, 0x30#8, 0x30#8, 0x30#8, 0x30#8, 0x30#8,
        0x30#8] ∧ fmtF .even 0xFFC00000#32 = [0x2D#8, 0x6E#8, 0x61#8, 0x6E#8] ∧
    fmtF .even 0x7F800000#32 = [0x69#8, 0x6E#8, 0x66#8] ∧
    fmtF .even 0xFF7FFFFF#32 = [0x2D#8, 0x33#8, 0x34#8, 0x30#8, 0x32#8, 0x38#8, 0x32#8, 0x33#8, 0x34#8, 0x36#8,
        0x36#8, 0x33#8, 0x38#8, 0x35#8, 0x32#8, 0x38#8, 0x38#8, 0x35#8, 0x39#8, 0x38#8, 0x31#8, 0x31#8, 0x37#8,
        0x30#8, 0x34#8, 0x31#8, 0x38#8, 0x33#8, 0x34#8, 0x38#8, 0x34#8, 0x35#8, 0x31#8, 0x36#8, 0x39#8, 0x32#8,
        0x35#8, 0x34#8, 0x34#8, 0x30#8, 0x2E#8, 0x30#8, 0x30#8, 0x30#8, 0x30#8, 0x30#8, 0x30#8] := by decide
/-- A-12. -/
theorem test_addString_empty :
    composeResult (exec (.addString 0x300) (composing [])) = some ([0x2C#8], true, .none) := by decide
/-- A-16. -/
theorem test_addString_faults :
    after (exec (.addString 0xFFE) (composing [])) = some { composing [] with phase := .faulted .memRange } := by decide
/-! ## GET_*: vectors G-1 to G-48, S-1 to S-9 -/

/-- G-1. -/
theorem test_getUint8 :
    codecResult (exec .getUint8 (textAt [0x2C#8, 0x31#8, 0x32#8, 0x2C#8, 0x2D#8, 0x33#8, 0x2C#8, 0x33#8, 0x2E#8,
        0x35#8] 0)) = some (true, 12#32, 3, .none) := by decide
/-- G-6. -/
theorem test_getUint8_range :
    codecResult (exec .getUint8 (textAt [0x2C#8, 0x32#8, 0x35#8,
        0x36#8] 0)) = some (false, 0xDEAD#32, 0, .getRange) := by decide
/-- G-11. -/
theorem test_getUint16 :
    codecResult (exec .getUint16 (textAt [0x2C#8, 0x36#8, 0x35#8, 0x35#8, 0x33#8,
        0x35#8] 0)) = some (true, 65535#32, 6, .none) := by decide
/-- G-13. -/
theorem test_getUint16_wide :
    codecResult (exec .getUint16 (textAt [0x2C#8, 0x31#8, 0x30#8, 0x30#8, 0x30#8, 0x30#8,
        0x30#8] 0)) = some (false, 0xDEAD#32, 0, .getSyntax) := by decide
/-- G-15. -/
theorem test_getUint32 :
    codecResult (exec .getUint32 (textAt [0x2C#8, 0x34#8, 0x32#8, 0x39#8, 0x34#8, 0x39#8, 0x36#8, 0x37#8, 0x32#8,
        0x39#8, 0x35#8] 0)) = some (true, 0xFFFFFFFF#32, 11, .none) := by decide
/-- G-16. -/
theorem test_getUint32_range :
    codecResult (exec .getUint32 (textAt [0x2C#8, 0x34#8, 0x32#8, 0x39#8, 0x34#8, 0x39#8, 0x36#8, 0x37#8, 0x32#8,
        0x39#8, 0x36#8] 0)) = some (false, 0xDEAD#32, 0, .getRange) := by decide
/-- G-17. -/
theorem test_getInt8 :
    codecResult (exec .getInt8 (textAt [0x2C#8, 0x2D#8, 0x31#8, 0x32#8,
        0x38#8] 0)) = some (true, 0xFFFFFF80#32, 5, .none) := by decide
/-- G-18. -/
theorem test_getInt8_range :
    codecResult (exec .getInt8 (textAt [0x2C#8, 0x31#8, 0x32#8,
        0x38#8] 0)) = some (false, 0xDEAD#32, 0, .getRange) := by decide
/-- G-23. -/
theorem test_getInt16 :
    codecResult (exec .getInt16 (textAt [0x2C#8, 0x2D#8, 0x33#8, 0x32#8, 0x37#8, 0x36#8,
        0x38#8] 0)) = some (true, 0xFFFF8000#32, 7, .none) := by decide
/-- G-24. -/
theorem test_getInt16_range :
    codecResult (exec .getInt16 (textAt [0x2C#8, 0x2D#8, 0x33#8, 0x32#8, 0x37#8, 0x36#8,
        0x39#8] 0)) = some (false, 0xDEAD#32, 0, .getRange) := by decide
/-- G-26. -/
theorem test_getInt32 :
    codecResult (exec .getInt32 (textAt [0x2C#8, 0x2D#8, 0x32#8, 0x31#8, 0x34#8, 0x37#8, 0x34#8, 0x38#8, 0x33#8,
        0x36#8, 0x34#8, 0x38#8] 0)) = some (true, 0x80000000#32, 12, .none) := by decide
/-- G-27. -/
theorem test_getInt32_range :
    codecResult (exec .getInt32 (textAt [0x2C#8, 0x32#8, 0x31#8, 0x34#8, 0x37#8, 0x34#8, 0x38#8, 0x33#8, 0x36#8,
        0x34#8, 0x38#8] 0)) = some (false, 0xDEAD#32, 0, .getRange) := by decide
/-- G-32. -/
theorem test_getFloat_negative_zero :
    codecResult (exec .getFloat (textAt [0x2C#8, 0x2D#8,
        0x30#8] 0)) = some (true, 0x80000000#32, 3, .none) := by decide
/-- G-41: a tie to even. -/
theorem test_getFloat_tie :
    codecResult (exec .getFloat (textAt [0x2C#8, 0x31#8, 0x36#8, 0x37#8, 0x37#8, 0x37#8, 0x32#8, 0x31#8,
        0x37#8] 0)) = some (true, 0x4B800000#32, 9, .none) := by decide
/-- G-29, G-33, G-34, G-42, G-43 and G-44, and the fields G-35 and G-36 that are no float. -/
theorem test_float_fields :
    parseF [0x31#8, 0x2E#8, 0x35#8] = .ok 0x3FC00000#32 ∧ parseF [0x35#8,
        0x2E#8] = .ok 0x40A00000#32 ∧ parseF [0x2E#8, 0x35#8] = .ok 0x3F000000#32 ∧
    parseF [0x30#8, 0x2E#8, 0x30#8, 0x30#8, 0x37#8, 0x38#8, 0x31#8, 0x32#8] = .ok 0x3BFFFBCE#32 ∧ parseF [0x39#8,
        0x39#8, 0x39#8, 0x39#8, 0x39#8, 0x39#8, 0x39#8, 0x39#8, 0x39#8, 0x39#8, 0x39#8, 0x39#8, 0x39#8, 0x39#8,
        0x2E#8] = .ok 0x56B5E621#32 ∧
    parseF [0x30#8, 0x2E#8, 0x30#8, 0x30#8, 0x30#8, 0x30#8, 0x30#8, 0x30#8, 0x30#8, 0x30#8, 0x30#8, 0x30#8,
        0x30#8, 0x30#8, 0x31#8] = .ok 0x29E12E13#32 ∧ parseF [0x2E#8] = .error .getSyntax ∧
    parseF [0x31#8, 0x65#8, 0x33#8] = .error .getSyntax := by decide
/-- S-2. -/
theorem test_getString_truncates : (after (exec (.getString 0x200 3#16) (textAt [0x2C#8, 0x61#8, 0x62#8, 0x63#8,
    0x2C#8, 0x37#8] 0))).map
    (fun t => (t.hostMem.get 0x200, t.hostMem.get 0x201, t.hostMem.get 0x202, t.hostMem.get 0x203, t.rxCursor)) =
      some (0x61#8, 0x62#8, 0x00#8, 0x6C#8, 4) := by decide
/-- S-9. -/
theorem test_getString_faults : after (exec (.getString 0xFFF 3#16) (textAt [0x2C#8, 0x61#8, 0x62#8] 0)) =
    some { textAt [0x2C#8, 0x61#8, 0x62#8] 0 with phase := .faulted .memRange } := by decide
/-! ## RECEIVE and the frames: vectors R-1 to R-34, T-1 to T-9, X-2, Z-2 -/

/-- T-1. -/
theorem test_receive_no_input : (after (exec .receive (idleWith []))).map
    (fun t => (t.phase, t.resKind, t.lastFail, t.deadline)) = some (.idle, .none, .noInput, 100#32) := by decide
/-- T-6: the deadline wraps. -/
theorem test_receive_deadline_wraps : (after (exec .receive { idleWith [0x0A#8] with now := 4294967246#32 })).map
    (fun t => (t.phase, t.deadline)) = some (.busy .scan, 50#32) := by decide
/-- R-5: the delimiter is the first byte of the body. -/
theorem test_frameAscii : after (step (busyAt .scan [0x23#8, 0x37#8])) =
    some { busyAt (.field .asciiId []) [0x37#8] with csA := 0x23#8, csB := 0x23#8 } := by decide
/-- R-1. -/
theorem test_frameAck : after (step (busyAt .scan [0x3F#8, 0x33#8])) =
    some { busyAt (.field .ackId []) [0x33#8] with csA := 0x3F#8, csB := 0x3F#8 } := by decide
/-- R-12: the deadline is extended to 1000 at once. -/
theorem test_frameBinary : (after (step (busyAt .scan [0x21#8, 0x35#8]))).map (fun t => (t.phase, t.deadline)) =
    some (.busy (.field .binId []), 1000#32) := by decide
/-- R-11. -/
theorem test_frameString : (after (step (busyAt .scan [0x22#8, 0x39#8]))).map (fun t => (t.phase, t.deadline)) =
    some (.busy (.field .strId []), 100#32) := by decide
/-- R-6. -/
theorem test_id_256 : (after (step (busyAt (.fieldEnd .asciiId [0x32#8, 0x35#8, 0x36#8]) [0x3B#8, 0x31#8,
    0x3B#8]))).map
    (fun t => (t.phase, t.lastFail, t.rxFifo)) = some (.idle, .range, [0x31#8, 0x3B#8]) := by decide
/-- R-23, with `TEXT_CAP` = 3. -/
theorem test_text_overflow :
    (after (step { busyAt (.asciiByte 1#8 1 [0x2C#8, 0x39#8, 0x39#8]) [0x39#8, 0x3B#8, 0x35#8, 0x36#8, 0x39#8,
        0x3B#8] with config := { Config.default with textCap := 3 } })).map
      (fun t => (t.phase, t.lastFail, t.rxFifo)) = some (.idle, .overflow, [0x3B#8, 0x35#8, 0x36#8, 0x39#8,
          0x3B#8]) := by decide
/-- X-2: the byte that faults stays queued. -/
theorem test_binary_write_faults : after (step { busyAt (.binByte 5#8 3#16 2) [0x43#8, 0x3B#8, 0x36#8, 0x31#8,
    0x39#8, 0x32#8, 0x39#8, 0x3B#8] with binRxDesc := ⟨true, 0xFFE, 4#32⟩ }) =
    some { busyAt (.binByte 5#8 3#16 2) [0x43#8, 0x3B#8, 0x36#8, 0x31#8, 0x39#8, 0x32#8, 0x39#8, 0x3B#8] with
      binRxDesc := ⟨true, 0xFFE, 4#32⟩, phase := .faulted .memRange } := by decide
/-- Z-2: reset abandons a RECEIVE and keeps the clock. -/
theorem test_reset_abandons : after (step { busyAt (.field .asciiId [0x37#8]) [0x30#8] with now := 40#32, schedule := [.reset] }) =
    some { idleWith [0x30#8] with now := 40#32 } := by decide
/-- X-1. -/
theorem test_reserved_command_refused :
    stopOf (step { idleWith [] with port := [.command ⟨0x02#8, []⟩] }) = some (.inr .illegalCommand) := by decide
/-- B-9, with `STR_CAP` = 3. -/
theorem test_long_tx_str_refused : stopOf (step { idleWith [] with
    config := { Config.default with strCap := 3 }, port := [.writeTxStr [0x6C#8, 0x6F#8, 0x6E#8,
        0x67#8]] }) = some (.inr .txStrTooLong) := by decide
/-- P6: the engine is stuck in `Faulted`. -/
theorem test_faulted_is_stuck :
    stopOf (step { idleWith [] with phase := .faulted .memRange, port := [.command ⟨0x40#8, []⟩] }) = some (.inl .memRange) := by decide
/-- 20_memory.md R101: the HOST reads an Idle engine, and waits for a Busy one. -/
theorem test_host_reads_idle : (hostRead (textAt [0x2C#8,
    0x31#8] 0)).map (fun v => (v.rxAscii.text, cString v.txStr)) =
    some ([0x2C#8, 0x31#8], [0x00#8]) ∧ hostRead (busyAt .scan []) = none ∧ hostReadByte (idleWith []) 0x100 = some 0x41#8 ∧
    hostReadByte (idleWith []) 0x1000 = none := by decide

/-- T-2: where nothing is scheduled, the clock ticks for a RECEIVE that only waits. -/
theorem test_waiting_receive_ticks : after (step (busyAt .scan [])) = some { busyAt .scan [] with now := 1#32 } := by decide
/-- R-30: `;` does not end an ACK id. -/
theorem test_ack_id_takes_semicolon : (after (step (busyAt (.field .ackId [0x33#8]) [0x3B#8, 0x32#8]))).map
    (fun t => (t.phase, t.rxFifo)) = some (.busy (.field .ackId [0x33#8, 0x3B#8]), [0x32#8]) := by decide

/-! ## Cases that meet the hypotheses of the statements -/

/-- An Idle engine on which one request is pending. -/
def presenting (r : HostRequest) : State := { idleWith [] with port := [r] }

/-- The first opcode and the last of each reserved range. -/
def reservedOps : List Byte :=
  [0x00#8, 0x02#8, 0x0F#8, 0x15#8, 0x1F#8, 0x22#8, 0x2F#8, 0x38#8, 0x3F#8, 0x48#8, 0xFF#8]

theorem witness_ReservedOpcodesRefused :
    (∀ op : Byte, EngineNext (presenting (.command ⟨op, [some 1]⟩)) (presenting (.command ⟨op, [some 1]⟩)) ∧
      (presenting (.command ⟨op, [some 1]⟩)).phase = .idle ∧
      (presenting (.command ⟨op, [some 1]⟩)).port = [.command ⟨op, [some 1]⟩]) ∧
    ∀ op ∈ reservedOps, (op = 0x00#8 ∨ (0x02#8 ≤ op ∧ op ≤ 0x0F#8) ∨ (0x15#8 ≤ op ∧ op ≤ 0x1F#8) ∨
      (0x22#8 ≤ op ∧ op ≤ 0x2F#8) ∨ (0x38#8 ≤ op ∧ op ≤ 0x3F#8) ∨ 0x48#8 ≤ op) :=
  ⟨fun _ => ⟨engineNext_self rfl rfl, rfl, rfl⟩, by decide⟩

/-- One command that is refused and one that is not. -/
theorem witness_ExactlyIllFormedCommandsRefused :
    ∀ r ∈ [(⟨0x10#8, [some 256]⟩ : CommandRecord), ⟨0x10#8, [some 255]⟩],
      EngineNext (presenting (.command r)) (presenting (.command r)) ∧ (presenting (.command r)).phase = .idle ∧
      (presenting (.command r)).port = [.command r] := fun _ _ => ⟨engineNext_self rfl rfl, rfl, rfl⟩

theorem witness_StepRunsDecodedInstruction :
    (EngineNext (presenting (.command ⟨0x40#8, []⟩)) (presenting (.command ⟨0x40#8, []⟩)) ∧
      (presenting (.command ⟨0x40#8, []⟩)).phase = .idle ∧
      (presenting (.command ⟨0x40#8, []⟩)).port = [.command ⟨0x40#8, []⟩] ∧
      decodeCommand ⟨0x40#8, []⟩ = .ok .getUint8) ∧
    (EngineNext (busyAt .scan [0x3F#8, 0x33#8]) (busyAt .scan [0x3F#8, 0x33#8]) ∧ (busyAt .scan [0x3F#8,
        0x33#8]).phase = .busy .scan ∧
      expired (busyAt .scan [0x3F#8, 0x33#8]) = false ∧ (busyAt .scan [0x3F#8, 0x33#8]).rxFifo = 0x3F#8 :: [0x33#8] ∧
      decodeWire 0x3F#8 = .ok .frameAck) :=
  ⟨⟨engineNext_self rfl rfl, rfl, rfl, by decide⟩, engineNext_self rfl rfl, rfl, by decide, rfl, by decide⟩

/-- Each delimiter, and a byte that is none. -/
theorem witness_ScanDispatchesEveryByte : ∀ b ∈ [0x23#8, 0x3F#8, 0x21#8, 0x22#8, 0x24#8],
    EngineNext (busyAt .scan [b]) (busyAt .scan [b]) ∧ (busyAt .scan [b]).phase = .busy .scan ∧
    expired (busyAt .scan [b]) = false ∧ (busyAt .scan [b]).rxFifo = [b] := fun b h =>
  ⟨engineNext_self rfl rfl, rfl,
    (by decide : ∀ b ∈ [0x23#8, 0x3F#8, 0x21#8, 0x22#8, 0x24#8], expired (busyAt .scan [b]) = false) b h, rfl⟩

/-- An engine that has faulted, with a byte about to arrive. -/
def faultedEngine (turns : List Turn) : State :=
  { idleWith [] with phase := .faulted .memRange, schedule := turns, port := [.command ⟨0x40#8, []⟩] }

theorem witness_EngineStuckInFaulted :
    (EngineNext (faultedEngine []) (faultedEngine []) ∧ (faultedEngine []).phase = .faulted .memRange) ∧
    (faultedEngine [.arrive 0x23#8]).phase = .faulted .memRange ∧
    (faultedEngine [.arrive 0x23#8]).schedule.head? ≠ some .reset ∧
    ∃ t, step (faultedEngine [.arrive 0x23#8]) = .next t :=
  ⟨⟨engineNext_self rfl rfl, rfl⟩, rfl, by decide, _, rfl⟩

theorem witness_HostWaitsUnlessIdle :
    (busyAt .scan [0x23#8]).phase ≠ .idle ∧ (busyAt .scan [0x23#8]).schedule.head? ≠ some .reset ∧
    ∃ t, step (busyAt .scan [0x23#8]) = .next t := ⟨by decide, by decide, _, rfl⟩

/-- The clock at its last value, too. -/
theorem witness_LinkMovesInEveryPhase :
    { idleWith [] with schedule := [.arrive 0x23#8, .tick] }.schedule = .arrive 0x23#8 :: [.tick] ∧
    { busyAt .scan [] with schedule := [.tick], now := 0xFFFFFFFF#32 }.schedule = .tick :: [] := ⟨rfl, rfl⟩

/-- A text of `STR_CAP` bytes and one of one byte more; a write up to the last byte of memory. -/
theorem witness_HostWritesServedWhenIdle :
    (∀ n ∈ [127, 128], EngineNext (presenting (.writeTxStr (List.replicate n 0x61#8)))
        (presenting (.writeTxStr (List.replicate n 0x61#8))) ∧
      (presenting (.writeTxStr (List.replicate n 0x61#8))).phase = .idle ∧
      (presenting (.writeTxStr (List.replicate n 0x61#8))).port = [.writeTxStr (List.replicate n 0x61#8)]) ∧
    (List.replicate 127 0x61#8).length ≤ Config.default.strCap ∧
    Config.default.strCap < (List.replicate 128 0x61#8).length ∧
    EngineNext (presenting (.poke 0xFFE [1#8, 2#8])) (presenting (.poke 0xFFE [1#8, 2#8])) ∧
    (presenting (.poke 0xFFE [1#8, 2#8])).port = [.poke 0xFFE [1#8, 2#8]] ∧
    0xFFE + [1#8, 2#8].length ≤ (presenting (.poke 0xFFE [1#8, 2#8])).config.hostMemSize ∧
    (presenting (.poke 0xFFE [1#8, 2#8])).hostMem.wf :=
  ⟨fun _ _ => ⟨engineNext_self rfl rfl, rfl, rfl⟩, by simp [Config.default], by simp [Config.default],
    engineNext_self rfl rfl, rfl, by decide, by decide⟩

theorem witness_ResetRegisterValues :
    idleWith [0x23#8, 0x37#8] = State.launch Config.default memory [0x23#8, 0x37#8] 0#32 ∧
    ∀ p ∈ [Phase.idle, .busy .scan, .faulted .memRange],
      { idleWith [] with phase := p, schedule := [.reset] }.schedule = .reset :: [] := ⟨rfl, fun _ _ => rfl⟩

/-- Both ends of both ranges, with the deadline on either side of the clock's wrap. -/
theorem witness_DeadlineComparison :
    (∀ k ∈ [0, 2 ^ 31 - 1], k < 2 ^ 31 ∧ ∃ s : State, s.now = s.deadline + BitVec.ofNat 32 k) ∧
    (∀ k ∈ [1, 2 ^ 31], 1 ≤ k ∧ k ≤ 2 ^ 31 ∧ ∃ s : State, s.deadline = s.now + BitVec.ofNat 32 k) := by
  refine ⟨fun k hk => ⟨?_, { idleWith [] with deadline := 0xFFFFFFFF#32, now := 0xFFFFFFFF#32 + BitVec.ofNat 32 k }, rfl⟩,
    fun k hk => ⟨?_, ?_, { idleWith [] with now := 0xFFFFFFFF#32, deadline := 0xFFFFFFFF#32 + BitVec.ofNat 32 k }, rfl⟩⟩ <;>
  · simp only [List.mem_cons, List.not_mem_nil, or_false] at hk
    omega

theorem witness_ChecksumDetection : (0x37#8 : Byte) ≠ 0x38#8 := by decide

/-- 95_test_vectors.md C-11 and C-12 differ in three bytes; two bytes 256 apart can hide each other. -/
theorem test_checksum_collision :
    checksumOf [0x23#8, 0x37#8, 0x2C#8, 0x33#8, 0x30#8, 0x30#8, 0x2C#8, 0x31#8, 0x2E#8, 0x35#8, 0x30#8, 0x30#8,
        0x30#8, 0x30#8, 0x30#8, 0x3B#8] = 1031#16 ∧ checksumOf [0x23#8, 0x37#8, 0x2C#8, 0x34#8, 0x2E#8, 0x31#8,
        0x2C#8, 0x31#8, 0x2E#8, 0x35#8, 0x30#8, 0x30#8, 0x30#8, 0x30#8, 0x30#8, 0x3B#8] = 1031#16 := by decide

theorem witness_DecimalRendering : (0 : Nat) < 1 ∧ (9 : Nat) < 10 ∧ Digits [0x30#8, 0x30#8, 0x37#8] := by decide

/-- A tie, an ordinary value, a NaN, an infinity, and the largest fraction. -/
theorem witness_FloatRenderingIsNearest :
    floatExp 0x3C000000#32 ≠ 255 ∧ floatExp 0x42F6E979#32 ≠ 255 ∧
    (floatExp 0xFFC00000#32 = 255 ∧ floatFrac 0xFFC00000#32 ≠ 0) ∧
    (floatExp 0x7F800000#32 = 255 ∧ floatFrac 0x7F800000#32 = 0) ∧ 999999 < 10 ^ 6 := by decide

/-- 0.0078125 times 10^6 is half way between 7812 and 7813. -/
theorem witness_float_tie : |((7812 : Nat) : ℚ) - |floatValue 0x3C000000#32| * 10 ^ 6| = 1 / 2 := by
  have h1 : floatMant 0x3C000000#32 = 2 ^ 23 := by decide
  have h2 : floatScale 0x3C000000#32 = 120 := by decide
  have h3 : (0x3C000000#32 : U32).msb = false := by decide
  simp only [floatValue, h1, h2, h3]
  norm_num

theorem witness_ReceiveFirstStep : (idleWith []).rxFifo = [] ∧ (idleWith [0x0A#8]).rxFifo ≠ [] := by decide

/-- An empty queue at the scan and in a field one digit short of its limit, the ENGINE scheduled or nothing; a field at
its limit, a byte that ends a field, and bytes that do not. -/
theorem witness_PollsBeforeDeadline :
    (∀ turns ∈ [[], [Turn.engine]], ∀ k ∈ [ReceiveAt.scan, .field .asciiId [0x31#8, 0x32#8]],
      expired { busyAt k [] with schedule := turns } = false ∧ { busyAt k [] with schedule := turns }.phase = .busy k ∧
      { busyAt k [] with schedule := turns }.rxFifo = [] ∧ { busyAt k [] with schedule := turns }.schedule = turns) ∧
    [0x31#8, 0x32#8].length ≠ Config.default.idDigits ∧
    (∀ p ∈ [(FieldUse.ackId, [0x31#8, 0x32#8, 0x33#8], [0x34#8]), (.asciiId, [0x37#8], [0x3B#8,
        0x33#8]), (.ackId, [0x33#8], [0x3B#8, 0x32#8]),
        (.trailer 38162#16 (.ascii 7#8 0 []), [0x33#8, 0x38#8, 0x31#8, 0x36#8], [0x32#8, 0x3B#8])],
      EngineNext (busyAt (.field p.1 p.2.1) p.2.2) (busyAt (.field p.1 p.2.1) p.2.2) ∧
      expired (busyAt (.field p.1 p.2.1) p.2.2) = false ∧
      (busyAt (.field p.1 p.2.1) p.2.2).phase = .busy (.field p.1 p.2.1)) ∧
    [0x31#8, 0x32#8, 0x33#8].length = Config.default.idDigits ∧ [0x33#8].length ≠ Config.default.idDigits ∧
    [0x33#8, 0x38#8, 0x31#8, 0x36#8].length ≠ Config.default.csDigits := by
  refine ⟨fun turns _ k _ => ⟨rfl, rfl, rfl, rfl⟩, by decide, fun p hp => ⟨.inl ⟨rfl, ?_, rfl⟩, rfl, rfl⟩, by decide⟩
  simp only [List.mem_cons, List.not_mem_nil, or_false] at hp
  rcases hp with rfl | rfl | rfl | rfl <;> rfl

/-- Ticks and polls mixed before the deadline, with the clock about to wrap; a deadline 2^31 ms ahead; a deadline that has
come; and bytes queued that only ticks keep from being taken. -/
theorem witness_ReceiveEndsAtDeadline :
    (∀ p ∈ [(0xFFFFFFFE#32, 3, [Turn.engine, .tick, .engine, .tick]), (0#32, 2 ^ 31, [.tick]), (7#32, 0, [.engine])],
      let s := { busyAt .scan [] with now := p.1, deadline := p.1 + BitVec.ofNat 32 p.2.1, schedule := p.2.2 }
      s.phase = .busy .scan ∧ s.deadline = s.now + BitVec.ofNat 32 p.2.1 ∧ s.rxFifo = [] ∧ p.2.1 ≤ 2 ^ 31 ∧
      (∀ m ∈ s.schedule, m = .tick ∨ m = .engine) ∧ s.schedule.count .tick ≤ p.2.1) ∧
    { busyAt .scan [0x23#8, 0x37#8, 0x2C#8,
        0x33#8] with now := 98#32, schedule := [.tick, .tick] }.deadline = 98#32 + BitVec.ofNat 32 2 ∧
    { busyAt .scan [0x23#8, 0x37#8, 0x2C#8,
        0x33#8] with now := 98#32, schedule := [.tick, .tick] }.schedule = List.replicate 2 .tick ∧
    (lateAt (.field .ackId []) [0x33#8]).deadline = (lateAt (.field .ackId []) [0x33#8]).now + BitVec.ofNat 32 0 ∧
    (lateAt (.field .ackId []) [0x33#8]).schedule = List.replicate 0 .tick := by
  refine ⟨fun p hp => ⟨rfl, rfl, rfl, ?_⟩, by decide⟩
  revert p
  decide

/-- The states that follow one after another from `s` when the environment makes its moves. -/
def traceOf (environment : Environment) (s : State) : Nat → State
  | 0 => s
  | n + 1 =>
    match step { traceOf environment s n with schedule := environment n :: (traceOf environment s n).schedule } with
    | .next t => t
    | .fault _ | .refused _ => traceOf environment s n

/-- Every choice of moves can be followed. -/
theorem follows_traceOf (environment : Environment) (s : State) : Follows environment (traceOf environment s) := by
  intro n k hk
  obtain ⟨t, ht⟩ : ∃ t, step { traceOf environment s n with
      schedule := environment n :: (traceOf environment s n).schedule } = .next t := by
    cases environment n with
    | arrive b => exact ⟨_, step_arrive rfl⟩
    | tick => exact ⟨_, step_tick rfl⟩
    | reset => exact ⟨_, step_reset rfl⟩
    | engine =>
      obtain ⟨t, ht, -⟩ := receiveStep_next k (traceOf environment s n)
      have he : EngineNext { traceOf environment s n with schedule := .engine :: (traceOf environment s n).schedule }
          (traceOf environment s n) := .inr ⟨_, rfl, rfl⟩
      exact ⟨t, (step_busy he hk).trans ht⟩
  rw [ht]
  simp only [traceOf, ht]

/-- Ticks and polls in turn. -/
def alternating : Environment := fun n => if n % 2 = 0 then .tick else .engine

theorem witness_EveryReceiveEnds :
    (busyAt .scan [0x0A#8]).phase = .busy .scan ∧ Follows alternating (traceOf alternating (busyAt .scan [0x0A#8])) ∧
    FairClock alternating ∧ PollsInTime alternating := by
  refine ⟨rfl, follows_traceOf _ _, fun n => ⟨2 * n, by omega, by simp [alternating]⟩,
    fun n => ⟨n + (n + 1) % 2, by omega, ?_, lt_of_le_of_lt List.count_le_length ?_⟩⟩
  · rw [alternating, if_neg (by omega)]
  · simp only [List.length_map, List.length_range']
    omega

/-- `ReadField`'s own loop, and another one. -/
theorem witness_ExpiryBeforeAvailability :
    (EngineNext (lateAt (.field .ackId []) [0x33#8]) (lateAt (.field .ackId []) [0x33#8]) ∧
      (lateAt (.field .ackId []) [0x33#8]).phase = .busy (.field .ackId []) ∧
      expired (lateAt (.field .ackId []) [0x33#8]) = true) ∧
    EngineNext (lateAt .scan [0x3F#8, 0x33#8]) (lateAt .scan [0x3F#8, 0x33#8]) ∧ (lateAt .scan [0x3F#8,
        0x33#8]).phase = .busy .scan ∧
    expired (lateAt .scan [0x3F#8, 0x33#8]) = true ∧
    ∀ use acc, ReceiveAt.scan ≠ .field use acc :=
  ⟨⟨engineNext_self rfl rfl, rfl, by decide⟩, engineNext_self rfl rfl, rfl, by decide, fun _ _ h => by cases h⟩

/-- Bytes that do not end a field, an empty field, the id 256 and the length 65536. -/
theorem witness_NumericFieldFailures :
    (∀ p ∈ [(FieldUse.asciiId, [0x31#8, 0x32#8, 0x33#8], 0x34#8), (.ackId, [0x30#8, 0x30#8,
        0x33#8], 0x3B#8), (.strLen 9#8, [0x35#8], 0x2C#8),
        (.trailer 1031#16 (.ascii 7#8 0 []), [0x31#8, 0x30#8, 0x33#8,
            0x31#8], 0x2C#8), (.ackId, [], 0x2C#8), (.strId, [0x32#8, 0x35#8, 0x36#8], 0x2C#8),
        (.binLen 5#8, [0x36#8, 0x35#8, 0x35#8, 0x33#8, 0x36#8], 0x3B#8)],
      EngineNext (busyAt (.fieldEnd p.1 p.2.1) [p.2.2]) (busyAt (.fieldEnd p.1 p.2.1) [p.2.2]) ∧
      (busyAt (.fieldEnd p.1 p.2.1) [p.2.2]).phase = .busy (.fieldEnd p.1 p.2.1) ∧
      expired (busyAt (.fieldEnd p.1 p.2.1) [p.2.2]) = false ∧
      (busyAt (.fieldEnd p.1 p.2.1) [p.2.2]).rxFifo = [p.2.2]) ∧
    ¬ (0x34#8 = 0x2C#8 ∨ 0x34#8 = 0x3B#8) ∧ (0x3B#8 : Byte) ≠ 0x2C#8 ∧ ¬ Digits [] ∧
    (Digits [0x32#8, 0x35#8, 0x36#8] ∧ 255 < decVal [0x32#8, 0x35#8, 0x36#8]) ∧ (Digits [0x36#8, 0x35#8, 0x35#8,
        0x33#8, 0x36#8] ∧ 65535 < decVal [0x36#8, 0x35#8, 0x35#8, 0x33#8, 0x36#8]) :=
  ⟨fun _ _ => ⟨engineNext_self rfl rfl, rfl, rfl, rfl⟩, by decide⟩

/-- No buffer and length 0; a buffer of 4 bytes and length 5. -/
theorem witness_CapacityRejectionDrains :
    ∀ p ∈ [(RxDesc.default, [0x30#8]), (⟨true, 0x100, 4#32⟩, [0x35#8])],
      EngineNext { busyAt (.fieldEnd (.binLen 9#8) p.2) [0x3B#8, 0x48#8, 0x45#8, 0x4C#8, 0x4C#8,
          0x4F#8] with binRxDesc := p.1 }
        { busyAt (.fieldEnd (.binLen 9#8) p.2) [0x3B#8, 0x48#8, 0x45#8, 0x4C#8, 0x4C#8,
            0x4F#8] with binRxDesc := p.1 } ∧
      { busyAt (.fieldEnd (.binLen 9#8) p.2) [0x3B#8, 0x48#8, 0x45#8, 0x4C#8, 0x4C#8,
          0x4F#8] with binRxDesc := p.1 }.phase =
        .busy (.fieldEnd (.binLen 9#8) p.2) ∧
      expired { busyAt (.fieldEnd (.binLen 9#8) p.2) [0x3B#8, 0x48#8, 0x45#8, 0x4C#8, 0x4C#8,
          0x4F#8] with binRxDesc := p.1 } = false ∧
      { busyAt (.fieldEnd (.binLen 9#8) p.2) [0x3B#8, 0x48#8, 0x45#8, 0x4C#8, 0x4C#8,
          0x4F#8] with binRxDesc := p.1 }.rxFifo = chSemi :: [0x48#8, 0x45#8, 0x4C#8, 0x4C#8, 0x4F#8] ∧
      Digits p.2 ∧ decVal p.2 ≤ 65535 ∧ (p.1.assigned = false ∨ p.1.cap.toNat < decVal p.2) := fun p hp =>
  ⟨engineNext_self rfl rfl, rfl, rfl, rfl, (by decide : ∀ p ∈ [(RxDesc.default, [0x30#8]), (⟨true, 0x100, 4#32⟩, [0x35#8])],
    Digits p.2 ∧ decVal p.2 ≤ 65535 ∧ (p.1.assigned = false ∨ p.1.cap.toNat < decVal p.2)) p hp⟩

/-- Each kind of payload, with a byte that ends the attempt. -/
theorem witness_PayloadFailures :
    (∀ p ∈ [(ReceiveAt.asciiByte 1#8 1 (List.replicate 127 0x2C#8), 0x39#8), (.ackValue 3#8, 0x32#8),
        (.ackEnd 3#8 true, 0x2C#8), (.binEnd 5#8 3#16, 0x0A#8), (.strEnd 9#8 5#16 [0x68#8, 0x65#8, 0x6C#8,
            0x6C#8, 0x6F#8], 0x21#8)],
      EngineNext (busyAt p.1 [p.2]) (busyAt p.1 [p.2]) ∧ (busyAt p.1 [p.2]).phase = .busy p.1 ∧
      expired (busyAt p.1 [p.2]) = false ∧ (busyAt p.1 [p.2]).rxFifo = [p.2]) ∧
    (List.replicate 127 0x2C#8).length = Config.default.textCap ∧ (0x39#8 : Byte) ≠ 0x3B#8 ∧
    ((0x32#8 : Byte) ≠ 0x30#8 ∧ (0x32#8 : Byte) ≠ 0x31#8) ∧ (0x2C#8 : Byte) ≠ 0x3B#8 ∧ (0x0A#8 : Byte) ≠ 0x3B#8 ∧
    (0x21#8 : Byte) ≠ 0x3B#8 :=
  ⟨fun _ _ => ⟨engineNext_self rfl rfl, rfl, rfl, rfl⟩, by simp [Config.default], by decide⟩

/-- A RECEIVE about to store payload byte `i` in a buffer that reaches beyond memory. -/
def payloadAt (i : Nat) : State := { busyAt (.binByte 5#8 3#16 i) [0x43#8,
    0x3B#8] with binRxDesc := ⟨true, 0xFFE, 4#32⟩ }

/-- The last byte of memory, and the first address beyond it. -/
theorem witness_BinaryPayloadStored :
    (∀ i, EngineNext (payloadAt i) (payloadAt i) ∧ (payloadAt i).phase = .busy (.binByte 5#8 3#16 i) ∧
      expired (payloadAt i) = false ∧ (payloadAt i).rxFifo = 0x43#8 :: [0x3B#8]) ∧
    (payloadAt 1).binRxDesc.base + 1 < (payloadAt 1).config.hostMemSize ∧ (payloadAt 1).hostMem.wf ∧
    (payloadAt 2).config.hostMemSize ≤ (payloadAt 2).binRxDesc.base + 2 :=
  ⟨fun _ => ⟨engineNext_self rfl rfl, rfl, rfl, rfl⟩, by decide⟩

/-- A trailer that matches and one that does not, for each kind of message. -/
theorem witness_MismatchOnlyFlagsRecord :
    ∀ p ∈ [(Parsed.ascii 7#8 255 [], [0x33#8, 0x38#8, 0x31#8, 0x36#8, 0x32#8]), (.ack 3#8 true, [0x32#8, 0x36#8,
        0x30#8, 0x31#8]), (.binary 5#8 3#16, [0x30#8]),
        (.string 9#8 5#16 [0x68#8, 0x65#8, 0x6C#8, 0x6C#8, 0x6F#8], [0x30#8, 0x30#8, 0x30#8, 0x31#8, 0x38#8])],
      EngineNext (busyAt (.fieldEnd (.trailer 38162#16 p.1) p.2) [0x3B#8, 0x0A#8])
        (busyAt (.fieldEnd (.trailer 38162#16 p.1) p.2) [0x3B#8, 0x0A#8]) ∧
      (busyAt (.fieldEnd (.trailer 38162#16 p.1) p.2) [0x3B#8,
          0x0A#8]).phase = .busy (.fieldEnd (.trailer 38162#16 p.1) p.2) ∧
      expired (busyAt (.fieldEnd (.trailer 38162#16 p.1) p.2) [0x3B#8, 0x0A#8]) = false ∧
      (busyAt (.fieldEnd (.trailer 38162#16 p.1) p.2) [0x3B#8, 0x0A#8]).rxFifo = 0x3B#8 :: [0x0A#8] ∧ Digits p.2 ∧
      ∀ id np text, p.1 = .ascii id np text → np < 256 := fun p hp =>
  ⟨engineNext_self rfl rfl, rfl, rfl, rfl, (by decide : ∀ p ∈ [(Parsed.ascii 7#8 255 [], [0x33#8, 0x38#8, 0x31#8,
      0x36#8, 0x32#8]), (.ack 3#8 true, [0x32#8, 0x36#8, 0x30#8, 0x31#8]),
    (.binary 5#8 3#16, [0x30#8]), (.string 9#8 5#16 [0x68#8, 0x65#8, 0x6C#8, 0x6C#8, 0x6F#8], [0x30#8, 0x30#8,
        0x30#8, 0x31#8, 0x38#8])], Digits p.2) p hp, by
    simp only [List.mem_cons, List.not_mem_nil, or_false] at hp
    rcases hp with rfl | rfl | rfl | rfl <;> simp +contextual [eq_comm]⟩

theorem witness_ReceiveFrame : EngineNext (busyAt .scan [0x21#8, 0x35#8]) (busyAt .scan [0x21#8, 0x35#8]) ∧
    (busyAt .scan [0x21#8, 0x35#8]).phase = .busy .scan ∧ ∃ t, step (busyAt .scan [0x21#8, 0x35#8]) = .next t :=
  ⟨engineNext_self rfl rfl, rfl, _, rfl⟩

theorem witness_ReceiveOutcomes : EngineNext (busyAt (.ackValue 3#8) [0x32#8]) (busyAt (.ackValue 3#8) [0x32#8]) ∧
    (busyAt (.ackValue 3#8) [0x32#8]).phase = .busy (.ackValue 3#8) := ⟨engineNext_self rfl rfl, rfl⟩

theorem witness_ScanSkipsNoise :
    (busyAt .scan ([0x78#8, 0x79#8, 0x0A#8] ++ [0x23#8, 0x37#8,
        0x3B#8])).phase = .busy .scan ∧ (busyAt .scan ([0x78#8, 0x79#8, 0x0A#8] ++ [0x23#8, 0x37#8,
        0x3B#8])).schedule = [] ∧
    expired (busyAt .scan ([0x78#8, 0x79#8, 0x0A#8] ++ [0x23#8, 0x37#8, 0x3B#8])) = false ∧ [0x78#8, 0x79#8,
        0x0A#8] ≠ [] ∧
    (∀ b ∈ [0x78#8, 0x79#8, 0x0A#8], b ≠ 0x23#8 ∧ b ≠ 0x3F#8 ∧ b ≠ 0x21#8 ∧ b ≠ 0x22#8) ∧
    (busyAt .scan ([0x78#8, 0x79#8, 0x0A#8] ++ [0x23#8, 0x37#8, 0x3B#8])).rxFifo = [0x78#8, 0x79#8,
        0x0A#8] ++ [0x23#8, 0x37#8, 0x3B#8] := by decide

/-- A scanning RECEIVE with the default parameters and its deadline at 100, at a time, and the moves that are scheduled. -/
def scanning (now : U32) (fifo : List Byte) (turns : List Turn) : State :=
  { busyAt .scan fifo with now := now, schedule := turns }

/-- It starts with the checksum reset, and its queue and schedule are those given. -/
theorem scanning_starts (now : U32) (fifo : List Byte) (turns : List Turn) :
    let s := scanning now fifo turns
    s.phase = .busy .scan ∧ s.csA = 0#8 ∧ s.csB = 0#8 ∧ s.rxFifo = fifo ∧ s.schedule = turns ∧ s.now = now ∧
      s.deadline = 100#32 := ⟨rfl, rfl, rfl, rfl, rfl, rfl, rfl⟩

/-- An id field, and its number. -/
abbrev IdField (id : List Byte) : Prop := Digits id ∧ id.length ≤ 3 ∧ decVal id ≤ 255

/-- A trailer. -/
abbrev TrailerField (trailer : List Byte) : Prop := Digits trailer ∧ trailer.length ≤ 5

/-- R-10 queued, and R-5 with polls and ticks before its last byte arrives. -/
theorem witness_AsciiFrameReceived :
    InTime 100#32 0#32 [] ∧
    InTime 100#32 0#32
      [.engine, .tick, .arrive 0x38#8, .arrive 0x3B#8] ∧
    IdField [0x37#8] ∧ IdField [0x30#8, 0x30#8, 0x37#8] ∧ TrailerField [0x31#8, 0x30#8, 0x33#8,
        0x31#8] ∧ TrailerField [0x36#8, 0x32#8, 0x38#8, 0x38#8, 0x38#8] ∧
    CommaLed [0x2C#8, 0x33#8, 0x30#8, 0x30#8, 0x2C#8, 0x31#8, 0x2E#8, 0x35#8, 0x30#8, 0x30#8, 0x30#8, 0x30#8,
        0x30#8] ∧ 0x3B#8 ∉ [0x2C#8, 0x33#8, 0x30#8, 0x30#8, 0x2C#8, 0x31#8, 0x2E#8, 0x35#8, 0x30#8, 0x30#8,
        0x30#8, 0x30#8, 0x30#8] ∧ [0x2C#8, 0x33#8, 0x30#8, 0x30#8, 0x2C#8, 0x31#8, 0x2E#8, 0x35#8, 0x30#8,
        0x30#8, 0x30#8, 0x30#8, 0x30#8].length ≤ 127 ∧
    Config.default.textCap < 256 ∧
    [0x23#8, 0x37#8, 0x2C#8, 0x33#8, 0x30#8, 0x30#8, 0x2C#8, 0x31#8, 0x2E#8, 0x35#8, 0x30#8, 0x30#8, 0x30#8,
        0x30#8, 0x30#8, 0x3B#8, 0x31#8, 0x30#8, 0x33#8, 0x31#8, 0x3B#8, 0x0A#8] = asciiBody [0x37#8] [0x2C#8,
        0x33#8, 0x30#8, 0x30#8, 0x2C#8, 0x31#8, 0x2E#8, 0x35#8, 0x30#8, 0x30#8, 0x30#8, 0x30#8,
        0x30#8] ++ [0x31#8, 0x30#8, 0x33#8, 0x31#8] ++ [0x3B#8] ++ [0x0A#8] ∧
    [0x23#8, 0x30#8, 0x30#8, 0x37#8, 0x3B#8, 0x36#8, 0x32#8, 0x38#8,
        0x38#8] ++ arrivals [.engine, .tick, .arrive 0x38#8, .arrive 0x3B#8] =
      asciiBody [0x30#8, 0x30#8, 0x37#8] [] ++ [0x36#8, 0x32#8, 0x38#8, 0x38#8, 0x38#8] ++ [0x3B#8] ++ [] :=
  ⟨⟨by decide, 100, by decide, by decide, rfl⟩, ⟨by decide, 100, by decide, by decide, rfl⟩, by decide⟩

/-- T-8 from `NOW` = 97 on: the last byte arrives 1 ms before the deadline. -/
theorem witness_AckFrameReceived :
    InTime 100#32 97#32
      [.engine, .tick, .tick, .arrive 0x3B#8] ∧
    IdField [0x33#8] ∧ TrailerField [0x32#8, 0x36#8, 0x30#8, 0x30#8] ∧
    [0x3F#8, 0x33#8, 0x2C#8, 0x31#8, 0x3B#8, 0x32#8, 0x36#8, 0x30#8,
        0x30#8] ++ arrivals [.engine, .tick, .tick, .arrive 0x3B#8] = ackBody [0x33#8] true ++ [0x32#8, 0x36#8,
        0x30#8, 0x30#8] ++ [0x3B#8] ++ [] :=
  ⟨⟨by decide, 3, by decide, by decide, rfl⟩, by decide⟩

/-- The frame of R-12 with leading zeros in its id, and a buffer that ends where memory ends; the line terminator arrives
after the unextended deadline. -/
def binaryWaiting : State :=
  { scanning 98#32 [0x21#8, 0x30#8, 0x30#8, 0x35#8, 0x2C#8, 0x33#8, 0x3B#8, 0x41#8, 0x42#8, 0x43#8, 0x3B#8,
      0x36#8, 0x31#8, 0x39#8, 0x32#8, 0x39#8, 0x3B#8] ([.tick] ++ [.engine, .tick, .tick, .arrive 0x0A#8]) with
    binRxDesc := ⟨true, 0xFFD, 3#32⟩ }

theorem witness_BinaryFrameReceived :
    InTime binaryWaiting.deadline binaryWaiting.now [.tick] ∧
    InTime (binaryWaiting.deadline + BitVec.ofNat 32 binaryWaiting.config.binaryExtMs) binaryWaiting.now
      binaryWaiting.schedule ∧
    binaryWaiting.rxFifo ++ arrivals [.tick] ≠ [] ∧
    [Turn.engine, .tick, .tick, .arrive 0x0A#8].head? = some .engine ∧
    IdField [0x30#8, 0x30#8, 0x35#8] ∧ (Digits [0x33#8] ∧ [0x33#8].length ≤ 5 ∧ decVal [0x33#8] = [0x41#8,
        0x42#8, 0x43#8].length) ∧ TrailerField [0x36#8, 0x31#8, 0x39#8, 0x32#8, 0x39#8] ∧
    binaryWaiting.hostMem.wf ∧ binaryWaiting.binRxDesc.assigned = true ∧
    [0x41#8, 0x42#8, 0x43#8].length ≤ binaryWaiting.binRxDesc.cap.toNat ∧ [0x41#8, 0x42#8, 0x43#8].length ≤ 65535 ∧
    binaryWaiting.binRxDesc.base + [0x41#8, 0x42#8, 0x43#8].length ≤ binaryWaiting.config.hostMemSize ∧
    binaryWaiting.rxFifo ++ arrivals binaryWaiting.schedule =
      binaryBody [0x30#8, 0x30#8, 0x35#8] [0x33#8] [0x41#8, 0x42#8, 0x43#8] ++ [0x36#8, 0x31#8, 0x39#8, 0x32#8,
          0x39#8] ++ [0x3B#8] ++ [0x0A#8] :=
  ⟨⟨by decide, 2, by decide, by decide, rfl⟩, ⟨by decide, 902, by decide, by decide, rfl⟩, by decide⟩

/-- R-11, and the same with leading zeros. -/
theorem witness_StringFrameReceived :
    InTime 100#32 0#32 [.tick] ∧
    IdField [0x39#8] ∧ IdField [0x30#8, 0x30#8, 0x39#8] ∧ (∀ f ∈ [[0x35#8], [0x30#8, 0x30#8, 0x30#8, 0x30#8,
        0x35#8]], Digits f ∧ f.length ≤ 5 ∧ decVal f = [0x68#8, 0x65#8, 0x6C#8, 0x6C#8, 0x6F#8].length) ∧
    [0x68#8, 0x65#8, 0x6C#8, 0x6C#8, 0x6F#8].length ≤ 65535 ∧ TrailerField [0x31#8, 0x38#8, 0x31#8, 0x36#8, 0x37#8] ∧
    [0x22#8, 0x39#8, 0x2C#8, 0x35#8, 0x3B#8, 0x68#8, 0x65#8, 0x6C#8, 0x6C#8, 0x6F#8, 0x3B#8, 0x31#8, 0x38#8,
        0x31#8, 0x36#8, 0x37#8, 0x3B#8, 0x0A#8] ++ arrivals [.tick] = stringBody [0x39#8] [0x35#8] [0x68#8,
        0x65#8, 0x6C#8, 0x6C#8, 0x6F#8] ++ [0x31#8, 0x38#8, 0x31#8, 0x36#8, 0x37#8] ++ [0x3B#8] ++ [0x0A#8] ∧
    [0x22#8, 0x30#8, 0x30#8, 0x39#8, 0x2C#8, 0x30#8, 0x30#8, 0x30#8, 0x30#8, 0x35#8, 0x3B#8, 0x68#8, 0x65#8,
        0x6C#8, 0x6C#8, 0x6F#8, 0x3B#8, 0x30#8, 0x3B#8] ++ arrivals [.tick] = stringBody [0x30#8, 0x30#8,
        0x39#8] [0x30#8, 0x30#8, 0x30#8, 0x30#8, 0x35#8] [0x68#8, 0x65#8, 0x6C#8, 0x6C#8,
        0x6F#8] ++ [0x30#8] ++ [0x3B#8] ++ [] :=
  ⟨⟨by decide, 100, by decide, by decide, rfl⟩, by decide⟩

/-- P1: the text of W-1, and a receiver to which the first bytes of its frame have been delivered. -/
def receiver : State := { idleWith [0x23#8, 0x37#8, 0x2C#8, 0x33#8, 0x30#8, 0x30#8, 0x2C#8, 0x31#8, 0x2E#8,
    0x35#8, 0x30#8, 0x30#8] with
  port := [.command ⟨0x01#8, []⟩]
  schedule := [.tick, .engine, .arrive 0x30#8, .arrive 0x30#8, .arrive 0x30#8, .engine, .arrive 0x3B#8, .arrive 0x31#8,
    .arrive 0x30#8, .arrive 0x33#8, .arrive 0x31#8, .tick, .arrive 0x3B#8, .arrive 0x0A#8] }

theorem witness_AsciiRoundTrip :
    (composing [0x2C#8, 0x33#8, 0x30#8, 0x30#8, 0x2C#8, 0x31#8, 0x2E#8, 0x35#8, 0x30#8, 0x30#8, 0x30#8, 0x30#8,
        0x30#8]).txText.length ≤ (composing [0x2C#8, 0x33#8, 0x30#8, 0x30#8, 0x2C#8, 0x31#8, 0x2E#8, 0x35#8,
        0x30#8, 0x30#8, 0x30#8, 0x30#8, 0x30#8]).config.textCap ∧
    CommaLed (composing [0x2C#8, 0x33#8, 0x30#8, 0x30#8, 0x2C#8, 0x31#8, 0x2E#8, 0x35#8, 0x30#8, 0x30#8, 0x30#8,
        0x30#8, 0x30#8]).txText ∧ 0x3B#8 ∉ (composing [0x2C#8, 0x33#8, 0x30#8, 0x30#8, 0x2C#8, 0x31#8, 0x2E#8,
        0x35#8, 0x30#8, 0x30#8, 0x30#8, 0x30#8, 0x30#8]).txText ∧
    (composing [0x2C#8, 0x33#8, 0x30#8, 0x30#8, 0x2C#8, 0x31#8, 0x2E#8, 0x35#8, 0x30#8, 0x30#8, 0x30#8, 0x30#8,
        0x30#8]).config.textCap < 256 ∧
    receiver.phase = .idle ∧ receiver.port = [.command ⟨0x01#8, []⟩] ∧ receiver.rxFifo ≠ [] ∧
    .reset ∉ receiver.schedule ∧ receiver.config.textCap = (composing [0x2C#8, 0x33#8, 0x30#8, 0x30#8, 0x2C#8,
        0x31#8, 0x2E#8, 0x35#8, 0x30#8, 0x30#8, 0x30#8, 0x30#8, 0x30#8]).config.textCap ∧
    3 ≤ receiver.config.idDigits ∧ 5 ≤ receiver.config.csDigits ∧
    receiver.schedule.count .tick < receiver.config.baseTimeoutMs ∧ receiver.config.baseTimeoutMs ≤ 2 ^ 31 ∧
    (after (exec (.transmitAscii 7#8) (composing [0x2C#8, 0x33#8, 0x30#8, 0x30#8, 0x2C#8, 0x31#8, 0x2E#8, 0x35#8,
        0x30#8, 0x30#8, 0x30#8, 0x30#8, 0x30#8]))).map (fun t => t.txOut) =
      some (receiver.rxFifo ++ arrivals receiver.schedule) := by
  decide

/-- An engine whose transmit buffer lies at the end of memory. -/
def sending (length : U16) : State := { idleWith [] with binTxDesc := ⟨true, 0xFFE, 8#32, length⟩ }

/-- A TX descriptor that TRANSMIT_BINARY takes. -/
abbrev TxReady (s : State) : Prop :=
  s.binTxDesc.assigned = true ∧ s.binTxDesc.length ≠ 0#16 ∧ s.binTxDesc.length.toNat ≤ s.binTxDesc.cap.toNat

/-- A buffer that ends where memory ends, one that ends a byte beyond it, and descriptors that are not ready. -/
theorem witness_TransmitBinarySendsBuffer :
    (TxReady (sending 2#16) ∧ (sending 2#16).binTxDesc.base + 2 ≤ (sending 2#16).config.hostMemSize ∧
      [0x61#8, 0x62#8].length = (sending 2#16).binTxDesc.length.toNat ∧
      ∀ i < [0x61#8, 0x62#8].length, [0x61#8,
          0x62#8][i]? = some ((sending 2#16).hostMem.get ((sending 2#16).binTxDesc.base + i))) ∧
    (TxReady (sending 3#16) ∧ (sending 3#16).config.hostMemSize < (sending 3#16).binTxDesc.base + 3) ∧
    ¬ TxReady (sending 0#16) ∧ ¬ TxReady (sending 9#16) ∧ ¬ TxReady (idleWith []) := by decide

/-- Memory with `tex` and a NUL at 0x100 and without a NUL at its end; room for texts of 3 bytes. -/
def withTexts : State := { idleWith [] with
  config := { Config.default with strCap := 3, textCap := 4 }
  hostMem := [(0x100, 0x74#8), (0x101, 0x65#8), (0x102, 0x78#8), (0xFFC, 0x74#8), (0xFFD, 0x65#8), (0xFFE, 0x78#8),
    (0xFFF, 0x74#8)] }

/-- A text of exactly 3 bytes, one that is longer, and one that runs into the end of memory. -/
theorem test_texts :
    ([0x74#8, 0x65#8, 0x78#8].length ≤ 3 ∧ 0x100 + [0x74#8, 0x65#8, 0x78#8].length < withTexts.config.hostMemSize ∧
      (∀ i < [0x74#8, 0x65#8, 0x78#8].length, [0x74#8, 0x65#8,
          0x78#8][i]? = some (withTexts.hostMem.get (0x100 + i))) ∧ 0#8 ∉ [0x74#8, 0x65#8, 0x78#8] ∧
      withTexts.hostMem.get (0x100 + [0x74#8, 0x65#8, 0x78#8].length) = 0#8) ∧
    (0xFFC + 3 < withTexts.config.hostMemSize ∧ ∀ i ≤ 3, withTexts.hostMem.get (0xFFC + i) ≠ 0#8) ∧
    (withTexts.config.hostMemSize ≤ 0xFFD + 3 ∧ ∀ i < 3, withTexts.hostMem.get (0xFFD + i) ≠ 0#8) := by decide

theorem witness_TransmitStringTextSendsText : withTexts.config.strCap = 3 ∧
    ([0x74#8, 0x65#8, 0x78#8].length ≤ 3 ∧ 0x100 + [0x74#8, 0x65#8, 0x78#8].length < withTexts.config.hostMemSize ∧
      (∀ i < [0x74#8, 0x65#8, 0x78#8].length, [0x74#8, 0x65#8,
          0x78#8][i]? = some (withTexts.hostMem.get (0x100 + i))) ∧ 0#8 ∉ [0x74#8, 0x65#8, 0x78#8] ∧
      withTexts.hostMem.get (0x100 + [0x74#8, 0x65#8, 0x78#8].length) = 0#8) ∧
    (0xFFC + 3 < withTexts.config.hostMemSize ∧ ∀ i ≤ 3, withTexts.hostMem.get (0xFFC + i) ≠ 0#8) ∧
    (withTexts.config.hostMemSize ≤ 0xFFD + 3 ∧ ∀ i < 3, withTexts.hostMem.get (0xFFD + i) ≠ 0#8) :=
  ⟨rfl, test_texts⟩

/-- The text above, appended. -/
theorem witness_RenderingWidths : (after (exec (.addString 0x100) withTexts)).map (fun t => t.txText) =
    some (withTexts.txText ++ [0x2C#8] ++ [0x74#8, 0x65#8, 0x78#8]) ∧ Config.default.textCap = 127 := by decide

/-- A rendering that fills the text to its last byte, and one that is a byte too long. -/
theorem witness_AddNumberAppends :
    withTexts.txText.length + 1 + (dec 255).length ≤ withTexts.config.textCap ∧
    withTexts.config.textCap < withTexts.txText.length + 1 + (sdec (-128)).length := by decide

/-- No room for the `,`; and with room for 3 bytes, the texts above. -/
theorem witness_AddStringAppendsText :
    { withTexts with txText := [0x2C#8, 0x31#8, 0x32#8,
        0x33#8] }.config.textCap < { withTexts with txText := [0x2C#8, 0x31#8, 0x32#8, 0x33#8] }.txText.length + 1 ∧
    withTexts.txText.length + 1 + 3 = withTexts.config.textCap ∧
    ([0x74#8, 0x65#8, 0x78#8].length ≤ 3 ∧ 0x100 + [0x74#8, 0x65#8, 0x78#8].length < withTexts.config.hostMemSize ∧
      (∀ i < [0x74#8, 0x65#8, 0x78#8].length, [0x74#8, 0x65#8,
          0x78#8][i]? = some (withTexts.hostMem.get (0x100 + i))) ∧ 0#8 ∉ [0x74#8, 0x65#8, 0x78#8] ∧
      withTexts.hostMem.get (0x100 + [0x74#8, 0x65#8, 0x78#8].length) = 0#8) ∧
    (0xFFC + 3 < withTexts.config.hostMemSize ∧ ∀ i ≤ 3, withTexts.hostMem.get (0xFFC + i) ≠ 0#8) ∧
    (withTexts.config.hostMemSize ≤ 0xFFD + 3 ∧ ∀ i < 3, withTexts.hostMem.get (0xFFD + i) ≠ 0#8) :=
  ⟨by decide, by decide, test_texts⟩

/-- The text of a first field, ended by what follows it. -/
theorem fieldAt_first {f rest : List Byte} (hf : ∀ b ∈ f, b ≠ chComma ∧ b ≠ chNul)
    (hr : rest = [] ∨ rest.head? = some chComma ∨ rest.head? = some chNul) :
    FieldAt (textAt ([] ++ [chComma] ++ f ++ rest) 0) f := ⟨[], rest, rfl, rfl, hf, hr⟩

/-- No field; a field too wide, one of no digits, one a number too large, and the largest number. -/
theorem witness_GetUnsignedDecodesField :
    NoField (textAt [0x31#8, 0x32#8] 0) ∧ NoField (textAt [0x2C#8, 0x31#8] 2) ∧
    (∀ f ∈ [[0x31#8, 0x32#8, 0x33#8, 0x34#8], [], [0x31#8, 0x78#8], [0x32#8, 0x35#8, 0x36#8], [0x32#8, 0x35#8,
        0x35#8], [0x36#8, 0x35#8, 0x35#8, 0x33#8, 0x36#8], [0x36#8, 0x35#8, 0x35#8, 0x33#8, 0x35#8], [0x34#8,
        0x32#8, 0x39#8, 0x34#8, 0x39#8, 0x36#8, 0x37#8, 0x32#8, 0x39#8,
        0x36#8]], FieldAt (textAt ([] ++ [chComma] ++ f ++ [0x2C#8, 0x37#8]) 0) f) ∧
    3 < [0x31#8, 0x32#8, 0x33#8, 0x34#8].length ∧ ¬ Digits [] ∧ ¬ Digits [0x31#8, 0x78#8] ∧ (Digits [0x32#8,
        0x35#8, 0x36#8] ∧ 255 < decVal [0x32#8, 0x35#8, 0x36#8]) ∧
    (Digits [0x32#8, 0x35#8, 0x35#8] ∧ decVal [0x32#8, 0x35#8, 0x35#8] ≤ 255) ∧ (Digits [0x36#8, 0x35#8, 0x35#8,
        0x33#8, 0x36#8] ∧ 65535 < decVal [0x36#8, 0x35#8, 0x35#8, 0x33#8, 0x36#8] ∧ decVal [0x36#8, 0x35#8,
        0x35#8, 0x33#8, 0x35#8] = 65535) ∧
    (Digits [0x34#8, 0x32#8, 0x39#8, 0x34#8, 0x39#8, 0x36#8, 0x37#8, 0x32#8, 0x39#8, 0x36#8] ∧ [0x34#8, 0x32#8,
        0x39#8, 0x34#8, 0x39#8, 0x36#8, 0x37#8, 0x32#8, 0x39#8,
        0x36#8].length ≤ 10 ∧ 4294967295 < decVal [0x34#8, 0x32#8, 0x39#8, 0x34#8, 0x39#8, 0x36#8, 0x37#8,
        0x32#8, 0x39#8, 0x36#8]) := by
  refine ⟨by decide, by decide, fun f hf => fieldAt_first ?_ (.inr (.inl rfl)), by decide⟩
  exact (by decide : ∀ f ∈ [[0x31#8, 0x32#8, 0x33#8, 0x34#8], [], [0x31#8, 0x78#8], [0x32#8, 0x35#8,
      0x36#8], [0x32#8, 0x35#8, 0x35#8], [0x36#8, 0x35#8, 0x35#8, 0x33#8, 0x36#8], [0x36#8, 0x35#8, 0x35#8,
      0x33#8, 0x35#8], [0x34#8, 0x32#8, 0x39#8, 0x34#8, 0x39#8, 0x36#8, 0x37#8, 0x32#8, 0x39#8,
      0x36#8]], ∀ b ∈ f, b ≠ chComma ∧ b ≠ chNul) f hf

/-- The numbers at the ends of the range and beyond them, a lone `-`, and a field too wide. -/
theorem witness_GetSignedDecodesField :
    NoField (textAt [] 0) ∧
    (∀ f ∈ [[0x31#8, 0x32#8, 0x37#8], [0x31#8, 0x32#8, 0x38#8], [0x2D#8, 0x31#8, 0x32#8, 0x38#8], [0x2D#8,
        0x31#8, 0x32#8, 0x39#8], [0x2D#8], [0x2B#8, 0x35#8], [0x2D#8, 0x31#8, 0x30#8, 0x30#8, 0x30#8]],
      FieldAt (textAt ([] ++ [chComma] ++ f ++ []) 0) f) ∧
    (Digits [0x31#8, 0x32#8, 0x37#8] ∧ decVal [0x31#8, 0x32#8, 0x37#8] < 128) ∧ 128 ≤ decVal [0x31#8, 0x32#8,
        0x38#8] ∧ ([0x2D#8, 0x31#8, 0x32#8, 0x38#8] = 0x2D#8 :: [0x31#8, 0x32#8, 0x38#8] ∧ decVal [0x31#8,
        0x32#8, 0x38#8] ≤ 128) ∧
    128 < decVal [0x31#8, 0x32#8, 0x39#8] ∧ 4 < [0x2D#8, 0x31#8, 0x30#8, 0x30#8, 0x30#8].length ∧
    (∀ d, Digits d → [0x2D#8] ≠ d ∧ [0x2D#8] ≠ 0x2D#8 :: d) ∧ (∀ d, Digits d → [0x2B#8, 0x35#8] ≠ d ∧ [0x2B#8,
        0x35#8] ≠ 0x2D#8 :: d) := by
  refine ⟨by decide, fun f hf => fieldAt_first ?_ (.inl rfl), by decide, by decide, by decide, by decide, by decide,
    fun d hd => ⟨?_, ?_⟩, fun d hd => ⟨?_, by simp⟩⟩
  · exact (by decide : ∀ f ∈ [[0x31#8, 0x32#8, 0x37#8], [0x31#8, 0x32#8, 0x38#8], [0x2D#8, 0x31#8, 0x32#8,
      0x38#8], [0x2D#8, 0x31#8, 0x32#8, 0x39#8], [0x2D#8], [0x2B#8, 0x35#8], [0x2D#8, 0x31#8, 0x30#8, 0x30#8,
      0x30#8]],
      ∀ b ∈ f, b ≠ chComma ∧ b ≠ chNul) f hf
  · rintro rfl
    exact absurd hd (by decide)
  · intro h
    rw [List.cons.injEq] at h
    exact hd.1 h.2.symm
  · rintro rfl
    exact absurd hd (by decide)

/-- A negative fraction, a field too wide, and a field that is no number. -/
theorem witness_GetFloatDecodesNearest :
    (∀ f ∈ [[0x2D#8, 0x33#8, 0x2E#8, 0x32#8, 0x35#8, 0x30#8], [0x31#8, 0x30#8, 0x30#8, 0x30#8, 0x30#8, 0x30#8,
        0x30#8, 0x30#8, 0x30#8, 0x2E#8, 0x30#8, 0x30#8, 0x30#8, 0x30#8, 0x30#8, 0x30#8], [0x31#8, 0x65#8,
        0x33#8]], FieldAt (textAt ([] ++ [chComma] ++ f ++ []) 0) f) ∧
    15 < [0x31#8, 0x30#8, 0x30#8, 0x30#8, 0x30#8, 0x30#8, 0x30#8, 0x30#8, 0x30#8, 0x2E#8, 0x30#8, 0x30#8, 0x30#8,
        0x30#8, 0x30#8, 0x30#8].length ∧ ([0x2D#8, 0x33#8, 0x2E#8, 0x32#8, 0x35#8,
        0x30#8].length ≤ 15 ∧ FloatSyntax [0x2D#8, 0x33#8, 0x2E#8, 0x32#8, 0x35#8, 0x30#8] true [0x33#8] [0x32#8,
        0x35#8, 0x30#8]) ∧
    ∀ neg whole frac, ¬ FloatSyntax [0x31#8, 0x65#8, 0x33#8] neg whole frac := by
  refine ⟨fun f hf => fieldAt_first ?_ (.inl rfl), by decide, ⟨by decide, by decide, by decide, .inl rfl⟩, ?_⟩
  · exact (by decide : ∀ f ∈ [[0x2D#8, 0x33#8, 0x2E#8, 0x32#8, 0x35#8, 0x30#8], [0x31#8, 0x30#8, 0x30#8, 0x30#8,
      0x30#8, 0x30#8, 0x30#8, 0x30#8, 0x30#8, 0x2E#8, 0x30#8, 0x30#8, 0x30#8, 0x30#8, 0x30#8, 0x30#8], [0x31#8,
      0x65#8, 0x33#8]], ∀ b ∈ f, b ≠ chComma ∧ b ≠ chNul) f hf
  · rintro neg whole frac ⟨hd, -, h | ⟨rfl, h⟩⟩
    · have hm : chDot ∈ [0x31#8, 0x65#8, 0x33#8] := by
        rw [h]
        simp
      exact absurd hm (by decide)
    · have hm : (0x65#8 : Byte) ∈ (if neg then [chMinus] else []) ++ whole := by
        rw [← h]
        decide
      rcases List.mem_append.1 hm with hm | hm
      · cases neg
        · simp at hm
        · exact absurd hm (by decide)
      · exact absurd (hd _ (by simpa using hm)) (by decide)

/-- A field cut to `len - 1` bytes that ends at the last byte of memory, and one that would end beyond it. -/
theorem witness_GetStringCopiesField :
    FieldAt (textAt ([] ++ [chComma] ++ [0x61#8, 0x62#8, 0x63#8] ++ [0x2C#8, 0x37#8]) 0) [0x61#8, 0x62#8,
        0x63#8] ∧ (3#16 : U16) ≠ 0#16 ∧
    2 = min [0x61#8, 0x62#8, 0x63#8].length ((3#16 : U16).toNat - 1) ∧ 0xFFD + 2 < Config.default.hostMemSize ∧
    Config.default.hostMemSize ≤ 0xFFE + 2 ∧ memory.wf ∧ NoField (textAt [] 0) :=
  ⟨fieldAt_first (by decide) (.inr (.inl rfl)), by decide⟩

theorem witness_FailingGetWritesOnlyResult :
    isGet .getUint8 = true ∧ ∃ t, exec .getUint8 (textAt [0x2C#8, 0x32#8, 0x35#8,
        0x36#8] 0) = .next t ∧ t.phase = .idle ∧ t.resOk = false :=
  ⟨rfl, _, rfl, by decide, by decide⟩

/-- Every command but RECEIVE is one step. -/
theorem witness_SingleStepCommandsComplete : ∀ p ∈ transmitWords ++ codecWords,
    p.1 ≠ 0x01 → isSingleStep p.2 = true := by decide

theorem witness_ResultRegisterWriters :
    (∃ t, exec .frameAck State.reset = .next t ∧ writesOk .frameAck = false ∧ Instr.frameAck ≠ .receive) ∧
    ∃ t, exec .getUint8 (textAt [0x2C#8, 0x32#8, 0x35#8,
        0x36#8] 0) = .next t ∧ writesValue .getUint8 = true ∧ t.resOk = false :=
  ⟨⟨_, rfl, by decide⟩, _, rfl, by decide⟩

theorem witness_FailureCodesOfEachCommand :
    (isSingleStep (.transmitAck 3#8 true) = true ∧ writesOk (.transmitAck 3#8 true) = false ∧
      ∃ t, exec (.transmitAck 3#8 true) State.reset = .next t ∧ t.phase = .idle) ∧
    isSingleStep .getInt8 = true ∧ writesOk .getInt8 = true ∧
      ∃ t, exec .getInt8 (textAt [0x2C#8, 0x31#8, 0x30#8, 0x30#8, 0x30#8] 0) = .next t ∧ t.phase = .idle :=
  ⟨⟨by decide, by decide, _, rfl, by decide⟩, by decide, by decide, _, rfl, by decide⟩

theorem witness_ChecksumRegistersNotRead :
    (isSingleStep .getUint8 = true ∧ ∃ t, exec .getUint8 (textAt [0x2C#8, 0x31#8] 0) = .next t) ∧
    ∃ t, exec .receive (idleWith [0x23#8]) = .next t := ⟨⟨by decide, _, rfl⟩, _, rfl⟩

theorem witness_MovesKeepMemory :
    MemoryInv (presenting (.poke 0xFFE [1#8, 0#8])) ∧ ∃ t, step (presenting (.poke 0xFFE [1#8, 0#8])) = .next t :=
  ⟨by decide, _, rfl⟩

/-- A RECEIVE within a text. -/
theorem witness_MovesKeepBounds :
    KindInv (busyAt (.asciiByte 1#8 2 [0x2C#8, 0x2C#8]) [0x39#8]) ∧ BoundsInv (busyAt (.asciiByte 1#8 2 [0x2C#8,
        0x2C#8]) [0x39#8]) ∧
    ∃ t, step (busyAt (.asciiByte 1#8 2 [0x2C#8, 0x2C#8]) [0x39#8]) = .next t := by
  refine ⟨⟨by decide, by decide, by decide, by decide, fun _ _ => by decide⟩,
    ⟨by decide, by decide, by decide, ?_⟩, _, rfl⟩
  intro k hk
  cases hk
  exact ⟨by decide, by decide, by decide⟩

theorem witness_MovesKeepKind :
    KindInv (textAt [0x2C#8, 0x31#8] 0) ∧ ∃ t, step (textAt [0x2C#8, 0x31#8] 0) = .next t :=
  ⟨⟨by decide, by decide, by decide, by decide, fun _ h => by cases h⟩, _, rfl⟩

theorem witness_LaunchMeetsInvariants :
    ConfigLegal Config.default ∧ memory.wf ∧ ∀ d ∈ memory, d.1 < Config.default.hostMemSize := by decide

/-- The payload byte of a binary frame that changes memory. -/
def storing : State := { busyAt (.binByte 5#8 3#16 2) [0x5A#8] with binRxDesc := ⟨true, 0x100, 4#32⟩ }

theorem witness_ReceiveWritesStayInBuffer :
    MemoryInv storing ∧ BoundsInv storing ∧ storing.phase = .busy (.binByte 5#8 3#16 2) ∧
    ∃ t, step storing = .next t ∧ t.hostMem.get 0x102 ≠ storing.hostMem.get 0x102 := by
  refine ⟨by decide, ⟨by decide, by decide, by decide, ?_⟩, rfl, _, rfl, by decide⟩
  intro k hk
  cases hk
  exact ⟨by decide, by decide, by decide⟩

theorem witness_MovesKeepStreamOrder :
    (∃ t, step (busyAt .scan [0x21#8, 0x35#8]) = .next t) ∧ (busyAt .scan [0x21#8,
        0x35#8]).schedule.head? ≠ some .reset :=
  ⟨⟨_, rfl⟩, by decide⟩

end Sys2Proof.Tests
end

section
/-! SUPPORT. Proofs about the decimal forms of 00_scope.md R14 and about the commands of one step (R13). -/

namespace Sys2Proof.Machine

/-! ## `Dec` -/

theorem digits_dec (n : Nat) : Digits (dec n) := (isNumber_iff_digits _).mp (isNumber_dec n)

theorem digitByte_eq_chZero_iff {d : Nat} (h : d < 10) : digitByte d = chZero ↔ d = 0 := by
  constructor
  · intro e
    calc d = digitVal (digitByte d) := (digitVal_digitByte h).symm
      _ = digitVal chZero := by rw [e]
      _ = 0 := rfl
  · rintro rfl
    rfl

/-- The first digit of a number of two or more digits is that of its tens, so by induction it is 0 for no such number. -/
theorem dec_head?_eq_chZero_iff (n : Nat) : (dec n).head? = some chZero ↔ n = 0 := by
  induction n using Nat.strongRecOn with
  | _ n ih =>
    by_cases h : n < 10
    · rw [dec_of_lt h, List.head?_singleton, Option.some_inj, digitByte_eq_chZero_iff h]
    · rw [dec_of_ge (Nat.le_of_not_lt h), List.head?_append_of_ne_nil _ (dec_ne_nil _), ih _ (by omega)]
      omega

/-! ## `SDec` -/

theorem sdec_natCast (n : Nat) : sdec n = dec n := by
  rw [sdec, if_neg (by omega), Int.natAbs_natCast]

theorem sdec_neg_natCast {n : Nat} (h : 0 < n) : sdec (-n) = chMinus :: dec n := by
  rw [sdec, if_pos (by omega), Int.natAbs_neg, Int.natAbs_natCast]

/-! ## `DecVal` -/

/-- The fold starts from 0 and is at 0 again after the leading `0`. -/
theorem decVal_chZero_cons (f : List Byte) : decVal (chZero :: f) = decVal f := rfl

theorem decVal_append_digitByte (f : List Byte) {d : Nat} (h : d < 10) :
    decVal (f ++ [digitByte d]) = 10 * decVal f + d := by
  rw [decVal_append_singleton, digitVal_digitByte h]

/-- Settles O16, clause by clause from the laws of `Dec`, `SDec` and `DecVal`. -/
theorem decimalRendering : Obligations.DecimalRendering :=
  ⟨fun n => ⟨digits_dec n, decVal_dec_eq n, dec_head?_eq_chZero_iff n⟩, dec_of_lt (by decide),
    fun n => ⟨sdec_natCast n, sdec_neg_natCast⟩, fun f _ => decVal_chZero_cons f,
    fun f _ h => decVal_append_digitByte f h⟩

/-! ## Commands of one step -/

/-- Every end of a command is a finish, which is Idle, but the fault, which discards the step. -/
theorem CommandEnd.idle_or_fault {i : Instr} {s t : State} (h : CommandEnd i s t) :
    t.phase = .idle ∨ (mayFault i = true ∧ t = { s with phase := .faulted .memRange }) := by
  cases h with
  | fault hf => exact .inr ⟨hf, rfl⟩
  | fail | full | append | value | copied | assignRx | assignTx | sentQuiet | sentOk => exact .inl rfl

/-- Settles O51: the law `exec_ends` gives the command's end. -/
theorem singleStepCommandsComplete : Obligations.SingleStepCommandsComplete := by
  intro i s hi
  obtain ⟨t, ht, hend⟩ := exec_ends i s hi
  exact ⟨t, ht, hend.idle_or_fault⟩

end Sys2Proof.Machine
end

section
/-! SUPPORT. Proofs about 10_state.md: which instruction writes which result register (R33), and the registers and the
invariants after reset (R47). -/

namespace Sys2Proof.Machine

/-! ## Everything one instruction can do -/

/-- An instruction that answers a next state is a command of one step, RECEIVE's first step, or the entry of a
sub-parser. -/
theorem exec_cases {i : Instr} {s t : State} (h : exec i s = .next t) :
    CommandEnd i s t ∨
    (i = .receive ∧ (t = failReceive .noInput (resetRxRecords (armDeadline s)) ∨
      t = awaitAt .scan (csReset (resetRxRecords (armDeadline s))))) ∨
    ∃ use, t = awaitAt (.field use []) s ∨ t = awaitAt (.field use []) (extendDeadline s) := by
  by_cases hi : isSingleStep i = true
  · obtain ⟨t', ht, hend⟩ := exec_ends i s hi
    rw [ht] at h
    cases h
    exact .inl hend
  · cases i with
    | receive =>
      obtain ⟨-, e⟩ | ⟨-, e⟩ := execReceive_cases s <;> rw [e] at h <;> cases h
      · exact .inr (.inl ⟨rfl, .inl rfl⟩)
      · exact .inr (.inl ⟨rfl, .inr rfl⟩)
    | frameAscii => cases h; exact .inr (.inr ⟨.asciiId, .inl rfl⟩)
    | frameAck => cases h; exact .inr (.inr ⟨.ackId, .inl rfl⟩)
    | frameBinary => cases h; exact .inr (.inr ⟨.binId, .inr rfl⟩)
    | frameString => cases h; exact .inr (.inr ⟨.strId, .inl rfl⟩)
    | _ => exact absurd rfl hi

/-! ## The writers of the result registers -/

/-- No command of one step writes `RES_KIND`. -/
theorem CommandEnd.resKind_eq {i : Instr} {s t : State} (h : CommandEnd i s t) : t.resKind = s.resKind := by
  cases h <;> rfl

/-- The ends that write `RES_OK` are those of commands that R33 lists. -/
theorem CommandEnd.resOk_eq {i : Instr} {s t : State} (h : CommandEnd i s t) (hw : writesOk i = false) :
    t.resOk = s.resOk := by
  cases h with
  | fault | assignRx | assignTx | sentQuiet => rfl
  | fail _ _ h | full _ h | append _ _ _ h | value _ _ _ h | sentOk _ _ _ h => simp [hw] at h
  | copied _ _ _ hi =>
    obtain ⟨len, rfl⟩ := hi
    cases hw

/-- The one end that writes `RES_VALUE` is the success of a numeric GET. -/
theorem CommandEnd.resValue_eq {i : Instr} {s t : State} (h : CommandEnd i s t)
    (hw : writesValue i = false ∨ t.resOk = false) : t.resValue = s.resValue := by
  cases h with
  | value v q hv => simp [hv] at hw
  | fault | fail | full | append | copied | assignRx | assignTx | sentQuiet | sentOk => rfl

/-- Settles O52: a command of one step by its end; RECEIVE's first step writes `RES_KIND` alone of the three, and the
entry of a sub-parser none. -/
theorem resultRegisterWriters : Obligations.ResultRegisterWriters := by
  intro i s t h
  obtain hend | ⟨rfl, rfl | rfl⟩ | ⟨use, rfl | rfl⟩ := exec_cases h
  · exact ⟨fun _ => hend.resKind_eq, hend.resOk_eq, fun hv => hend.resValue_eq (.inl hv),
      fun _ hf => hend.resValue_eq (.inr hf)⟩
  · exact ⟨fun hr => absurd rfl hr, fun _ => rfl, fun _ => rfl, fun _ _ => rfl⟩
  · exact ⟨fun hr => absurd rfl hr, fun _ => rfl, fun _ => rfl, fun _ _ => rfl⟩
  · exact ⟨fun _ => rfl, fun _ => rfl, fun _ => rfl, fun _ _ => rfl⟩
  · exact ⟨fun _ => rfl, fun _ => rfl, fun _ => rfl, fun _ _ => rfl⟩

/-! ## The state after reset -/

/-- Settles O12: a later reset gives the registers of a launch, whatever stays pending. -/
theorem resetRegisterValues : Obligations.ResetRegisterValues := by
  unfold Obligations.ResetRegisterValues
  intro registersReset
  have hlaunch : ∀ c m fifo now, registersReset (State.launch c m fifo now) := by
    intro c m fifo now
    and_intros <;> rfl
  have hreset : ∀ s, registersReset (applyReset s) := fun s => hlaunch s.config s.hostMem s.rxFifo s.now
  exact ⟨fun c m fifo now => ⟨hlaunch c m fifo now, rfl⟩,
    fun s rest hs => ⟨_, step_reset hs, hreset _, rfl, rfl, rfl, rfl⟩⟩

/-- Every buffer is empty at launch, and no RECEIVE is in progress. -/
theorem bounds_launch {c : Config} (hc : ConfigLegal c) (m : Memory) (fifo : List Byte) (now : U32) :
    BoundsInv (State.launch c m fifo now) := by
  have ht : TransmitInv (State.launch c m fifo now) := ⟨Nat.zero_le _, .inl rfl, List.not_mem_nil, Nat.zero_le _⟩
  have hr : RecordsInv (State.launch c m fifo now) :=
    ⟨Nat.zero_le _, .inl rfl, rfl, rfl, Nat.zero_le _, Nat.zero_le _⟩
  exact bounds_of_not_busy ⟨hc, ht, hr⟩ (fun k hk => by cases hk)

/-- Every record is at its default at launch. -/
theorem kind_launch (c : Config) (m : Memory) (fifo : List Byte) (now : U32) : KindInv (State.launch c m fifo now) :=
  ⟨fun h => absurd rfl h, fun h => absurd rfl h, fun h => absurd rfl h, fun h => absurd rfl h,
    fun _ _ => ⟨rfl, rfl, rfl, rfl, rfl⟩⟩

theorem memory_launch {c : Config} {m : Memory} (hm : m.wf) (hs : ∀ d ∈ m, d.1 < c.hostMemSize) (fifo : List Byte)
    (now : U32) : MemoryInv (State.launch c m fifo now) := ⟨hm, hs⟩

/-- Settles O58: `State.reset` is a launch with the default parameters and no byte of memory listed. -/
theorem launchMeetsInvariants : Obligations.LaunchMeetsInvariants :=
  ⟨memory_launch (by decide) (by decide) [] 0#32, bounds_launch (by decide) [] [] 0#32,
    kind_launch Config.default [] [] 0#32,
    fun c m fifo now hc => ⟨bounds_launch hc m fifo now, kind_launch c m fifo now,
      fun hm hs => memory_launch hm hs fifo now⟩⟩

end Sys2Proof.Machine
end

section
/-! SUPPORT. What one move can change: the effect of a poll of RECEIVE and the ends of a request of the HOST; with them
the statements of 20_memory.md about host memory and about the streams. -/

namespace Sys2Proof.Machine

/-! ## What a poll of RECEIVE and a request of the HOST can change -/

/-- A poll writes no field but those of RECEIVE (42_frame_reader.md R180), leaves a tail of the queue, and writes host
memory only for a payload byte of a binary frame, at its place in the borrowed buffer (R198). -/
structure PollEffect (k : ReceiveAt) (s t : State) : Prop where
  frame : t = { s with
    phase := t.phase, resKind := t.resKind, lastFail := t.lastFail, csA := t.csA, csB := t.csB
    deadline := t.deadline, rxCursor := t.rxCursor, rxAscii := t.rxAscii, rxAck := t.rxAck, rxBin := t.rxBin
    rxStr := t.rxStr, hostMem := t.hostMem, rxFifo := t.rxFifo }
  queue : t.rxFifo <:+ s.rxFifo
  memory : t.hostMem = s.hostMem ∨ ∃ id length i b, k = .binByte id length i ∧
    s.binRxDesc.base + i < s.config.hostMemSize ∧ t.hostMem = s.hostMem.set (s.binRxDesc.base + i) b

theorem receiveStep_effect {k : ReceiveAt} {s t : State} (h : receiveStep k s = .next t) : PollEffect k s t := by
  obtain ⟨t', ht, heffect⟩ : ∃ t', receiveStep k s = .next t' ∧ PollEffect k s t' := by
    refine receiveStep_ind k s _ ⟨rfl, List.suffix_rfl, .inl rfl⟩ ⟨rfl, List.suffix_rfl, .inl rfl⟩
      ⟨rfl, List.suffix_rfl, .inl rfl⟩ (fun _ _ _ => ⟨rfl, List.suffix_rfl, .inl rfl⟩) fun b rest _ hf => ?_
    have hq : rest <:+ s.rxFifo := hf ▸ List.suffix_cons b rest
    refine ⟨fun _ _ => ⟨⟨rfl, hq, .inl rfl⟩, rfl, hq, .inl rfl⟩, ⟨rfl, List.nil_suffix, .inl rfl⟩,
      fun _ => ⟨⟨rfl, hq, .inl rfl⟩, rfl, hq, .inl rfl⟩, fun _ => ⟨⟨rfl, hq, .inl rfl⟩, rfl, hq, .inl rfl⟩, ?_, ?_⟩
    · intro e m acc c _
      cases m <;> exact ⟨rfl, hq, .inl rfl⟩
    · exact fun id length i _ hk hm => ⟨rfl, hq, .inr ⟨id, length, i, b, hk, hm, rfl⟩⟩
  rw [ht] at h
  cases h
  exact heffect

theorem PollEffect.config_eq {k : ReceiveAt} {s t : State} (h : PollEffect k s t) : t.config = s.config := by
  rw [h.frame]

theorem PollEffect.txOut_eq {k : ReceiveAt} {s t : State} (h : PollEffect k s t) : t.txOut = s.txOut := by
  rw [h.frame]

/-- How a request that the HOST has presented is served: a command of one step ends, RECEIVE ends at once or starts its
scan, or the HOST writes `TX_STR` or `HOSTMEM`. -/
theorem serveHost_ends {s t : State} (h : serveHost s = .next t) :
    t = s ∨ ∃ rest,
      (∃ i, CommandEnd i { s with port := rest } t) ∨
      t = failReceive .noInput (resetRxRecords (armDeadline { s with port := rest })) ∨
      t = awaitAt .scan (csReset (resetRxRecords (armDeadline { s with port := rest }))) ∨
      (∃ bs, bs.length ≤ s.config.strCap ∧ t = { s with port := rest, txStr := bs }) ∨
      ∃ a bs, (a + bs.length ≤ s.config.hostMemSize ∨ bs = []) ∧
        t = { s with port := rest, hostMem := s.hostMem.setSeq a bs } := by
  obtain ⟨-, e⟩ | ⟨r, rest, i, -, hi, hexec⟩ | ⟨bs, rest, -, hl, e⟩ | ⟨a, bs, rest, -, hl, e⟩ := serveHost_cases h
  · exact .inl e
  · refine .inr ⟨rest, ?_⟩
    obtain rfl | hi := decodeCommand_kind hi
    · obtain ⟨-, e⟩ | ⟨-, e⟩ := execReceive_cases { s with port := rest } <;> rw [e] at hexec <;> cases hexec
      · exact .inr (.inl rfl)
      · exact .inr (.inr (.inl rfl))
    · obtain ⟨t', ht, hend⟩ := exec_ends i { s with port := rest } hi
      rw [ht] at hexec
      cases hexec
      exact .inl ⟨i, hend⟩
  · exact .inr ⟨rest, .inr (.inr (.inr (.inl ⟨bs, hl, e⟩)))⟩
  · exact .inr ⟨rest, .inr (.inr (.inr (.inr ⟨a, bs, hl, e⟩)))⟩

/-- Everything a move can be, by the phase it starts in: as `step_ind`, with the ENGINE's state written out. -/
theorem move_cases {s t : State} (h : step s = .next t) :
    (∃ b rest, s.schedule = .arrive b :: rest ∧ t = linkArrive b { s with schedule := rest }) ∨
    (∃ rest, t = linkTick { s with schedule := rest }) ∨
    (∃ rest, s.schedule = .reset :: rest ∧ t = applyReset { s with schedule := rest }) ∨
    (∃ rest k, s.phase = .busy k ∧ receiveStep k { s with schedule := rest } = .next t) ∨
    ∃ rest, s.phase = .idle ∧ serveHost { s with schedule := rest } = .next t := by
  apply step_ind (h := h)
  · exact fun b rest hs => .inl ⟨b, rest, hs, rfl⟩
  · exact fun rest => .inr (.inl ⟨rest, rfl⟩)
  · exact fun rest hs => .inr (.inr (.inl ⟨rest, hs, rfl⟩))
  · intro u k he hk hpoll
    rw [he.eq] at hk hpoll
    exact .inr (.inr (.inr (.inl ⟨u.schedule, k, hk, hpoll⟩)))
  · intro u he hp hserve
    rw [he.eq] at hp hserve
    exact .inr (.inr (.inr (.inr ⟨u.schedule, hp, hserve⟩)))

/-! ## The moves of the LINK, the clock, and the HOST that waits -/

/-- Settles O10: the two moves are `step_arrive` and `step_tick`. -/
theorem linkMovesInEveryPhase : Obligations.LinkMovesInEveryPhase :=
  fun s _ => ⟨fun _ hs => step_arrive hs, fun hs => ⟨s.now + 1#32, BitVec.toNat_add .., step_tick hs⟩⟩

/-- Settles O13: from the deadline on by `expired_since`, before it by `expired_ahead`. -/
theorem deadlineComparison : Obligations.DeadlineComparison :=
  fun _ _ => ⟨fun hk hs => expired_since hs hk, fun h1 h2 hs => expired_ahead hs h1 h2⟩

/-- Settles O9: the LINK's moves write the queue and the clock only, and a poll only what `PollEffect` says. -/
theorem hostWaitsUnlessIdle : Obligations.HostWaitsUnlessIdle := by
  intro s t hp hr h
  obtain ⟨b, rest, -, rfl⟩ | ⟨rest, rfl⟩ | ⟨rest, hs, -⟩ | ⟨rest, k, -, hpoll⟩ | ⟨rest, hi, -⟩ := move_cases h
  · exact ⟨rfl, rfl, rfl, rfl, rfl, rfl⟩
  · exact ⟨rfl, rfl, rfl, rfl, rfl, rfl⟩
  · simp [hs] at hr
  · rw [(receiveStep_effect hpoll).frame]
    exact ⟨rfl, rfl, rfl, rfl, rfl, rfl⟩
  · exact absurd hi hp

/-! ## Host memory -/

/-- Bytes written inside memory keep its form and its size. -/
theorem memory_setSeq {s : State} {a : Nat} {bs : List Byte} (h : MemoryInv s)
    (hl : a + bs.length ≤ s.config.hostMemSize ∨ bs = []) :
    MemoryInv { s with hostMem := s.hostMem.setSeq a bs } := by
  obtain ⟨hwf, hsize⟩ := h
  refine ⟨Memory.setSeq_wf bs _ a hwf, fun c hc => ?_⟩
  obtain hc | hc := Memory.mem_setSeq_of bs _ a c hc
  · obtain hl | rfl := hl
    · exact lt_of_lt_of_le hc.2 hl
    · exact absurd hc.2 (by simpa using hc.1)
  · exact hsize c hc

/-- GET_STRING is the one command of one step that writes memory. -/
theorem CommandEnd.memory {i : Instr} {s t : State} (h : CommandEnd i s t) (hm : MemoryInv s) : MemoryInv t := by
  cases h with
  | copied dest bs q _ _ hl => exact memory_setSeq hm (.inl hl)
  | fault | fail | full | append | value | assignRx | assignTx | sentQuiet | sentOk => exact hm

theorem memory_serveHost {s t : State} (hm : MemoryInv s) (h : serveHost s = .next t) : MemoryInv t := by
  obtain rfl | ⟨rest, ⟨i, hend⟩ | rfl | rfl | ⟨bs, -, rfl⟩ | ⟨a, bs, hl, rfl⟩⟩ := serveHost_ends h
  · exact hm
  · exact hend.memory hm
  · exact hm
  · exact hm
  · exact hm
  · exact memory_setSeq (s := { s with port := rest }) hm hl

theorem memory_receiveStep {k : ReceiveAt} {s t : State} (hm : MemoryInv s) (h : receiveStep k s = .next t) :
    MemoryInv t := by
  have heffect := receiveStep_effect h
  have hc := heffect.config_eq
  obtain e | ⟨_, _, i, b, -, hl, e⟩ := heffect.memory
  · simpa only [MemoryInv, e, hc] using hm
  · have hset : MemoryInv { s with hostMem := s.hostMem.set (s.binRxDesc.base + i) b } :=
      memory_setSeq (bs := [b]) hm (.inl hl)
    simpa only [MemoryInv, e, hc] using hset

/-- Settles O55: only a request of the HOST and a poll of RECEIVE write memory. -/
theorem movesKeepMemory : Obligations.MovesKeepMemory := by
  intro s t hm h
  obtain ⟨b, rest, -, rfl⟩ | ⟨rest, rfl⟩ | ⟨rest, -, rfl⟩ | ⟨rest, k, -, hpoll⟩ | ⟨rest, -, hserve⟩ := move_cases h
  · exact hm
  · exact hm
  · exact hm
  · exact memory_receiveStep (s := { s with schedule := rest }) hm hpoll
  · exact memory_serveHost (s := { s with schedule := rest }) hm hserve

/-- Settles O59: the one write of a RECEIVE is payload byte `i` at `base + i`, and `i` is below the length, which the
capacity check has held against `cap` (42_frame_reader.md R191). -/
theorem receiveWritesStayInBuffer : Obligations.ReceiveWritesStayInBuffer := by
  intro s t k hm hb hk h a ha
  obtain ⟨-, -, -, hfits⟩ := hb
  obtain ⟨b, rest, -, rfl⟩ | ⟨rest, rfl⟩ | ⟨rest, -, rfl⟩ | ⟨rest, k', hk', hpoll⟩ | ⟨rest, hi, -⟩ := move_cases h
  · exact absurd rfl ha
  · exact absurd rfl ha
  · exact absurd rfl ha
  · obtain e | ⟨id, length, i, b, rfl, -, e⟩ := (receiveStep_effect hpoll).memory
    · exact absurd (by rw [e]) ha
    · obtain ⟨hassigned, hcap, hi⟩ := hfits _ hk'
      have hat : s.binRxDesc.base + i = a := by
        by_contra hne
        exact ha (by rw [e, Memory.get_set _ _ _ _ hm.1, if_neg hne])
      exact ⟨hassigned, by omega, by omega⟩
  · exact absurd (hk.symm.trans hi) (by simp)

/-! ## The streams -/

/-- What every move but reset keeps of the streams, the LINK's arrivals aside: the parameters, what has been sent, and
the order of the queue. -/
def StreamsKept (s t : State) : Prop := t.config = s.config ∧ s.txOut <+: t.txOut ∧ t.rxFifo <:+ s.rxFifo

/-- A TRANSMIT adds its frame to what has been sent. -/
theorem CommandEnd.streamsKept {i : Instr} {s t : State} (h : CommandEnd i s t) : StreamsKept s t := by
  cases h with
  | sentQuiet body | sentOk body => exact ⟨rfl, List.prefix_append s.txOut (wireFrame body), List.suffix_rfl⟩
  | fault | fail | full | append | value | copied | assignRx | assignTx =>
    exact ⟨rfl, List.prefix_rfl, List.suffix_rfl⟩

theorem streamsKept_serveHost {s t : State} (h : serveHost s = .next t) : StreamsKept s t := by
  obtain rfl | ⟨rest, ⟨i, hend⟩ | rfl | rfl | ⟨bs, -, rfl⟩ | ⟨a, bs, -, rfl⟩⟩ := serveHost_ends h
  · exact ⟨rfl, List.prefix_rfl, List.suffix_rfl⟩
  · exact hend.streamsKept
  · exact ⟨rfl, List.prefix_rfl, List.suffix_rfl⟩
  · exact ⟨rfl, List.prefix_rfl, List.suffix_rfl⟩
  · exact ⟨rfl, List.prefix_rfl, List.suffix_rfl⟩
  · exact ⟨rfl, List.prefix_rfl, List.suffix_rfl⟩

theorem streamsKept_receiveStep {k : ReceiveAt} {s t : State} (h : receiveStep k s = .next t) : StreamsKept s t := by
  have heffect := receiveStep_effect h
  exact ⟨heffect.config_eq, heffect.txOut_eq ▸ List.prefix_rfl, heffect.queue⟩

/-- Settles O60: only a TRANSMIT writes `TX_OUT`, and the queue grows only by `Arrive`. -/
theorem movesKeepStreamOrder : Obligations.MovesKeepStreamOrder := by
  intro s t h
  obtain ⟨b, rest, hs, rfl⟩ | ⟨rest, rfl⟩ | ⟨rest, hs, rfl⟩ | ⟨rest, k, -, hpoll⟩ | ⟨rest, -, hserve⟩ := move_cases h
  · exact ⟨rfl, fun _ => List.prefix_rfl, .inr ⟨b, rest, hs, rfl⟩⟩
  · exact ⟨rfl, fun _ => List.prefix_rfl, .inl List.suffix_rfl⟩
  · exact ⟨rfl, fun hr => absurd (by simp [hs]) hr, .inl List.suffix_rfl⟩
  · obtain ⟨hc, hout, hqueue⟩ := streamsKept_receiveStep hpoll
    exact ⟨hc, fun _ => hout, .inl hqueue⟩
  · obtain ⟨hc, hout, hqueue⟩ := streamsKept_serveHost hserve
    exact ⟨hc, fun _ => hout, .inl hqueue⟩

end Sys2Proof.Machine
end

section
/-! SUPPORT. Proofs about 20_memory.md R84: no move takes a fixed buffer beyond its capacity. -/

namespace Sys2Proof.Machine

/-- The bounds read neither the queue, the clock, what is pending, nor what is scheduled. -/
theorem bounds_of_environment {s : State} (h : BoundsInv s) (fifo : List Byte) (now : U32) (port : List HostRequest)
    (schedule : List Turn) :
    BoundsInv { s with rxFifo := fifo, now := now, port := port, schedule := schedule } := by
  obtain ⟨hc, ht, hr, hk⟩ := h
  exact ⟨hc, ht, hr, fun k hp => receiveFits_congr rfl rfl k (hk k hp)⟩

/-- A bounded `TX_TEXT` with one more field appended that fits: the field brings its own leading `,` and no NUL. -/
theorem transmit_append {s : State} {r : List Byte} (h : TransmitInv s) (hr : chNul ∉ r)
    (hl : s.txText.length + 1 + r.length ≤ s.config.textCap) :
    TransmitInv { s with txText := s.txText ++ chComma :: r } := by
  obtain ⟨-, hled, hnul, hstr⟩ := h
  refine ⟨?_, .inr ?_, ?_, hstr⟩
  · rw [List.length_append, List.length_cons]
    exact (by omega : s.txText.length + (r.length + 1) ≤ s.config.textCap)
  · obtain h | h := hled <;> simp [h]
  · have : chNul ≠ chComma := by decide
    simp [hnul, hr, this]

/-- An emptied `TX_TEXT` is within every bound. -/
theorem transmit_empty {s : State} (h : TransmitInv s) : TransmitInv { s with txText := [] } := by
  obtain ⟨-, -, -, hstr⟩ := h
  exact ⟨Nat.zero_le _, .inl rfl, List.not_mem_nil, hstr⟩

theorem transmit_txStr {s : State} {bs : List Byte} (h : TransmitInv s) (hl : bs.length ≤ s.config.strCap) :
    TransmitInv { s with txStr := bs } := by
  obtain ⟨hlen, hled, hnul, -⟩ := h
  exact ⟨hlen, hled, hnul, hl⟩

/-- A cursor moved within the text (44_param_codec.md R290). -/
theorem records_cursor {s : State} {q : Nat} (h : RecordsInv s) (hq : q ≤ s.rxAscii.text.length) :
    RecordsInv { s with rxCursor := q } := by
  obtain ⟨hlen, hled, hnum, hstr, hcap, -⟩ := h
  exact ⟨hlen, hled, hnum, hstr, hcap, hq⟩

/-- A command of one step keeps every buffer within its capacity. -/
theorem CommandEnd.buffers {i : Instr} {s t : State} (h : CommandEnd i s t) (hb : BuffersInv s) : BuffersInv t := by
  obtain ⟨hc, ht, hr⟩ := hb
  cases h with
  | fault | fail | assignRx | assignTx => exact ⟨hc, ht, hr⟩
  | full => exact ⟨hc, transmit_empty (s := s) ht, hr⟩
  | append r hn hl => exact ⟨hc, transmit_append ht hn hl, hr⟩
  | value v q _ _ hq => exact ⟨hc, ht, records_cursor (s := s) hr hq⟩
  | copied dest bs q _ hq => exact ⟨hc, ht, records_cursor (s := s) hr hq⟩
  | sentQuiet body t he =>
    obtain rfl | rfl := he
    · exact ⟨hc, ht, hr⟩
    · exact ⟨hc, transmit_empty (s := s) ht, hr⟩
  | sentOk body t he =>
    obtain rfl | hl := he
    · exact ⟨hc, ht, hr⟩
    · exact ⟨hc, transmit_txStr (s := s) ht hl, hr⟩

theorem CommandEnd.not_busy {i : Instr} {s t : State} (h : CommandEnd i s t) (k : ReceiveAt) : t.phase ≠ .busy k := by
  obtain hp | ⟨-, rfl⟩ := h.idle_or_fault
  · simp [hp]
  · simp

/-- RECEIVE's first step empties the received records (42_frame_reader.md R183). -/
theorem buffers_resetRxRecords {s : State} (h : BuffersInv s) : BuffersInv (resetRxRecords (armDeadline s)) := by
  obtain ⟨hc, ht, -⟩ := h
  exact ⟨hc, ht, Nat.zero_le _, .inl rfl, rfl, rfl, Nat.zero_le _, Nat.zero_le _⟩

theorem bounds_serveHost {s t : State} (hb : BoundsInv s) (hp : s.phase = .idle) (h : serveHost s = .next t) :
    BoundsInv t := by
  have ⟨hc, ht, hr, _⟩ := hb
  have hidle : ∀ k, s.phase ≠ .busy k := by simp [hp]
  obtain rfl | ⟨rest, ⟨i, hend⟩ | rfl | rfl | ⟨bs, hl, rfl⟩ | ⟨a, bs, -, rfl⟩⟩ := serveHost_ends h
  · exact hb
  · exact bounds_of_not_busy (hend.buffers ⟨hc, ht, hr⟩) hend.not_busy
  · exact bounds_failReceive _ (buffers_resetRxRecords (s := s) ⟨hc, ht, hr⟩)
  · exact bounds_of_busy (k := .scan) (buffers_resetRxRecords (s := s) ⟨hc, ht, hr⟩) rfl trivial
  · exact bounds_of_not_busy ⟨hc, transmit_txStr (s := s) ht hl, hr⟩ hidle
  · exact bounds_of_not_busy ⟨hc, ht, hr⟩ hidle

/-- Settles O56: reset leaves the registers of a launch; a poll keeps the bounds by `bounds_receiveStep`, which takes
from `KindInv` that the cursor is at 0 while a RECEIVE is in progress. -/
theorem movesKeepBounds : Obligations.MovesKeepBounds := by
  intro s t hkind hb h
  have hschedule := bounds_of_environment hb s.rxFifo s.now s.port
  obtain ⟨b, rest, -, rfl⟩ | ⟨rest, rfl⟩ | ⟨rest, -, rfl⟩ | ⟨rest, k, hk, hpoll⟩ | ⟨rest, hp, hserve⟩ := move_cases h
  · exact bounds_of_environment hb _ _ _ rest
  · exact bounds_of_environment hb _ _ _ rest
  · exact bounds_of_environment (bounds_launch hb.1 s.hostMem s.rxFifo s.now) _ _ s.port rest
  · obtain ⟨-, -, -, -, hbusy⟩ := hkind
    obtain ⟨-, -, -, -, hcursor⟩ := hbusy k hk
    exact bounds_receiveStep (u := { s with schedule := rest }) hk (hschedule rest) hcursor hpoll
  · exact bounds_serveHost (hschedule rest) hp hserve

end Sys2Proof.Machine
end

section
/-! SUPPORT. Proofs about 20_memory.md R95: when a RECEIVE ends that only waits, and that every RECEIVE ends. -/

namespace Sys2Proof.Machine

/-! ## A RECEIVE that only waits, up to its deadline (42_frame_reader.md R181, R186; 70_reset_and_hazards.md R400) -/

/-- What a state reached from `s` is like when the RECEIVE in progress in `s` has ended TIMEOUT at its deadline. -/
def TimedOut (s t : State) : Prop :=
  t.phase = .idle ∧ t.resKind = .none ∧ t.lastFail = .timeout ∧ RecordsDefault t ∧ t.now = s.deadline ∧
    t.rxFifo = s.rxFifo ∧ t.hostMem = s.hostMem

/-- Within `n` moves, and after one at least, the RECEIVE in progress has ended TIMEOUT at its deadline. -/
def TimesOutWithin (n : Nat) (s : State) : Prop := ∃ m t, 1 ≤ m ∧ m ≤ n ∧ runs m s t ∧ TimedOut s t

/-- A move that leaves what `TimedOut` reads adds one to the moves. -/
theorem timesOutWithin_succ {n : Nat} {s u : State} (h : step s = .next u) (hd : u.deadline = s.deadline)
    (hf : u.rxFifo = s.rxFifo) (hm : u.hostMem = s.hostMem) (hu : TimesOutWithin n u) : TimesOutWithin (n + 1) s := by
  obtain ⟨m, t, -, hmn, hruns, ht⟩ := hu
  refine ⟨m + 1, t, by omega, by omega, ⟨u, h, hruns⟩, ?_⟩
  rwa [TimedOut, hd, hf, hm] at ht

/-- The polls that a wait loop needs once its deadline has passed: `ReadField`'s own loop first stops (R186). -/
def pollsLeft : ReceiveAt → Nat
  | .field _ _ => 2
  | .scan | .fieldEnd _ _ | .asciiByte _ _ _ | .ackValue _ | .ackEnd _ _ | .binByte _ _ _ | .binEnd _ _
  | .strByte _ _ _ _ | .strEnd _ _ _ => 1

theorem pollsLeft_bounds (k : ReceiveAt) : 1 ≤ pollsLeft k ∧ pollsLeft k ≤ 2 := by cases k <;> simp [pollsLeft]

/-- What a poll does that takes no byte: where the RECEIVE only waits it changes nothing, `ReadField`'s loop stops, and
any other loop ends TIMEOUT after its deadline. -/
theorem receiveStep_takes_nothing {k : ReceiveAt} {s : State} (hk : s.phase = .busy k)
    (h : s.rxFifo = [] ∨ expired s = true) :
    (onlyWaits s = true ∧ receiveStep k s = .next s) ∨
    (∃ use acc, k = .field use acc ∧ receiveStep k s = .next (awaitAt (.fieldEnd use acc) s)) ∨
    (expired s = true ∧ receiveStep k s = .next (failReceive .timeout s)) := by
  by_cases hstop : ∃ use acc, k = .field use acc ∧ (expired s = true ∨ acc.length = fieldMaxDigits s.config use)
  · obtain ⟨use, acc, rfl, hstop⟩ := hstop
    exact .inr (.inl ⟨use, acc, rfl, receiveStep_field_stops hstop⟩)
  · cases hx : expired s with
    | true => exact .inr (.inr ⟨rfl, receiveStep_expired hx fun use acc e => hstop ⟨use, acc, e, .inl hx⟩⟩)
    | false =>
      have hf : s.rxFifo = [] := h.resolve_right (by simp [hx])
      have hroom : ∀ use acc, k = .field use acc → acc.length ≠ fieldMaxDigits s.config use :=
        fun use acc e hl => hstop ⟨use, acc, e, .inr hl⟩
      exact .inl ⟨(onlyWaits_iff hk).mpr ⟨hf, hx, hroom⟩, receiveStep_waiting hf hx hroom⟩

/-- A RECEIVE in progress with its deadline `d` ms ahead and nothing to take until then, where only ticks up to the
deadline and polls are scheduled. -/
structure WaitsUntil (k : ReceiveAt) (d : Nat) (s : State) : Prop where
  busy : s.phase = .busy k
  ahead : s.deadline = s.now + BitVec.ofNat 32 d
  near : d ≤ 2 ^ 31
  quiet : s.rxFifo = [] ∨ d = 0
  turns : ∀ m ∈ s.schedule, m = .tick ∨ m = .engine
  ticks : s.schedule.count .tick ≤ d

/-- Within these moves a RECEIVE that waits so has ended: those scheduled, the ticks still missing, and its polls. -/
def movesLeft (k : ReceiveAt) (d : Nat) (s : State) : Nat :=
  s.schedule.length + (d - s.schedule.count .tick) + pollsLeft k

theorem WaitsUntil.expired_iff {k : ReceiveAt} {d : Nat} {s : State} (h : WaitsUntil k d s) :
    expired s = true ↔ d = 0 := by
  constructor
  · intro hx
    by_contra hd
    simp [expired_ahead h.ahead (Nat.one_le_iff_ne_zero.mpr hd) h.near] at hx
  · rintro rfl
    exact expired_now (by simpa using h.ahead)

theorem WaitsUntil.awaitAt {k : ReceiveAt} {d : Nat} {s : State} (h : WaitsUntil k d s) (k' : ReceiveAt) :
    WaitsUntil k' d (awaitAt k' s) := { h with busy := rfl }

/-- A tick brings the deadline one millisecond nearer. -/
theorem WaitsUntil.tick {k : ReceiveAt} {d : Nat} {s : State} (h : WaitsUntil k (d + 1) s) {rest : List Turn}
    (hturns : ∀ m ∈ rest, m = .tick ∨ m = .engine) (hticks : rest.count .tick ≤ d) :
    WaitsUntil k d (linkTick { s with schedule := rest }) :=
  ⟨h.busy, deadline_after_tick h.ahead, Nat.le_of_succ_le h.near, .inl (by simpa using h.quiet), hturns, hticks⟩

/-- A poll of a RECEIVE that waits: it stays, it goes on to a loop with fewer polls left, or it ends. -/
theorem timesOutWithin_poll {n d : Nat} {k : ReceiveAt} {s u : State} (he : EngineNext s u) (hw : WaitsUntil k d u)
    (hstay : onlyWaits u = true → TimesOutWithin n u)
    (hnext : ∀ k', pollsLeft k' < pollsLeft k → TimesOutWithin n (awaitAt k' u)) : TimesOutWithin (n + 1) s := by
  obtain ⟨rest, rfl⟩ : ∃ rest, u = { s with schedule := rest } := ⟨_, he.eq⟩
  have hstep := step_busy he hw.busy
  obtain ⟨ha, e⟩ | ⟨use, acc, rfl, e⟩ | ⟨hx, e⟩ :=
    receiveStep_takes_nothing hw.busy (hw.quiet.imp_right hw.expired_iff.mpr) <;> rw [e] at hstep
  · exact timesOutWithin_succ hstep rfl rfl rfl (hstay ha)
  · exact timesOutWithin_succ hstep rfl rfl rfl (hnext (.fieldEnd use acc) (by simp [pollsLeft]))
  · obtain rfl := hw.expired_iff.mp hx
    have hnow : s.now = s.deadline := by simpa using hw.ahead.symm
    exact ⟨1, _, le_rfl, by omega, runs_one hstep, rfl, rfl, rfl, ⟨rfl, rfl, rfl, rfl, rfl⟩, hnow, rfl, rfl⟩

theorem timesOutWithin_of_waits (n : Nat) {k : ReceiveAt} {d : Nat} {s : State} (hw : WaitsUntil k d s)
    (hn : movesLeft k d s ≤ n) : TimesOutWithin n s := by
  induction n generalizing k d s with
  | zero =>
    have := pollsLeft_bounds k
    simp only [movesLeft] at hn
    omega
  | succ n ih =>
    have ⟨hbusy, hahead, hnear, hquiet, hturns, hticks⟩ := hw
    cases hs : s.schedule with
    | nil =>
      simp only [movesLeft, hs, List.length_nil, List.count_nil] at hn
      cases ha : onlyWaits s with
      | true =>
        obtain ⟨-, hx, -⟩ := (onlyWaits_iff hbusy).mp ha
        obtain ⟨d, rfl⟩ : ∃ e, d = e + 1 :=
          Nat.exists_eq_succ_of_ne_zero fun hd => by simp [hw.expired_iff.mpr hd] at hx
        refine timesOutWithin_succ (step_waiting hs ha) rfl rfl rfl (ih (hw.tick hturns (by simp [hs])) ?_)
        simp only [movesLeft, linkTick_schedule, hs, List.length_nil, List.count_nil]
        omega
      | false =>
        refine timesOutWithin_poll (engineNext_self hs ha) hw (by simp [ha]) fun k' hk' => ih (hw.awaitAt k') ?_
        simp only [movesLeft, awaitAt_schedule, hs, List.length_nil, List.count_nil]
        omega
    | cons m rest =>
      have hrest : ∀ m ∈ rest, m = .tick ∨ m = .engine := fun m hm => hturns m (by simp [hs, hm])
      obtain rfl | rfl := hturns m (by simp [hs])
      · simp only [hs, List.count_cons_self] at hticks
        simp only [movesLeft, hs, List.length_cons, List.count_cons_self] at hn
        obtain ⟨d, rfl⟩ : ∃ e, d = e + 1 := ⟨d - 1, by omega⟩
        refine timesOutWithin_succ (step_tick hs) rfl rfl rfl (ih (hw.tick hrest (Nat.le_of_succ_le_succ hticks)) ?_)
        simp only [movesLeft, linkTick_schedule]
        omega
      · have hcount : (Turn.engine :: rest).count .tick = rest.count .tick := List.count_cons_of_ne (by decide)
        rw [hs, hcount] at hticks
        simp only [movesLeft, hs, hcount, List.length_cons] at hn
        have hw' : WaitsUntil k d { s with schedule := rest } := ⟨hbusy, hahead, hnear, hquiet, hrest, hticks⟩
        refine timesOutWithin_poll (.inr ⟨rest, hs, rfl⟩) hw' (fun _ => ih hw' ?_) fun k' hk' => ih (hw'.awaitAt k') ?_
        · simp only [movesLeft]
          omega
        · simp only [movesLeft, awaitAt_schedule]
          omega

/-- Settles O22: from an empty queue by `timesOutWithin_of_waits`; where the ticks to the deadline are all that is
scheduled, they come first, and then the same holds with the deadline at hand. -/
theorem receiveEndsAtDeadline : Obligations.ReceiveEndsAtDeadline := by
  intro s k d hk hd h
  have hpolls := (pollsLeft_bounds k).2
  obtain ⟨hf, hnear, hturns, hticks⟩ | hs := h
  · have hw : WaitsUntil k d s := ⟨hk, hd, hnear, .inl hf, hturns, hticks⟩
    exact timesOutWithin_of_waits _ hw (Nat.add_le_add_left hpolls _)
  · have hruns := runs_ticks d s hs
    have hw : WaitsUntil k 0 { s with schedule := [], now := s.now + BitVec.ofNat 32 d } :=
      ⟨hk, by simpa using hd, Nat.zero_le _, .inr rfl, by simp, le_rfl⟩
    obtain ⟨n, t, hn1, hn2, hruns', ht⟩ := timesOutWithin_of_waits (pollsLeft k) hw (by simp [movesLeft])
    refine ⟨d + n, t, by omega, ?_, runs_add hruns hruns', ht⟩
    simp only [hs, List.length_replicate, List.count_replicate_self]
    omega

/-! ## Every RECEIVE ends, in the machine's own runs -/

/-- Some run of the machine leads to a state in which no RECEIVE is in progress. -/
def ReceiveEnds (s : State) : Prop := ∃ n t, runs n s t ∧ ∀ k, t.phase ≠ .busy k

theorem receiveEnds_of_step {s u : State} (h : step s = .next u) (hu : ReceiveEnds u) : ReceiveEnds s := by
  obtain ⟨n, t, hruns, ht⟩ := hu
  exact ⟨n + 1, t, ⟨u, h, hruns⟩, ht⟩

/-- It is enough to look at the states with a RECEIVE in progress. -/
theorem receiveEnds_of_busy {s : State} (h : ∀ k, s.phase = .busy k → ReceiveEnds s) : ReceiveEnds s := by
  by_cases hb : ∃ k, s.phase = .busy k
  · obtain ⟨k, hk⟩ := hb
    exact h k hk
  · exact ⟨0, s, rfl, fun k hk => hb ⟨k, hk⟩⟩

/-- What a RECEIVE still has to do when nothing more is scheduled, in lexicographic order: wait loops, bytes to take,
milliseconds to wait. -/
def remaining (k : ReceiveAt) (s : State) : ℕ ×ₗ ℕ ×ₗ ℕ :=
  toLex (loopRank k, toLex (s.rxFifo.length, (s.deadline - s.now).toNat))

/-- While a deadline has not passed a tick comes nearer to it. -/
theorem msLeft_tick {s : State} (h : expired s = false) :
    (s.deadline - (s.now + 1#32)).toNat < (s.deadline - s.now).toNat := by
  have hne : s.deadline ≠ s.now := fun e => by simp [expired_now e] at h
  bv_omega

/-- Where nothing is scheduled every move leaves less to do. -/
theorem step_unscheduled {k : ReceiveAt} {s : State} (hk : s.phase = .busy k) (hs : s.schedule = []) :
    ∃ t, step s = .next t ∧ t.schedule = [] ∧ ∀ k', t.phase = .busy k' → remaining k' t < remaining k s := by
  cases ha : onlyWaits s with
  | true =>
    obtain ⟨-, hx, -⟩ := (onlyWaits_iff hk).mp ha
    refine ⟨_, step_waiting hs ha, hs, fun k' hk' => ?_⟩
    obtain rfl : k = k' := by simpa [hk] using hk'
    exact Prod.Lex.right _ (Prod.Lex.right _ (msLeft_tick hx))
  | false =>
    obtain ⟨t, ht, -, -, hts⟩ := receiveStep_next k s
    refine ⟨t, by rw [step_busy (engineNext_self hs ha) hk, ht], hts.trans hs, fun k' hk' => ?_⟩
    obtain hnearer | ⟨⟨k'', hk'', hrank⟩, hx, -, hshorter | ⟨hf, hroom⟩⟩ := receiveStep_nearer hk ht
    · exact Prod.Lex.left _ _ (hnearer k' hk')
    · obtain rfl : k'' = k' := by simpa [hk''] using hk'
      rw [remaining, hrank]
      exact Prod.Lex.right _ (Prod.Lex.left _ _ hshorter)
    · simp [(onlyWaits_iff hk).mpr ⟨hf, hx, hroom⟩] at ha

theorem receiveEnds_unscheduled {s : State} (hs : s.schedule = []) : ReceiveEnds s := by
  refine receiveEnds_of_busy fun k hk => ?_
  induction hr : remaining k s using WellFoundedLT.induction generalizing k s with
  | ind r ih =>
    obtain ⟨t, ht, hts, hless⟩ := step_unscheduled hk hs
    exact receiveEnds_of_step ht (receiveEnds_of_busy fun k' hk' => ih _ (hr ▸ hless k' hk') hts k' hk' rfl)

/-- Every scheduled move is possible while a RECEIVE is in progress, and only takes itself off the schedule. -/
theorem step_scheduled {k : ReceiveAt} {s : State} {m : Turn} {rest : List Turn} (hk : s.phase = .busy k)
    (hs : s.schedule = m :: rest) : ∃ t, step s = .next t ∧ t.schedule = rest := by
  cases m with
  | arrive b => exact ⟨_, step_arrive hs, rfl⟩
  | tick => exact ⟨_, step_tick hs, rfl⟩
  | reset => exact ⟨_, step_reset hs, rfl⟩
  | engine =>
    obtain ⟨t, ht, -, -, hts⟩ := receiveStep_next k { s with schedule := rest }
    exact ⟨t, by rw [step_busy (.inr ⟨rest, hs, rfl⟩) hk, ht], hts⟩

theorem receiveEnds (s : State) : ReceiveEnds s := by
  induction hs : s.schedule generalizing s with
  | nil => exact receiveEnds_unscheduled hs
  | cons m rest ih =>
    refine receiveEnds_of_busy fun k hk => ?_
    obtain ⟨t, ht, hts⟩ := step_scheduled hk hs
    exact receiveEnds_of_step ht (ih t hts)

/-! ## Every RECEIVE ends, in every fair environment -/

/-- A move of an environment that leaves a RECEIVE in progress brings it nearer to its end, or leaves the deadline where
it is; and a poll that does not bring it nearer comes before the deadline. -/
theorem move_nearer {k k' : ReceiveAt} {s t : State} {m : Turn} (hk : s.phase = .busy k)
    (h : step { s with schedule := m :: s.schedule } = .next t) (hk' : t.phase = .busy k') :
    loopRank k' < loopRank k ∨
      (loopRank k' = loopRank k ∧ t.deadline = s.deadline ∧ (m = .engine → expired s = false)) := by
  obtain ⟨-, hidle, -⟩ | ⟨rfl, rfl⟩ | ⟨b, rfl, rfl⟩ | ⟨-, hpoll⟩ := move_while_busy hk h
  · simp [hidle] at hk'
  · obtain rfl : k = k' := by simpa [hk] using hk'
    exact .inr ⟨rfl, rfl, by simp⟩
  · obtain rfl : k = k' := by simpa [hk] using hk'
    exact .inr ⟨rfl, rfl, by simp⟩
  · obtain hnearer | ⟨⟨k'', hk'', hrank⟩, hx, hd, -⟩ := receiveStep_nearer hk hpoll
    · exact .inl (hnearer k' hk')
    · obtain rfl : k'' = k' := by simpa [hk''] using hk'
      exact .inr ⟨hrank, hd, fun _ => hx⟩

section
variable {environment : Environment} {trace : Nat → State} (hfollows : Follows environment trace)
  (hclock : FairClock environment) (hpolls : PollsInTime environment) {n : Nat}
  (hbusy : ∀ i, n ≤ i → ∃ k, (trace i).phase = .busy k)
include hfollows hclock hpolls hbusy

/-- A deadline that stays where it is is found to have passed: the clock reaches it, and the next poll comes in time. -/
theorem exists_expired_poll (hd : ∀ i, n ≤ i → (trace i).deadline = (trace n).deadline) :
    ∃ m, n ≤ m ∧ environment m = .engine ∧ expired (trace m) = true := by
  obtain ⟨j, hj, hticks⟩ := exists_ticksIn hclock n ((trace n).deadline - (trace n).now).toNat
  have hreached : (trace j).now = (trace n).deadline := by
    rw [now_of_follows hfollows hj hbusy, hticks, BitVec.ofNat_toNat, BitVec.setWidth_eq, BitVec.add_comm,
      BitVec.sub_add_cancel]
  obtain ⟨m, hm, hengine, hlt⟩ := hpolls j
  have hnow := now_of_follows hfollows hm fun i hi => hbusy i (hj.trans hi)
  rw [hreached, ← hd m (hj.trans hm)] at hnow
  exact ⟨m, hj.trans hm, hengine, expired_since hnow hlt⟩

/-- A RECEIVE that goes on comes nearer to its end: in one wait loop the deadline would stay where it is, and a poll
after it does not stay. -/
theorem exists_nearer {k : ReceiveAt} (hk : (trace n).phase = .busy k) :
    ∃ m k', n ≤ m ∧ (trace m).phase = .busy k' ∧ loopRank k' < loopRank k := by
  by_contra! hno
  have hstays : ∀ m, n ≤ m → (trace m).deadline = (trace n).deadline ∧
      ∀ k', (trace m).phase = .busy k' → loopRank k' = loopRank k := by
    intro m hm
    induction m, hm using Nat.le_induction with
    | base => exact ⟨rfl, fun k' hk' => by rw [Phase.busy.inj (hk'.symm.trans hk)]⟩
    | succ m hm ih =>
      obtain ⟨hd, hrank⟩ := ih
      obtain ⟨k₁, hk₁⟩ := hbusy m hm
      obtain ⟨k₂, hk₂⟩ := hbusy (m + 1) (by omega)
      have hge := hno (m + 1) k₂ (by omega) hk₂
      obtain hlt | ⟨he, hd', -⟩ := move_nearer hk₁ (hfollows m k₁ hk₁) hk₂
      · have := hrank k₁ hk₁
        omega
      · refine ⟨hd'.trans hd, fun k' hk' => ?_⟩
        rw [Phase.busy.inj (hk'.symm.trans hk₂), he, hrank k₁ hk₁]
  obtain ⟨m, hm, hengine, hx⟩ := exists_expired_poll hfollows hclock hpolls hbusy fun i hi => (hstays i hi).1
  obtain ⟨k₁, hk₁⟩ := hbusy m hm
  obtain ⟨k₂, hk₂⟩ := hbusy (m + 1) (by omega)
  obtain hlt | ⟨-, -, hbefore⟩ := move_nearer hk₁ (hfollows m k₁ hk₁) hk₂
  · have := (hstays m hm).2 k₁ hk₁
    have := hno (m + 1) k₂ (by omega) hk₂
    omega
  · simp [hbefore hengine] at hx

theorem not_always_busy : False := by
  obtain ⟨k, hk⟩ := hbusy n le_rfl
  induction hr : loopRank k using Nat.strongRecOn generalizing n k with
  | ind r ih =>
    obtain ⟨m, k', hm, hk', hlt⟩ := exists_nearer hfollows hclock hpolls hbusy hk
    exact ih _ (hr ▸ hlt) (fun i hi => hbusy i (hm.trans hi)) k' hk' rfl

end

/-- Settles O23: in the machine's own runs by induction on the schedule and then on what remains; in a fair environment
because no RECEIVE can come nearer to its end for ever. -/
theorem everyReceiveEnds : Obligations.EveryReceiveEnds := by
  refine ⟨fun s _ _ => receiveEnds s, fun environment trace hfollows hclock hpolls n => ?_⟩
  by_contra! hbusy
  exact not_always_busy hfollows hclock hpolls hbusy

end Sys2Proof.Machine
end

section
/-! SUPPORT. Proofs about 30_encoding.md R121 and R150 to R153: the decoder inverts the encoder, accepts exactly the
well-formed forms, and refuses the reserved opcodes. -/

namespace Sys2Proof

/-! ## Operands and their readers -/

/-- The one operand value that a reader reads as `a` is what `put` writes for it. -/
def ReadsBack {α : Type} (read : Option Nat → Option α) (put : α → Option Nat) : Prop :=
  ∀ x a, read x = some a → x = put a

theorem readBits_readsBack (w : Nat) : ReadsBack (readBits w) fun v => some v.toNat := fun _ _ => readBits_eq

theorem readFlag_readsBack : ReadsBack readFlag fun v => some v.toNat := fun _ _ => readFlag_eq

theorem readAddr_readsBack : ReadsBack (id : Option Nat → Option Nat) some := fun _ _ h => h

theorem readOptAddr_readsBack : ReadsBack readOptAddr id := fun _ _ h => Option.some.inj h

theorem operands_of_decode1 {α : Type} {mk : α → Instr} {r : Option Nat → Option α} {p : α → Option Nat}
    (hr : ReadsBack r p) {vs : List (Option Nat)} {j : Instr} (h : decode1 mk r vs = some j) :
    ∃ a, vs = [p a] ∧ j = mk a := by
  obtain ⟨x, a, rfl, hx, rfl⟩ := decode1_eq h
  exact ⟨a, by rw [hr x a hx], rfl⟩

theorem operands_of_decode2 {α β : Type} {mk : α → β → Instr} {r : Option Nat → Option α} {q : Option Nat → Option β}
    {p : α → Option Nat} {p' : β → Option Nat} (hr : ReadsBack r p) (hq : ReadsBack q p') {vs : List (Option Nat)}
    {j : Instr} (h : decode2 mk r q vs = some j) : ∃ a b, vs = [p a, p' b] ∧ j = mk a b := by
  obtain ⟨x, y, a, b, rfl, hx, hy, rfl⟩ := decode2_eq h
  exact ⟨a, b, by rw [hr x a hx, hq y b hy], rfl⟩

theorem operands_of_decode3 {α β γ : Type} {mk : α → β → γ → Instr} {r : Option Nat → Option α}
    {q : Option Nat → Option β} {o : Option Nat → Option γ} {p : α → Option Nat} {p' : β → Option Nat}
    {p'' : γ → Option Nat} (hr : ReadsBack r p) (hq : ReadsBack q p') (ho : ReadsBack o p'') {vs : List (Option Nat)}
    {j : Instr} (h : decode3 mk r q o vs = some j) : ∃ a b c, vs = [p a, p' b, p'' c] ∧ j = mk a b c := by
  obtain ⟨x, y, z, a, b, c, rfl, hx, hy, hz, rfl⟩ := decode3_eq h
  exact ⟨a, b, c, by rw [hr x a hx, hq y b hy, ho z c hz], rfl⟩

/-! ## Decoding inverts encoding -/

theorem decode_encode (i : Instr) : decode (encode i) = .ok i := by
  cases i with
  | receive | getUint8 | getUint16 | getUint32 | getInt8 | getInt16 | getInt32 | getFloat => rfl
  | frameAscii | frameAck | frameBinary | frameString => rfl
  | transmitAck id value =>
    cases value <;> simp [encode, decode, decodeCommand, operandReader, decode2, readFlag]
  | assignBinaryRxBuffer | assignBinaryTxBuffer =>
    simp [encode, decode, decodeCommand, operandReader, decode2, decode3, readOptAddr]
  | transmitAscii | transmitBinary | transmitString | transmitStringText | addUint8 | addUint16 | addUint32 | addInt8
  | addInt16 | addInt32 | addFloat | addString | getString =>
    simp [encode, decode, decodeCommand, operandReader, decode1, decode2]

/-- A record that a row of the opcode map reads as `i` is the record that `i` is encoded as: by the shape of the row. -/
theorem command_eq_encode {op : Byte} {vs : List (Option Nat)} {i : Instr} {read : List (Option Nat) → Option Instr}
    (hop : operandReader op.toNat = some read) (h : read vs = some i) : .command ⟨op, vs⟩ = encode i := by
  unfold operandReader at hop
  split at hop <;> cases hop <;> rename_i hn <;> rw [byte_eq_of_toNat hn]
  case h_1 | h_17 | h_18 | h_19 | h_20 | h_21 | h_22 | h_23 =>
    obtain ⟨rfl, rfl⟩ := decode0_eq h
    rfl
  case h_2 | h_4 | h_5 | h_9 | h_10 | h_11 | h_12 | h_13 | h_14 | h_15 =>
    obtain ⟨v, rfl, rfl⟩ := operands_of_decode1 (readBits_readsBack _) h
    rfl
  case h_16 =>
    obtain ⟨text, rfl, rfl⟩ := operands_of_decode1 readAddr_readsBack h
    rfl
  case h_3 =>
    obtain ⟨id, value, rfl, rfl⟩ := operands_of_decode2 (readBits_readsBack 8) readFlag_readsBack h
    rfl
  case h_6 =>
    obtain ⟨id, text, rfl, rfl⟩ := operands_of_decode2 (readBits_readsBack 8) readAddr_readsBack h
    rfl
  case h_7 =>
    obtain ⟨buf, cap, rfl, rfl⟩ := operands_of_decode2 readOptAddr_readsBack (readBits_readsBack 32) h
    rfl
  case h_24 =>
    obtain ⟨dest, len, rfl, rfl⟩ := operands_of_decode2 readAddr_readsBack (readBits_readsBack 16) h
    rfl
  case h_8 =>
    obtain ⟨buf, cap, length, rfl, rfl⟩ :=
      operands_of_decode3 readOptAddr_readsBack (readBits_readsBack 32) (readBits_readsBack 16) h
    rfl

theorem wire_eq_encode {b : Byte} {i : Instr} (h : decodeWire b = .ok i) : .wire b = encode i := by
  unfold decodeWire at h
  split_ifs at h with h1 h2 h3 h4 <;> cases h
  · rw [h1]; rfl
  · rw [h2]; rfl
  · rw [h3]; rfl
  · rw [h4]; rfl

theorem eq_encode_of_decode {e : Encoded} {i : Instr} (h : decode e = .ok i) : e = encode i := by
  cases e with
  | command r =>
    obtain ⟨read, hop, hi⟩ := decodeCommand_ok h
    exact command_eq_encode hop hi
  | wire b => exact wire_eq_encode h

/-- Settles O1: each row of the opcode map and of the delimiter table inverts its row of the encoder. -/
theorem decodeInvertsEncode : Obligations.DecodeInvertsEncode :=
  fun _ i => ⟨eq_encode_of_decode, fun he => he ▸ decode_encode i⟩

/-! ## Exactly the well-formed forms -/

theorem wellFormed_encode (i : Instr) : (encode i).wellFormed = true := by
  cases i with
  | receive => exact Laws.WellFormedEncoding.receive
  | transmitAscii id => exact Laws.WellFormedEncoding.transmitAscii id
  | transmitAck id value => exact Laws.WellFormedEncoding.transmitAck id value
  | transmitBinary id => exact Laws.WellFormedEncoding.transmitBinary id
  | transmitString id => exact Laws.WellFormedEncoding.transmitString id
  | transmitStringText id text => exact Laws.WellFormedEncoding.transmitStringText id text
  | assignBinaryRxBuffer buf cap => exact Laws.WellFormedEncoding.assignBinaryRxBuffer buf cap
  | assignBinaryTxBuffer buf cap length => exact Laws.WellFormedEncoding.assignBinaryTxBuffer buf cap length
  | addUint8 v => exact Laws.WellFormedEncoding.addUint8 v
  | addUint16 v => exact Laws.WellFormedEncoding.addUint16 v
  | addUint32 v => exact Laws.WellFormedEncoding.addUint32 v
  | addInt8 v => exact Laws.WellFormedEncoding.addInt8 v
  | addInt16 v => exact Laws.WellFormedEncoding.addInt16 v
  | addInt32 v => exact Laws.WellFormedEncoding.addInt32 v
  | addFloat x => exact Laws.WellFormedEncoding.addFloat x
  | addString text => exact Laws.WellFormedEncoding.addString text
  | getUint8 => exact Laws.WellFormedEncoding.getUint8
  | getUint16 => exact Laws.WellFormedEncoding.getUint16
  | getUint32 => exact Laws.WellFormedEncoding.getUint32
  | getInt8 => exact Laws.WellFormedEncoding.getInt8
  | getInt16 => exact Laws.WellFormedEncoding.getInt16
  | getInt32 => exact Laws.WellFormedEncoding.getInt32
  | getFloat => exact Laws.WellFormedEncoding.getFloat
  | getString dest len => exact Laws.WellFormedEncoding.getString dest len
  | frameAscii => exact Laws.WellFormedEncoding.frameAscii
  | frameAck => exact Laws.WellFormedEncoding.frameAck
  | frameBinary => exact Laws.WellFormedEncoding.frameBinary
  | frameString => exact Laws.WellFormedEncoding.frameString

/-- A reader reads every value of an operand type. -/
def Covers {α : Type} (read : Option Nat → Option α) (t : OperandType) : Prop :=
  ∀ x, t.admits x = true → ∃ a, read x = some a

theorem readBits_covers {w : Nat} {t : OperandType} (hn : t.admits none = false)
    (hs : ∀ n, t.admits (some n) = decide (n < 2 ^ w)) : Covers (readBits w) t := by
  intro x h
  cases x with
  | none => simp [hn] at h
  | some n => exact ⟨_, readBits_of_lt (of_decide_eq_true ((hs n).symm.trans h))⟩

theorem readBits_covers_u8 : Covers (readBits 8) .u8 := readBits_covers rfl fun _ => rfl
theorem readBits_covers_u16 : Covers (readBits 16) .u16 := readBits_covers rfl fun _ => rfl
theorem readBits_covers_u32 : Covers (readBits 32) .u32 := readBits_covers rfl fun _ => rfl

theorem readFlag_covers : Covers readFlag .bool := by
  rintro (_ | _ | _ | n) h
  · cases h
  · exact ⟨false, rfl⟩
  · exact ⟨true, rfl⟩
  · simp [OperandType.admits] at h

theorem readAddr_covers : Covers (id : Option Nat → Option Nat) .addr := by
  rintro (_ | n) h
  · cases h
  · exact ⟨n, rfl⟩

theorem readOptAddr_covers : Covers readOptAddr .optAddr := fun x _ => ⟨x, rfl⟩

/-- What fits a list of types is a value of the first and what fits the others. -/
theorem operandsFit_cons {t : OperandType} {ts : List OperandType} {vs : List (Option Nat)}
    (h : operandsFit (t :: ts) vs = true) :
    ∃ x ys, vs = x :: ys ∧ t.admits x = true ∧ operandsFit ts ys = true := by
  cases vs with
  | nil => cases h
  | cons x ys =>
    simp only [operandsFit, Bool.and_eq_true] at h
    exact ⟨x, ys, rfl, h⟩

theorem operandsFit_nil {vs : List (Option Nat)} (h : operandsFit [] vs = true) : vs = [] := by
  cases vs with
  | nil => rfl
  | cons => cases h

theorem decode0_of_fit {i : Instr} {vs : List (Option Nat)} (h : operandsFit [] vs = true) :
    ∃ j, decode0 i vs = some j := by
  obtain rfl := operandsFit_nil h
  exact ⟨i, rfl⟩

theorem decode1_of_fit {α : Type} {mk : α → Instr} {r : Option Nat → Option α} {t : OperandType} (hr : Covers r t)
    {vs : List (Option Nat)} (h : operandsFit [t] vs = true) : ∃ j, decode1 mk r vs = some j := by
  obtain ⟨x, ys, rfl, hx, h⟩ := operandsFit_cons h
  obtain rfl := operandsFit_nil h
  obtain ⟨a, ha⟩ := hr x hx
  exact ⟨mk a, by simp [decode1, ha]⟩

theorem decode2_of_fit {α β : Type} {mk : α → β → Instr} {r : Option Nat → Option α} {q : Option Nat → Option β}
    {t t' : OperandType} (hr : Covers r t) (hq : Covers q t') {vs : List (Option Nat)}
    (h : operandsFit [t, t'] vs = true) : ∃ j, decode2 mk r q vs = some j := by
  obtain ⟨x, ys, rfl, hx, h⟩ := operandsFit_cons h
  obtain ⟨y, ys, rfl, hy, h⟩ := operandsFit_cons h
  obtain rfl := operandsFit_nil h
  obtain ⟨a, ha⟩ := hr x hx
  obtain ⟨b, hb⟩ := hq y hy
  exact ⟨mk a b, by simp [decode2, ha, hb]⟩

theorem decode3_of_fit {α β γ : Type} {mk : α → β → γ → Instr} {r : Option Nat → Option α} {q : Option Nat → Option β}
    {o : Option Nat → Option γ} {t t' t'' : OperandType} (hr : Covers r t) (hq : Covers q t') (ho : Covers o t'')
    {vs : List (Option Nat)} (h : operandsFit [t, t', t''] vs = true) : ∃ j, decode3 mk r q o vs = some j := by
  obtain ⟨x, ys, rfl, hx, h⟩ := operandsFit_cons h
  obtain ⟨y, ys, rfl, hy, h⟩ := operandsFit_cons h
  obtain ⟨z, ys, rfl, hz, h⟩ := operandsFit_cons h
  obtain rfl := operandsFit_nil h
  obtain ⟨a, ha⟩ := hr x hx
  obtain ⟨b, hb⟩ := hq y hy
  obtain ⟨c, hc⟩ := ho z hz
  exact ⟨mk a b c, by simp [decode3, ha, hb, hc]⟩

/-- Each opcode with a signature has a reader, which accepts all operands that fit. -/
theorem operandReader_of_signature {op : Nat} {ts : List OperandType} (h : signature op = some ts) :
    ∃ read, operandReader op = some read ∧ ∀ vs, operandsFit ts vs = true → ∃ i, read vs = some i := by
  unfold signature at h
  split at h <;> cases h <;> refine ⟨_, rfl, fun vs hfit => ?_⟩
  case h_1 | h_17 | h_18 | h_19 | h_20 | h_21 | h_22 | h_23 => exact decode0_of_fit hfit
  case h_2 | h_4 | h_5 | h_9 | h_12 => exact decode1_of_fit readBits_covers_u8 hfit
  case h_10 | h_13 => exact decode1_of_fit readBits_covers_u16 hfit
  case h_11 | h_14 | h_15 => exact decode1_of_fit readBits_covers_u32 hfit
  case h_16 => exact decode1_of_fit readAddr_covers hfit
  case h_3 => exact decode2_of_fit readBits_covers_u8 readFlag_covers hfit
  case h_6 => exact decode2_of_fit readBits_covers_u8 readAddr_covers hfit
  case h_7 => exact decode2_of_fit readOptAddr_covers readBits_covers_u32 hfit
  case h_24 => exact decode2_of_fit readAddr_covers readBits_covers_u16 hfit
  case h_8 => exact decode3_of_fit readOptAddr_covers readBits_covers_u32 readBits_covers_u16 hfit

theorem decodeCommand_of_wellFormed {r : CommandRecord} (h : r.wellFormed = true) : ∃ i, decodeCommand r = .ok i := by
  unfold CommandRecord.wellFormed at h
  split at h
  · rename_i ts hts
    obtain ⟨read, hread, hfits⟩ := operandReader_of_signature hts
    obtain ⟨i, hi⟩ := hfits _ h
    exact ⟨i, by simp [decodeCommand, hread, hi]⟩
  · cases h

theorem decodeWire_of_wellFormed {b : Byte} (h : (Encoded.wire b).wellFormed = true) : ∃ i, decodeWire b = .ok i := by
  simp only [Encoded.wellFormed, Bool.or_eq_true, beq_iff_eq] at h
  obtain ((rfl | rfl) | rfl) | rfl := h
  · exact ⟨.frameAscii, rfl⟩
  · exact ⟨.frameAck, rfl⟩
  · exact ⟨.frameBinary, rfl⟩
  · exact ⟨.frameString, rfl⟩

/-- Settles O2: a form that decodes is an instruction's encoding, and every encoding is well formed. -/
theorem decodeExactlyWellFormed : Obligations.DecodeExactlyWellFormed := by
  intro e
  constructor
  · intro h
    cases e with
    | command r => exact decodeCommand_of_wellFormed h
    | wire b => exact decodeWire_of_wellFormed h
  · rintro ⟨i, hi⟩
    rw [eq_encode_of_decode hi]
    exact wellFormed_encode i

/-- Settles O5: each form is the encoding of its instruction. -/
theorem decodedWordsMatchTable : Obligations.DecodedWordsMatchTable :=
  ⟨decode_encode .receive, decode_encode (.transmitAscii 7#8), decode_encode (.transmitAck 3#8 false),
    decode_encode (.assignBinaryTxBuffer none 0#32 0#16), decode_encode (.addInt32 (-1)),
    decode_encode (.getString 0xFFF 3#16), decode_encode .frameAscii, decode_encode .frameAck,
    decode_encode .frameBinary, decode_encode .frameString⟩

/-! ## Reserved opcodes -/

/-- The opcode map has no row in the ranges of R153. -/
theorem operandReader_reserved {op : Nat} (h : op = 0x00 ∨ (0x02 ≤ op ∧ op ≤ 0x0F) ∨ (0x15 ≤ op ∧ op ≤ 0x1F) ∨
    (0x22 ≤ op ∧ op ≤ 0x2F) ∨ (0x38 ≤ op ∧ op ≤ 0x3F) ∨ 0x48 ≤ op) : operandReader op = none := by
  unfold operandReader
  split
  case h_25 => rfl
  all_goals omega

end Sys2Proof

namespace Sys2Proof.Machine

/-- An Idle engine refuses a command that does not decode. -/
theorem step_refuses {s u : State} {r : CommandRecord} {rest : List HostRequest} {c : Reject} (he : EngineNext s u)
    (hp : u.phase = .idle) (hport : u.port = .command r :: rest) (hr : decodeCommand r = .error c) :
    step s = .refused .illegalCommand := by
  rw [step_idle he hp]
  simp [serveHost, hport, runCommand, hr]

/-- Settles O3: an opcode without a row in the opcode map does not decode. -/
theorem reservedOpcodesRefused : Obligations.ReservedOpcodesRefused := by
  intro s u r rest he hp hport hop
  have hread : operandReader r.op.toNat = none := by
    refine operandReader_reserved ?_
    bv_omega
  exact step_refuses he hp hport (c := .reservedOpcode r.op) (by simp [decodeCommand, hread])

end Sys2Proof.Machine
end

section
/-! SUPPORT. Proofs about 30_encoding.md R122 to R125: each kind of frame, queued or arriving, is received whole.
A frame's body is followed part by part from the scan to the `;` that ends its payload (`Takes`); then comes the
trailer. -/

namespace Sys2Proof.Machine

/-! ## The parts of a body -/

/-- RECEIVE takes and checksums the bytes `bs` of a body on its way from the wait loop `k` to `k'`, and the rest of the
state, queue, schedule and clock aside, goes from `s` to `s'`. -/
def Takes (k : ReceiveAt) (bs : List Byte) (s : State) (k' : ReceiveAt) (s' : State) : Prop :=
  ∀ p rest, Leads k p (bs ++ rest) s k' (csFold p bs) rest s'

theorem takes_trans {k k' k'' : ReceiveAt} {bs cs : List Byte} {s s' s'' : State} (h : Takes k bs s k' s')
    (h' : Takes k' cs s' k'' s'') : Takes k (bs ++ cs) s k'' s'' := by
  intro p rest
  rw [List.append_assoc, csFold_append]
  exact leads_trans (h p (cs ++ rest)) (h' (csFold p bs) rest)

theorem takes_delimiter {b : Byte} {i : Instr} {k : ReceiveAt} (s : State) (hi : decodeWire b = .ok i)
    (he : ∀ t, exec i t = .next (awaitAt k t)) : Takes .scan [b] s k s :=
  fun p rest => leads_delimiter s b rest p i k hi he

/-- A field of digits and its terminator, after which `ReadField`'s caller goes on to another loop. -/
theorem takes_field {use : FieldUse} {ds : List Byte} {t : Byte} {k' : ReceiveAt} {s : State}
    (hcs : fieldChecksummed use = true) (hd : Digits ds) (ht : fieldTerminator use t = true)
    (hl : ds.length ≤ fieldMaxDigits s.config use)
    (h : ∀ p fifo turns now, fieldDone use ds t (enRoute (.fieldEnd use ds) p fifo turns now s) =
      enRoute k' p fifo turns now s) : Takes (.field use []) (ds ++ [t]) s k' s := by
  intro p rest
  have hleads := leads_field_end use ds rest t p k' (digits_no_terminator hd use) ht hl fun _ _ _ => h _ _ _ _
  rwa [fieldCs_body hcs, ← List.singleton_append, ← List.append_assoc] at hleads

/-- An id field of any digits, after which the sub-parser goes on to the wait loop `k` with the id. -/
theorem takes_id {use : FieldUse} {id : List Byte} {t : Byte} {s : State} (k : Byte → ReceiveAt)
    (hcs : fieldChecksummed use = true) (hdone : ∀ v, fieldDone use id t v = withId id v fun i => awaitAt (k i) v)
    (ht : fieldTerminator use t = true) (hd : Digits id) (hl : id.length ≤ fieldMaxDigits s.config use)
    (hv : decVal id ≤ 255) : Takes (.field use []) (id ++ [t]) s (k (BitVec.ofNat 8 (decVal id))) s := by
  refine takes_field hcs hd ht hl fun p fifo turns now => ?_
  rw [hdone, withId_digits hd hv]
  rfl

theorem takes_ackValue (s : State) (id : Byte) (value : Bool) :
    Takes (.ackValue id) [if value then chOne else chZero] s (.ackEnd id value) s := by
  intro p rest
  refine leads_wait (afterAckValue id) (by simp) rfl (fun _ _ _ => rfl) fun _ _ _ => ?_
  cases value <;> rfl

theorem takes_text (s : State) (id : Byte) {text : List Byte} (hsemi : chSemi ∉ text)
    (hl : 1 + text.length ≤ s.config.textCap) :
    Takes (.asciiByte id 1 [chComma]) text s (.asciiByte id ((chComma :: text).count chComma) (chComma :: text)) s :=
  fun p rest => leads_ascii s id text rest [chComma] p hsemi hl

/-- Where RECEIVE goes on after the length field of a binary frame that fits the borrowed buffer. -/
def binPayload (id : Byte) (length : U16) : ReceiveAt :=
  if length = 0#16 then .binEnd id length else .binByte id length 0

theorem startBinary_of_fits {s : State} (id : Byte) {length : U16} (hassigned : s.binRxDesc.assigned = true)
    (hcap : length.toNat ≤ s.binRxDesc.cap.toNat) : startBinary id length s = awaitAt (binPayload id length) s := by
  rw [startBinary, if_neg (by simp [hassigned, hcap]), binPayload]
  split <;> rfl

/-- Where RECEIVE goes on after the length field of a string frame. -/
def strPayload (id : Byte) (length : U16) : ReceiveAt :=
  if length = 0#16 then .strEnd id length [] else .strByte id length 0 []

theorem startString_eq (id : Byte) (length : U16) (s : State) :
    startString id length s = awaitAt (strPayload id length) s := by
  rw [startString, strPayload]
  split <;> rfl

theorem length_eq_zero_iff {length : U16} {payload : List Byte} (h : length.toNat = payload.length) :
    length = 0#16 ↔ payload = [] := by
  rw [← List.length_eq_zero_iff, ← h, BitVec.toNat_eq, BitVec.toNat_zero]

/-- A length field of any digits, its `;` and the payload of a binary frame that fits the borrowed buffer. -/
theorem takes_binLen {s : State} (id : Byte) {length payload : List Byte} (hd : Digits length)
    (hl : length.length ≤ s.config.lenDigits) (hv : decVal length = payload.length) (h16 : payload.length ≤ 65535)
    (hassigned : s.binRxDesc.assigned = true) (hcap : payload.length ≤ s.binRxDesc.cap.toNat)
    (hm : s.binRxDesc.base + payload.length ≤ s.config.hostMemSize) :
    Takes (.field (.binLen id) []) (length ++ [chSemi] ++ payload) s (.binEnd id (BitVec.ofNat 16 payload.length))
      { s with hostMem := s.hostMem.setSeq s.binRxDesc.base payload } := by
  have hlen : (BitVec.ofNat 16 payload.length).toNat = payload.length := Nat.mod_eq_of_lt (by omega)
  refine takes_trans (k' := binPayload id (BitVec.ofNat 16 payload.length))
    (takes_field rfl hd rfl hl fun p fifo turns now => ?_) fun p rest => ?_
  · rw [fieldDone, withLength_digits hd (hv ▸ h16), hv]
    exact startBinary_of_fits id hassigned (hlen.trans_le hcap)
  · by_cases h0 : payload = []
    · rw [binPayload, if_pos ((length_eq_zero_iff hlen).mpr h0), h0]
      exact leads_refl _ _ _ _
    · rw [binPayload, if_neg (mt (length_eq_zero_iff hlen).mp h0)]
      exact leads_binary s id _ payload rest 0 p (by omega) h0 (by omega)

/-- A length field of any digits, its `;` and the payload of a string frame, of which the first `STR_CAP` bytes are
kept. -/
theorem takes_strLen {s : State} (id : Byte) {length payload : List Byte} (hd : Digits length)
    (hl : length.length ≤ s.config.lenDigits) (hv : decVal length = payload.length) (h16 : payload.length ≤ 65535) :
    Takes (.field (.strLen id) []) (length ++ [chSemi] ++ payload) s
      (.strEnd id (BitVec.ofNat 16 payload.length) (payload.take s.config.strCap)) s := by
  have hlen : (BitVec.ofNat 16 payload.length).toNat = payload.length := Nat.mod_eq_of_lt (by omega)
  refine takes_trans (k' := strPayload id (BitVec.ofNat 16 payload.length))
    (takes_field rfl hd rfl hl fun p fifo turns now => ?_) fun p rest => ?_
  · rw [fieldDone, withLength_digits hd (hv ▸ h16), hv, startString_eq]
    rfl
  · by_cases h0 : payload = []
    · rw [strPayload, if_pos ((length_eq_zero_iff hlen).mpr h0), h0, List.take_nil]
      exact leads_refl _ _ _ _
    · rw [strPayload, if_neg (mt (length_eq_zero_iff hlen).mp h0)]
      simpa using leads_string s id _ payload [] rest p (by simp [hlen]) h0

/-! ## From the end of a body to the end of RECEIVE -/

/-- A scanning RECEIVE with its deadline ahead is at the start of the bytes that are queued or will arrive. -/
theorem reaches_scan {s : State} {bs : List Byte} (hp : s.phase = .busy .scan) (ha : s.csA = 0#8) (hb : s.csB = 0#8)
    (hd : InTime s.deadline s.now s.schedule) (hq : s.rxFifo ++ arrivals s.schedule = bs) :
    Reaches .scan (0#8, 0#8) bs s s := by
  have hself := enRoute_self hp
  rw [ha, hb] at hself
  exact ⟨s.rxFifo, s.schedule, s.now, hself.symm, hq, hd⟩

/-- The wait loop `k` awaits the `;` that ends the payload of the message `m`. -/
def AwaitsEnd (k : ReceiveAt) (m : Parsed) (s : State) : Prop :=
  ∃ f : Byte → State → Except Fault State, (∀ use acc, k ≠ .field use acc) ∧
    (∀ v, f chSemi v = .ok (startTrailer m v)) ∧ ∀ p fifo turns now, receiveStep k (enRoute k p fifo turns now s) =
      settle (enRoute k p fifo turns now s) (waitByte true f (enRoute k p fifo turns now s))

theorem awaitsEnd_asciiByte (id : Byte) (np : Nat) (text : List Byte) (s : State) :
    AwaitsEnd (.asciiByte id np text) (.ascii id np text) s :=
  ⟨afterAsciiByte id np text, by simp, fun _ => rfl, fun _ _ _ _ => rfl⟩

theorem awaitsEnd_ackEnd (id : Byte) (value : Bool) (s : State) : AwaitsEnd (.ackEnd id value) (.ack id value) s :=
  ⟨afterPayloadEnd (.ack id value), by simp, fun _ => rfl, fun _ _ _ _ => rfl⟩

theorem awaitsEnd_binEnd (id : Byte) (length : U16) (s : State) : AwaitsEnd (.binEnd id length) (.binary id length) s :=
  ⟨afterPayloadEnd (.binary id length), by simp, fun _ => rfl, fun _ _ _ _ => rfl⟩

theorem awaitsEnd_strEnd (id : Byte) (length : U16) (data : List Byte) (s : State) :
    AwaitsEnd (.strEnd id length data) (stringMessage id length data s) s :=
  ⟨afterPayloadEnd (stringMessage id length data s), by simp, fun _ => rfl, fun _ _ _ _ => rfl⟩

/-- The `;` starts the trailer, whose expected value is the checksum of the bytes so far. -/
theorem leads_to_trailer {k : ReceiveAt} {m : Parsed} {s : State} (h : AwaitsEnd k m s) (p : Byte × Byte)
    (rest : List Byte) : Leads k p (chSemi :: rest) s
      (.field (.trailer ((csStep p chSemi).1 ++ (csStep p chSemi).2) m) []) (csStep p chSemi) rest s := by
  obtain ⟨f, hk, hf, hr⟩ := h
  refine leads_wait f hk rfl (fun _ _ _ => hr _ _ _ _) fun _ _ _ => ?_
  rw [hf]
  rfl

/-- The machine runs from `s` to the end of RECEIVE with the message `m`, its body `body` checked against `trailer`;
what follows the frame stays queued or scheduled, and the rest of the state is that of `s'`. -/
def Receives (s s' : State) (m : Parsed) (body trailer rest : List Byte) : Prop :=
  ∃ n k p fifo turns now,
    runs n s (finishParsed m (decide (decVal trailer = (checksumOf body).toNat)) (enRoute k p fifo turns now s')) ∧
      fifo ++ arrivals turns = rest

/-- Where a run has come to the part `bs` of a body of which `done` has been taken, and RECEIVE takes `bs` on its way to
the payload's end, only the `;` and the trailer are left. -/
theorem receives_of_takes {n : Nat} {v v' s s' : State} {k k' : ReceiveAt} {m : Parsed}
    {done bs trailer rest : List Byte} (body : List Byte) (hbody : body = done ++ bs ++ [chSemi])
    (hruns : runs n v v')
    (hv : Reaches k (csFold (0#8, 0#8) done) (bs ++ chSemi :: (trailer ++ chSemi :: rest)) s v')
    (ht : Takes k bs s k' s') (hend : AwaitsEnd k' m s') (hd : Digits trailer)
    (hl : trailer.length ≤ s'.config.csDigits) : Receives v s' m body trailer rest := by
  obtain ⟨n', u, hruns', hu⟩ := ht _ _ v' hv
  rw [← csFold_append] at hu
  have hp : csFold (0#8, 0#8) body = csStep (csFold (0#8, 0#8) (done ++ bs)) chSemi := by rw [hbody, csFold_append]; rfl
  have hleads := leads_to_trailer hend (csFold (0#8, 0#8) (done ++ bs)) (trailer ++ chSemi :: rest)
  rw [← hp] at hleads
  exact frame_ends (body := body) (runs_add hruns hruns') hu hleads hd hl

/-! ## ACK frames -/

/-- Settles O34: id, value, `;` and trailer, one after another. -/
theorem ackFrameReceived : Obligations.AckFrameReceived := by
  intro s id value trailer rest hp ha hb hd hid hidl hidv htr htrl hq
  have htakes : Takes .scan ([chQuestion] ++ (id ++ [chComma]) ++ [if value then chOne else chZero]) s
      (.ackEnd (BitVec.ofNat 8 (decVal id)) value) s :=
    takes_trans (takes_trans (takes_delimiter s (i := .frameAck) rfl fun _ => rfl)
      (takes_id .ackValue rfl (fun _ => rfl) rfl hid hidl hidv)) (takes_ackValue s _ value)
  obtain ⟨n, k, p, fifo, turns, now, hruns, hrest⟩ := receives_of_takes (n := 0) (done := [])
    (ackBody id value) (by simp [ackBody]) rfl (reaches_scan hp ha hb hd (by simpa [ackBody, chSemi] using hq))
    htakes (awaitsEnd_ackEnd _ _ _) htr htrl
  exact ⟨n, _, hruns, rfl, rfl, rfl, hrest, rfl, rfl, rfl, rfl, rfl, rfl, rfl⟩

/-! ## Binary frames -/

/-- The payload stands from the base on, and every other byte reads as before. -/
theorem get_setSeq_getD {m : Memory} (h : m.wf) (base a : Nat) (payload : List Byte) :
    (m.setSeq base payload).get a =
      if base ≤ a ∧ a < base + payload.length then payload[a - base]?.getD 0#8 else m.get a := by
  rw [Memory.get_setSeq _ _ _ _ h]
  by_cases h1 : base ≤ a
  · by_cases h2 : a < base + payload.length
    · have hlt : a - base < payload.length := by omega
      simp [h1, h2, hlt]
    · have hge : payload.length ≤ a - base := by omega
      simp [h1, h2, hge]
  · simp [h1]

/-- Settles O35: `!` is taken before the deadline, all that follows before the extended one. -/
theorem binaryFrameReceived : Obligations.BinaryFrameReceived := by
  intro s before after id length payload trailer rest hp ha hb hs hbefore hne hafter hd hid hidl hidv hlen hlenl hlenv
    h16 htr htrl hwf hassigned hcap hm hq
  obtain ⟨n, v, hruns, hv⟩ := scan_takes_bang hp hs hbefore hne hafter hd
    (rest := id ++ [chComma] ++ (length ++ [chSemi] ++ payload) ++ chSemi :: (trailer ++ chSemi :: rest))
    (by simpa [binaryBody, chSemi] using hq)
  rw [ha, hb] at hv
  have htakes : Takes (.field .binId []) (id ++ [chComma] ++ (length ++ [chSemi] ++ payload)) (extendDeadline s)
      (.binEnd (BitVec.ofNat 8 (decVal id)) (BitVec.ofNat 16 payload.length))
      { extendDeadline s with hostMem := s.hostMem.setSeq s.binRxDesc.base payload } :=
    takes_trans (takes_id (fun i => .field (.binLen i) []) rfl (fun _ => rfl) rfl hid hidl hidv)
      (takes_binLen (s := extendDeadline s) _ hlen hlenl hlenv h16 hassigned hcap hm)
  obtain ⟨n, k, p, fifo, turns, now, hruns, hrest⟩ := receives_of_takes (done := [chBang])
    (binaryBody id length payload) (by simp [binaryBody]) hruns hv htakes (awaitsEnd_binEnd _ _ _) htr htrl
  exact ⟨n, _, hruns, rfl, rfl, rfl, hrest, rfl, rfl, rfl, rfl, rfl, rfl, fun a => get_setSeq_getD hwf _ a _⟩

/-! ## String frames -/

/-- Settles O36: all payload bytes are taken, and the record's length is that of the bytes kept. -/
theorem stringFrameReceived : Obligations.StringFrameReceived := by
  intro s id length payload trailer rest hp ha hb hd hid hidl hidv hlen hlenl hlenv h16 htr htrl hq
  have htakes : Takes .scan ([chQuote] ++ (id ++ [chComma]) ++ (length ++ [chSemi] ++ payload)) s
      (.strEnd (BitVec.ofNat 8 (decVal id)) (BitVec.ofNat 16 payload.length) (payload.take s.config.strCap)) s :=
    takes_trans (takes_trans (takes_delimiter s (i := .frameString) rfl fun _ => rfl)
      (takes_id (fun i => .field (.strLen i) []) rfl (fun _ => rfl) rfl hid hidl hidv))
      (takes_strLen _ hlen hlenl hlenv h16)
  obtain ⟨n, k, p, fifo, turns, now, hruns, hrest⟩ := receives_of_takes (n := 0) (done := [])
    (stringBody id length payload) (by simp [stringBody]) rfl
    (reaches_scan hp ha hb hd (by simpa [stringBody, chSemi] using hq)) htakes (awaitsEnd_strEnd _ _ _ _) htr htrl
  have hcount : (BitVec.ofNat 16 payload.length).toNat = payload.length := Nat.mod_eq_of_lt (by omega)
  rw [stringMessage, hcount] at hruns
  exact ⟨n, _, hruns, rfl, rfl, rfl, hrest, rfl, rfl, rfl, rfl, rfl, rfl, rfl⟩

/-! ## ASCII frames -/

/-- An ASCII frame without text: the `;` that ends the body is the terminator of its id field. -/
theorem receives_ascii_nil {s : State} {id trailer rest : List Byte} (hid : Digits id)
    (hidl : id.length ≤ s.config.idDigits) (hidv : decVal id ≤ 255) (htr : Digits trailer)
    (htrl : trailer.length ≤ s.config.csDigits)
    (hs : Reaches .scan (0#8, 0#8) (asciiBody id [] ++ (trailer ++ chSemi :: rest)) s s) :
    Receives s s (.ascii (BitVec.ofNat 8 (decVal id)) 0 []) (asciiBody id []) trailer rest := by
  have hbody : asciiBody id [] = chHash :: (id ++ [chSemi]) := by simp [asciiBody]
  have hp : csFold (0#8, 0#8) (asciiBody id []) = fieldCs .asciiId (csStep (0#8, 0#8) chHash) (id ++ [chSemi]) := by
    rw [hbody]
    rfl
  have hdelimiter := leads_delimiter s chHash (id ++ chSemi :: (trailer ++ chSemi :: rest)) (0#8, 0#8) .frameAscii _ rfl
    fun _ => rfl
  have hfield := leads_field_end (s := s) .asciiId id (trailer ++ chSemi :: rest) chSemi (csStep (0#8, 0#8) chHash)
    (.field (.trailer (checksumOf (asciiBody id [])) (.ascii (BitVec.ofNat 8 (decVal id)) 0 [])) [])
    (digits_no_terminator hid _) rfl hidl fun fifo turns now => by
      rw [fieldDone, withId_digits hid hidv, checksumOf_eq, hp]
      rfl
  have hbytes : asciiBody id [] ++ (trailer ++ chSemi :: rest) =
      chHash :: (id ++ chSemi :: (trailer ++ chSemi :: rest)) := by simp [hbody]
  exact frame_ends (n := 0) rfl hs (hbytes ▸ leads_trans hdelimiter hfield) htr htrl

/-- An ASCII frame with a text: its first byte is the `,` that ends the id field. -/
theorem receives_ascii_cons {s : State} {id text trailer rest : List Byte} (hid : Digits id)
    (hidl : id.length ≤ s.config.idDigits) (hidv : decVal id ≤ 255) (htr : Digits trailer)
    (htrl : trailer.length ≤ s.config.csDigits) (hsemi : chSemi ∉ text) (hl : 1 + text.length ≤ s.config.textCap)
    (hs : Reaches .scan (0#8, 0#8) (asciiBody id (chComma :: text) ++ (trailer ++ chSemi :: rest)) s s) :
    Receives s s (.ascii (BitVec.ofNat 8 (decVal id)) ((chComma :: text).count chComma) (chComma :: text))
      (asciiBody id (chComma :: text)) trailer rest := by
  have htakes : Takes .scan ([chHash] ++ (id ++ [chComma]) ++ text) s
      (.asciiByte (BitVec.ofNat 8 (decVal id)) ((chComma :: text).count chComma) (chComma :: text)) s :=
    takes_trans (takes_trans (takes_delimiter s (i := .frameAscii) rfl fun _ => rfl)
      (takes_id (fun i => .asciiByte i 1 [chComma]) rfl (fun _ => rfl) rfl hid hidl hidv)) (takes_text s _ hsemi hl)
  exact receives_of_takes (n := 0) (done := []) _ (by simp [asciiBody]) rfl (by simpa [asciiBody] using hs) htakes
    (awaitsEnd_asciiByte _ _ _ _) htr htrl

/-- Settles O33, without a text and with one. -/
theorem asciiFrameReceived : Obligations.AsciiFrameReceived := by
  intro s id text trailer rest hp ha hb hd hid hidl hidv htr htrl hled hsemi htextl hcap hq
  have hs : Reaches .scan (0#8, 0#8) (asciiBody id text ++ (trailer ++ chSemi :: rest)) s s :=
    reaches_scan hp ha hb hd (by simpa [chSemi] using hq)
  have hreceives : Receives s s (.ascii (BitVec.ofNat 8 (decVal id)) (text.count chComma) text) (asciiBody id text)
      trailer rest := by
    rcases text with _ | ⟨c, text⟩
    · exact receives_ascii_nil hid hidl hidv htr htrl hs
    · obtain rfl : c = chComma := by simpa [CommaLed] using hled
      have htext : chSemi ∉ text := fun h => hsemi (List.mem_cons_of_mem _ h)
      exact receives_ascii_cons hid hidl hidv htr htrl htext (by simpa [Nat.add_comm] using htextl) hs
  obtain ⟨n, k, p, fifo, turns, now, hruns, hrest⟩ := hreceives
  exact ⟨n, _, hruns, rfl, rfl, rfl, hrest, rfl, rfl, rfl, rfl, rfl, rfl, rfl⟩

end Sys2Proof.Machine
end

section
/-! SUPPORT. Proofs about 30_encoding.md R131 and R132: the widths of the renderings, and the integer a float is
rendered from. -/

namespace Sys2Proof.Machine

/-! ## Widths -/

/-- A number below `10^k` in magnitude renders in at most `k` digits and a sign. -/
theorem sdec_length_le {n : Int} {k : Nat} (hk : 0 < k) (h : n.natAbs < 10 ^ k) : (sdec n).length ≤ k + 1 := by
  have hdec := dec_length_le hk h
  unfold sdec
  split
  · rw [List.length_cons]
    omega
  · omega

/-- A number of `w` bits in two's complement is at most `2^w / 2` in magnitude. -/
theorem two_mul_natAbs_toInt_le {w : Nat} (v : BitVec w) : 2 * v.toInt.natAbs ≤ 2 ^ w := by
  have hlt := v.isLt
  rw [BitVec.toInt_eq_toNat_cond]
  split <;> omega

/-- Rounding is at most up to the next integer, and a divisor does not make a quotient larger. -/
theorem roundQuot_le (ties : Ties) (num den : Nat) : roundQuot ties num den ≤ num + 1 := by
  have hdiv := Nat.div_le_self num den
  obtain ⟨h, -⟩ | ⟨h, -⟩ := roundQuot_cases ties num den <;> omega

theorem floatScale_le {x : U32} (h : FloatFinite x) : floatScale x ≤ 254 := by
  have hlt : floatExp x < 2 ^ 8 := Nat.mod_lt _ (by decide)
  unfold floatScale
  omega

/-- The integer part of a finite float is below `2^24 * 2^104`, which has 39 digits. -/
theorem floatMicros_div_lt (ties : Ties) {x : U32} (h : FloatFinite x) : floatMicros ties x / 10 ^ 6 < 10 ^ 39 := by
  have hm : floatMant x * 10 ^ 6 ≤ (2 ^ 24 - 1) * 10 ^ 6 :=
    Nat.mul_le_mul_right _ (Nat.le_sub_one_of_lt (floatMant_lt x))
  have hs : 2 ^ (floatScale x - 150) ≤ 2 ^ 104 :=
    Nat.pow_le_pow_right (by decide) (by have := floatScale_le h; omega)
  have hle := (roundQuot_le ties _ (2 ^ (150 - floatScale x))).trans (Nat.add_le_add_right (Nat.mul_le_mul hm hs) 1)
  refine Nat.div_lt_of_lt_mul (lt_of_le_of_lt hle ?_)
  norm_num

theorem fmtF_length_le (ties : Ties) (x : U32) : (fmtF ties x).length ≤ 47 := by
  have hsign : (if floatSign x then [chMinus] else []).length ≤ 1 := by split <;> simp
  rw [fmtF, List.length_append]
  by_cases hx : floatExp x = 255
  · have hname : (if floatFrac x = 0 then chInf else chNan).length ≤ 3 := by split <;> simp [chInf, chNan]
    rw [if_pos hx]
    omega
  · have hwhole := dec_length_le (by decide) (floatMicros_div_lt ties hx)
    have hfrac := pad6_length (Nat.mod_lt (floatMicros ties x) (by decide : 0 < 10 ^ 6))
    rw [if_neg hx, List.length_append, List.length_append, hfrac, List.length_singleton]
    omega

/-- A command that has appended a field to `TX_TEXT` has kept it within `TEXT_CAP`. -/
theorem CommandEnd.appended_le {i : Instr} {s t : State} (h : CommandEnd i s t) {bs : List Byte}
    (ht : t.txText = s.txText ++ chComma :: bs) : s.txText.length + 1 + bs.length ≤ s.config.textCap := by
  have hne : s.txText ≠ s.txText ++ chComma :: bs := by simp
  have hnil : [] ≠ s.txText ++ chComma :: bs := by simp
  cases h with
  | append r _ hl =>
    obtain rfl : r = bs := List.cons_inj_right _ |>.mp (List.append_cancel_left ht)
    exact hl
  | full => exact absurd ht hnil
  | sentQuiet body t he =>
    obtain rfl | rfl := he
    · exact absurd ht hne
    · exact absurd ht hnil
  | fault | fail | value | copied | assignRx | assignTx | sentOk => exact absurd ht hne

/-- Settles O17: the digits by `dec_length_le`, the text of ADD_STRING by the ends of a command. -/
theorem renderingWidths : Obligations.RenderingWidths := by
  refine ⟨fun v => ?_, fun v => ?_, fun v => ?_, fun v => ?_, fun v => ?_, fun v => ?_, fmtF_length_le,
    fun id value => ?_, fun s t text bs h ht => ?_⟩
  · exact dec_length_le (by decide) (v.isLt.trans (by decide))
  · exact dec_length_le (by decide) (v.isLt.trans (by decide))
  · exact dec_length_le (by decide) (v.isLt.trans (by decide))
  · exact sdec_length_le (by decide) (by have := two_mul_natAbs_toInt_le v; omega)
  · exact sdec_length_le (by decide) (by have := two_mul_natAbs_toInt_le v; omega)
  · exact sdec_length_le (by decide) (by have := two_mul_natAbs_toInt_le v; omega)
  · simp [ackBody]
  · obtain ⟨t', ht', hend⟩ := addString_ends text s
    rw [ht'] at h
    cases h
    have hle := hend.appended_le (bs := bs) (by simpa [chComma] using ht)
    exact ⟨by omega, by omega⟩

/-! ## The integer a float is rendered from -/

theorem fmtF_of_finite (ties : Ties) {x : U32} (h : FloatFinite x) :
    fmtF ties x = (if x.msb then [chMinus] else []) ++ dec (floatMicros ties x / 10 ^ 6) ++ [chDot] ++
      pad6 (floatMicros ties x % 10 ^ 6) := by
  rw [fmtF, if_neg h, ← List.append_assoc, ← List.append_assoc]
  rfl

theorem fmtF_of_nan (ties : Ties) {x : U32} (h : floatExp x = 255) (hf : floatFrac x ≠ 0) :
    fmtF ties x = (if x.msb then [chMinus] else []) ++ chNan := by
  rw [fmtF, if_pos h, if_neg hf]
  rfl

theorem fmtF_of_inf (ties : Ties) {x : U32} (h : floatExp x = 255) (hf : floatFrac x = 0) :
    fmtF ties x = (if x.msb then [chMinus] else []) ++ chInf := by
  rw [fmtF, if_pos h, if_pos hf]
  rfl

/-- `floatMicros` divides two integers whose quotient is the magnitude times 10^6. -/
theorem abs_floatValue_micros (x : U32) : |floatValue x| * 10 ^ 6 =
    ((floatMant x * 10 ^ 6 * 2 ^ (floatScale x - 150) : Nat) : ℚ) / (2 ^ (150 - floatScale x) : Nat) := by
  rw [← abs_floatValue_eq_div]
  norm_num

theorem floatMicros_nearest (ties : Ties) (x : U32) :
    |(floatMicros ties x : ℚ) - |floatValue x| * 10 ^ 6| ≤ 1 / 2 := by
  rw [abs_floatValue_micros]
  exact roundQuot_nearest ties _ (by positivity)

theorem floatMicros_tie {ties : Ties} {x : U32} (h : |(floatMicros ties x : ℚ) - |floatValue x| * 10 ^ 6| = 1 / 2) :
    (ties = .even → floatMicros ties x % 2 = 0) ∧
      (ties = .away → |floatValue x| * 10 ^ 6 < floatMicros ties x) := by
  rw [abs_floatValue_micros] at h ⊢
  exact roundQuot_nearest_tie (by positivity) h

theorem digits_pad6 {n : Nat} (h : n < 10 ^ 6) : Digits (pad6 n) := by
  refine ⟨fun hnil => ?_, fun b hb => (isDigit_iff b).mp (isDigit_of_mem_pad6 n b hb)⟩
  have hlen := pad6_length h
  simp [hnil] at hlen

/-- Settles O18: the integer is `floatMicros`, the rounded quotient. -/
theorem floatRenderingIsNearest : Obligations.FloatRenderingIsNearest := by
  intro ties x
  refine ⟨fun hx => ⟨floatMicros ties x, fmtF_of_finite ties hx, floatMicros_nearest ties x, fun htie => ?_⟩,
    fmtF_of_nan ties, fmtF_of_inf ties, fun n hn => ⟨pad6_length hn, digits_pad6 hn, decVal_pad6 n⟩⟩
  obtain ⟨heven, haway⟩ := floatMicros_tie htie
  cases ties with
  | even => exact heven rfl
  | away => exact haway rfl

end Sys2Proof.Machine
end

section
/-! SUPPORT. Proofs about 41_checksum.md: the closed form of the checksum (R173), which changes of a body it detects (R178),
and that no command's outcome depends on what the accumulators held before it (R176). -/

namespace Sys2Proof.Machine

/-! ## The two sums of a byte sequence -/

/-- The sum of the bytes, without the reduction mod 256. -/
def byteSum (bs : List Byte) : Nat := (bs.map BitVec.toNat).sum

/-- The sum in which the byte at position `i` of `n` counts `n - i` times, without the reduction mod 256. -/
def weightedSum (bs : List Byte) : Nat := (bs.mapIdx fun i b => (bs.length - i) * b.toNat).sum

@[simp] theorem byteSum_nil : byteSum [] = 0 := rfl

@[simp] theorem byteSum_cons (b : Byte) (bs : List Byte) : byteSum (b :: bs) = b.toNat + byteSum bs := by
  simp [byteSum]

@[simp] theorem byteSum_append (bs cs : List Byte) : byteSum (bs ++ cs) = byteSum bs + byteSum cs := by
  simp [byteSum]

@[simp] theorem weightedSum_nil : weightedSum [] = 0 := rfl

@[simp] theorem weightedSum_cons (b : Byte) (bs : List Byte) :
    weightedSum (b :: bs) = (bs.length + 1) * b.toNat + weightedSum bs := by
  simp [weightedSum, List.mapIdx_cons]

/-- Every byte of the first part counts once more for each byte that follows. -/
@[simp] theorem weightedSum_append (bs cs : List Byte) :
    weightedSum (bs ++ cs) = weightedSum bs + cs.length * byteSum bs + weightedSum cs := by
  induction bs with
  | nil => simp
  | cons b bs ih =>
    simp only [List.cons_append, weightedSum_cons, byteSum_cons, List.length_append, ih]
    ring

/-! ## The closed form (R173) -/

theorem natCast_toNat_byte (b : Byte) : (b.toNat : Byte) = b := by
  rw [BitVec.natCast_eq_ofNat, BitVec.ofNat_toNat, BitVec.setWidth_eq]

/-- The accumulators after a sequence: the first gains the sum of the bytes; the second gains the weighted sum, and the
first as it was once for each byte. -/
theorem csFold_closed (p : Byte × Byte) (bs : List Byte) :
    csFold p bs = (p.1 + (byteSum bs : Byte), p.2 + (bs.length : Byte) * p.1 + (weightedSum bs : Byte)) := by
  induction bs generalizing p with
  | nil => simp
  | cons b bs ih =>
    rw [csFold_cons, ih, csStep]
    simp only [byteSum_cons, weightedSum_cons, List.length_cons, Nat.cast_add, Nat.cast_mul, Nat.cast_one,
      natCast_toNat_byte]
    ext1 <;> ring

theorem checksumOf_closed (bs : List Byte) :
    checksumOf bs = (byteSum bs : Byte) ++ (weightedSum bs : Byte) := by
  rw [checksumOf_eq, csFold_closed]
  simp

theorem toNat_append_bytes (a b : Byte) : (a ++ b : U16).toNat = a.toNat * 256 + b.toNat := by
  have h : (a ++ b : BitVec (8 + 8)).toNat = a.toNat * 256 + b.toNat := by
    rw [BitVec.toNat_append, ← Nat.shiftLeft_add_eq_or_of_lt b.isLt, Nat.shiftLeft_eq]
  exact h

/-- `CsReset` forgets the accumulators, so that `CsCombined` after the updates is the checksum of the sequence. -/
theorem csCombined_csUpdateSeq_csReset (bs : List Byte) (s : State) :
    csCombined (csUpdateSeq bs (csReset s)) = checksumOf bs := by
  rw [csUpdateSeq_eq, checksumOf_eq]
  rfl

/-- Settles O14: the two accumulators are the two sums mod 256. -/
theorem checksumClosedForm : Obligations.ChecksumClosedForm := by
  intro bs s
  refine ⟨csCombined_csUpdateSeq_csReset bs s, ?_⟩
  rw [checksumOf_closed, toNat_append_bytes]
  rfl

/-! ## What the checksum detects (R178) -/

/-- Two sequences have one checksum exactly where both sums agree mod 256. -/
theorem checksumOf_eq_iff (bs cs : List Byte) :
    checksumOf bs = checksumOf cs ↔
      (byteSum bs : Byte) = (byteSum cs : Byte) ∧ (weightedSum bs : Byte) = (weightedSum cs : Byte) := by
  rw [checksumOf_closed, checksumOf_closed]
  refine ⟨append_bytes_inj, ?_⟩
  rintro ⟨hsum, hweighted⟩
  rw [hsum, hweighted]

/-- A number is zero as a byte exactly where 256 divides it. -/
theorem natCast_byte_eq_zero_iff (n : Nat) : (n : Byte) = 0 ↔ n % 256 = 0 :=
  BitVec.toNat_inj.symm

/-- One byte changed: the sum of the bytes alone tells. -/
theorem checksumOf_change_one (before after : List Byte) {x y : Byte} (hxy : x ≠ y) :
    checksumOf (before ++ [x] ++ after) ≠ checksumOf (before ++ [y] ++ after) := by
  intro h
  obtain ⟨hsum, -⟩ := (checksumOf_eq_iff _ _).mp h
  exact hxy (by simpa [natCast_toNat_byte] using hsum)

/-- One byte raised by 1 and a later one lowered by 1: the sum of the bytes is the same, and the weighted sum gains the
distance of the two. -/
theorem checksumOf_raise_lower (before between after : List Byte) (x y : Byte) :
    checksumOf (before ++ [x + 1] ++ between ++ [y - 1] ++ after) =
        checksumOf (before ++ [x] ++ between ++ [y] ++ after) ↔
      (between.length + 1) % 256 = 0 := by
  rw [checksumOf_eq_iff, ← natCast_byte_eq_zero_iff]
  simp only [byteSum_append, byteSum_cons, byteSum_nil, weightedSum_append, weightedSum_cons, weightedSum_nil,
    List.length_cons, List.length_nil, Nat.cast_add, Nat.cast_mul, Nat.cast_one, Nat.cast_zero, natCast_toNat_byte]
  refine ⟨fun ⟨_, hweighted⟩ => ?_, fun hdistance => ⟨by ring, ?_⟩⟩
  · linear_combination hweighted
  · linear_combination hdistance

/-- Settles O15: both sums compared, for one changed byte and for two that balance. -/
theorem checksumDetection : Obligations.ChecksumDetection :=
  fun before after x y =>
    ⟨checksumOf_change_one before after, fun between => checksumOf_raise_lower before between after x y⟩

/-! ## What no command reads (R176) -/

/-- The state with other accumulators. -/
def withCs (a b : Byte) (s : State) : State := { s with csA := a, csB := b }

@[simp] theorem withCs_config (a b : Byte) (s : State) : (withCs a b s).config = s.config := rfl
@[simp] theorem withCs_binTxDesc (a b : Byte) (s : State) : (withCs a b s).binTxDesc = s.binTxDesc := rfl
@[simp] theorem withCs_txText (a b : Byte) (s : State) : (withCs a b s).txText = s.txText := rfl

/-- Where the first outcome is a next state, the second is the same but for the accumulators. -/
def AgreeButCs (o o' : Host.Outcome State Fault Refusal) : Prop :=
  ∀ t, o = .next t → ∃ a b, o' = .next (withCs a b t)

theorem AgreeButCs.next (a b : Byte) (t : State) : AgreeButCs (.next t) (.next (withCs a b t)) := by
  rintro _ ⟨⟩
  exact ⟨a, b, rfl⟩

theorem AgreeButCs.refl (o : Host.Outcome State Fault Refusal) : AgreeButCs o o :=
  fun t ht => ⟨t.csA, t.csB, ht⟩

theorem AgreeButCs.ite {c : Prop} [Decidable c] {x x' y y' : Host.Outcome State Fault Refusal}
    (hx : AgreeButCs x x') (hy : AgreeButCs y y') : AgreeButCs (if c then x else y) (if c then x' else y') := by
  split
  · exact hx
  · exact hy

/-! ### The parts of a command that leave the accumulators alone -/

theorem appendParam_withCs (a b : Byte) (r : List Byte) (s : State) :
    appendParam r (withCs a b s) = withCs a b (appendParam r s) := by
  by_cases hfits : s.txText.length + 1 + r.length ≤ s.config.textCap
  · rw [appendParam_fits hfits, appendParam_fits (s := withCs a b s) hfits]
    rfl
  · have hfull := Nat.lt_of_not_le hfits
    rw [appendParam_full hfull, appendParam_full (s := withCs a b s) hfull]
    rfl

theorem getField_withCs (a b : Byte) (w : Option Nat) (s : State) : getField w (withCs a b s) = getField w s := rfl

theorem getValue_withCs (a b : Byte) (width : Nat) (parse : List Byte → Except FailCode U32) (s : State) :
    getValue width parse (withCs a b s) = withCs a b (getValue width parse s) := by
  unfold getValue
  rw [getField_withCs]
  split
  · rfl
  · split <;> rfl

theorem memRead_withCs (a b : Byte) (s : State) (addr : Nat) : memRead (withCs a b s) addr = memRead s addr := rfl

theorem memReadSeq_withCs (a b : Byte) (s : State) (addr n : Nat) :
    memReadSeq (withCs a b s) addr n = memReadSeq s addr n := by
  rw [memReadSeq_eq, memReadSeq_eq]
  rfl

theorem memWriteSeq_withCs (a b : Byte) (addr : Nat) (bs : List Byte) (s : State) :
    memWriteSeq addr bs (withCs a b s) = (memWriteSeq addr bs s).map (withCs a b) := by
  rw [memWriteSeq_eq, memWriteSeq_eq, withCs_config]
  split <;> rfl

theorem readText_withCs (a b : Byte) (s : State) (room addr : Nat) :
    readText (withCs a b s) room addr = readText s room addr := by
  induction room generalizing addr with
  | zero => simp only [readText, memRead_withCs]
  | succ room ih => simp only [readText, memRead_withCs, ih]

/-! ### The commands, each from two states that differ in the accumulators -/

section
variable (a b : Byte) (s : State)

theorem agree_appendParam (r : List Byte) :
    AgreeButCs (.next (appendParam r s)) (.next (appendParam r (withCs a b s))) := by
  rw [appendParam_withCs]
  exact .next a b _

theorem agree_getValue (width : Nat) (parse : List Byte → Except FailCode U32) :
    AgreeButCs (.next (getValue width parse s)) (.next (getValue width parse (withCs a b s))) := by
  rw [getValue_withCs]
  exact .next a b _

theorem agree_addString (text : Nat) :
    AgreeButCs (exec (.addString text) s) (exec (.addString text) (withCs a b s)) := by
  simp only [exec, execAddString, withCs_config, withCs_txText, readText_withCs]
  refine .ite (agree_appendParam a b s []) ?_
  split
  · exact .next a b _
  · exact .next a b _
  · exact agree_appendParam a b s _

theorem agree_getString (dest : Nat) (len : U16) :
    AgreeButCs (exec (.getString dest len) s) (exec (.getString dest len) (withCs a b s)) := by
  simp only [exec, execGetString, getField_withCs, memWriteSeq_withCs]
  refine .ite (.next a b _) ?_
  split
  · exact .next a b _
  · rename_i f q hfield
    cases memWriteSeq dest (stringBytes f len) s with
    | error r => exact .next a b _
    | ok t => exact .next a b _

/-- A frame begins with `CsReset`: what is sent, and what is left in the accumulators, is the same. -/
theorem txLengthPrefixed_withCs (d id : Byte) (payload : List Byte) :
    txLengthPrefixed d id payload (withCs a b s) = txLengthPrefixed d id payload s := rfl

theorem agree_transmitBinary (id : Byte) :
    AgreeButCs (exec (.transmitBinary id) s) (exec (.transmitBinary id) (withCs a b s)) := by
  simp only [exec, execTransmitBinary, withCs_binTxDesc, memReadSeq_withCs, txLengthPrefixed_withCs]
  refine .ite (.next a b _) ?_
  split
  · exact .next a b _
  · exact .refl _

theorem agree_transmitStringText (id : Byte) (text : Nat) :
    AgreeButCs (exec (.transmitStringText id text) s) (exec (.transmitStringText id text) (withCs a b s)) := by
  simp only [exec, execTransmitStringText, withCs_config, readText_withCs]
  split
  · exact .next a b _
  · exact .next a b _
  · exact .refl _

theorem agree_receive : AgreeButCs (exec .receive s) (exec .receive (withCs a b s)) := by
  obtain ⟨hq, e⟩ | ⟨hq, e⟩ := execReceive_cases s <;>
    obtain ⟨hq', e'⟩ | ⟨hq', e'⟩ := execReceive_cases (withCs a b s)
  · rw [e, e']
    exact .next a b _
  · exact absurd hq hq'
  · exact absurd hq' hq
  · rw [e, e']
    exact .refl _

/-- No command's outcome depends on the accumulators. -/
theorem exec_agreeButCs {i : Instr} (hi : isSingleStep i = true ∨ i = .receive) :
    AgreeButCs (exec i s) (exec i (withCs a b s)) := by
  cases i with
  | frameAscii | frameAck | frameBinary | frameString => simp [isSingleStep] at hi
  | receive => exact agree_receive a b s
  | transmitAscii | transmitAck | transmitString => exact .refl _
  | transmitBinary id => exact agree_transmitBinary a b s id
  | transmitStringText id text => exact agree_transmitStringText a b s id text
  | assignBinaryRxBuffer | assignBinaryTxBuffer => exact .next a b _
  | addUint8 | addUint16 | addUint32 | addInt8 | addInt16 | addInt32 | addFloat => exact agree_appendParam a b s _
  | addString text => exact agree_addString a b s text
  | getUint8 | getUint16 | getUint32 | getInt8 | getInt16 | getInt32 | getFloat => exact agree_getValue a b s _ _
  | getString dest len => exact agree_getString a b s dest len

end

/-- Settles O54: every command by itself, over the accumulators it starts from. -/
theorem checksumRegistersNotRead : Obligations.ChecksumRegistersNotRead := by
  intro i s t a b hi ht
  obtain ⟨a', b', ht'⟩ := exec_agreeButCs a b s hi t ht
  exact ⟨withCs a' b' t, ht', rfl⟩

end Sys2Proof.Machine
end

section
/-! SUPPORT. Proofs about the scan of 42_frame_reader.md R180 to R185: RECEIVE's first step, the entries of the
sub-parsers, and what the scan does with a byte. -/

namespace Sys2Proof.Machine

/-! ## RECEIVE's first step and the sub-parsers' entries -/

/-- Settles O19: the law `execReceive_cases` has one case for an empty queue and one for a byte queued. -/
theorem receiveFirstStep : Obligations.ReceiveFirstStep := by
  intro s v
  obtain ⟨hq, e⟩ | ⟨hq, e⟩ := execReceive_cases s
  · exact ⟨rfl, fun _ => e, fun hne => absurd hq hne⟩
  · exact ⟨rfl, fun h => absurd h hq, fun _ => e⟩

/-- Settles O20: each row is `awaitAt` its id field, FRAME_BINARY after `extendDeadline`. -/
theorem frameEntries : Obligations.FrameEntries := fun _ => ⟨rfl, rfl, rfl, rfl⟩

/-! ## The scan -/

/-- A scanning RECEIVE takes and checksums the next byte. -/
theorem step_scan {s u : State} {b : Byte} {rest : List Byte} (he : EngineNext s u) (hk : u.phase = .busy .scan)
    (hx : expired u = false) (hf : u.rxFifo = b :: rest) :
    step s = scanByte b (csUpdate b { u with rxFifo := rest }) :=
  (step_busy he hk).trans (scanStep_byte hx hf)

/-- Settles O7: the scan takes the byte, and what follows is the case of `scanByte_cases` for it. -/
theorem scanDispatchesEveryByte : Obligations.ScanDispatchesEveryByte := by
  intro s u b rest he hk hx hf v
  rw [step_scan he hk hx hf]
  refine ⟨?_, ?_, ?_, ?_, fun hhash hquestion hbang hquote => ?_⟩
  · rintro rfl; rfl
  · rintro rfl; rfl
  · rintro rfl; rfl
  · rintro rfl; rfl
  · obtain ⟨h, -⟩ | ⟨h, -⟩ | ⟨h, -⟩ | ⟨h, -⟩ | ⟨-, -, -, -, e⟩ :=
      scanByte_cases b (csUpdate b { u with rxFifo := rest })
    · exact absurd h hhash
    · exact absurd h hquestion
    · exact absurd h hbang
    · exact absurd h hquote
    · exact e

/-- Settles O32, by induction on the noise: `step_noise` takes its first byte and leaves a scanning RECEIVE. -/
theorem scanSkipsNoise : Obligations.ScanSkipsNoise := by
  intro s noise rest hp hs hx hne hnoise hf
  induction noise generalizing s with
  | nil => exact absurd rfl hne
  | cons b noise ih =>
    have hfirst := step_noise hs hp hx hf (hnoise b (by simp))
    by_cases hlast : noise = []
    · subst hlast
      exact runs_one hfirst
    · exact ⟨_, hfirst, ih { s with rxFifo := noise ++ rest, csA := 0#8, csB := 0#8 } hp hs hx hlast
        (fun c hc => hnoise c (by simp [hc])) rfl⟩

end Sys2Proof.Machine
end

section
/-! SUPPORT. Proofs about the failures of a frame, 42_frame_reader.md R186 to R199: how a poll that takes a byte ends
RECEIVE with a failure, in a field, at the capacity check, and in a payload. -/

namespace Sys2Proof.Machine

/-! ## A byte taken -/

/-- `s` after the byte `b` has been taken before `rest`, checksummed where it is part of the body. -/
def byteTaken (cs : Bool) (b : Byte) (rest : List Byte) (s : State) : State :=
  if cs then csUpdate b { s with rxFifo := rest } else { s with rxFifo := rest }

@[simp] theorem byteTaken_rxFifo (cs : Bool) (b : Byte) (rest : List Byte) (s : State) :
    (byteTaken cs b rest s).rxFifo = rest := by cases cs <;> rfl

@[simp] theorem byteTaken_hostMem (cs : Bool) (b : Byte) (rest : List Byte) (s : State) :
    (byteTaken cs b rest s).hostMem = s.hostMem := by cases cs <;> rfl

@[simp] theorem byteTaken_config (cs : Bool) (b : Byte) (rest : List Byte) (s : State) :
    (byteTaken cs b rest s).config = s.config := by cases cs <;> rfl

@[simp] theorem byteTaken_binRxDesc (cs : Bool) (b : Byte) (rest : List Byte) (s : State) :
    (byteTaken cs b rest s).binRxDesc = s.binRxDesc := by cases cs <;> rfl

/-- A poll of `WaitByte` that takes a byte goes on with what follows it. -/
theorem settle_waitByte {cs : Bool} {f : Byte → State → Except Fault State} {s : State} {b : Byte} {rest : List Byte}
    (hx : expired s = false) (hf : s.rxFifo = b :: rest) :
    settle s (waitByte cs f s) = settle s (f b (byteTaken cs b rest s)) := by
  rw [waitByte_byte hx hf, byteTaken]

/-- Where a poll fails, RECEIVE ends None with default records (60_exceptions.md R342). -/
theorem step_fails {s u v : State} {k : ReceiveAt} {code : FailCode} (he : EngineNext s u) (hk : u.phase = .busy k)
    (h : receiveStep k u = .next (failReceive code v)) :
    ∃ t, step s = .next t ∧ t.phase = .idle ∧ t.resKind = .none ∧ t.lastFail = code ∧ RecordsDefault t ∧
      t.rxFifo = v.rxFifo ∧ t.hostMem = v.hostMem :=
  ⟨_, (step_busy he hk).trans h, rfl, rfl, rfl, ⟨rfl, rfl, rfl, rfl, rfl⟩, rfl, rfl⟩

/-- As `step_fails`, where the failure comes right after a byte has been taken. -/
theorem step_fails_taken {s u : State} {k : ReceiveAt} {code : FailCode} {cs : Bool} {b : Byte} {rest : List Byte}
    (he : EngineNext s u) (hk : u.phase = .busy k)
    (h : receiveStep k u = .next (failReceive code (byteTaken cs b rest u))) :
    ∃ t, step s = .next t ∧ t.phase = .idle ∧ t.resKind = .none ∧ t.lastFail = code ∧ RecordsDefault t ∧
      t.rxFifo = rest ∧ t.hostMem = u.hostMem := by
  simpa using step_fails he hk h

/-! ## Numeric fields -/

/-- The byte after a field is taken: only a terminator of the field's goes on. -/
theorem receiveStep_fieldEnd {u : State} {use : FieldUse} {acc : List Byte} {b : Byte} {rest : List Byte}
    (hx : expired u = false) (hf : u.rxFifo = b :: rest) :
    receiveStep (.fieldEnd use acc) u = .next (if fieldTerminator use b
      then fieldDone use acc b (byteTaken (fieldChecksummed use) b rest u)
      else failReceive .malformed (byteTaken (fieldChecksummed use) b rest u)) :=
  settle_waitByte hx hf

/-- Every field must be a number (R187, R188). -/
theorem fieldDone_malformed (use : FieldUse) {acc : List Byte} (t : Byte) (s : State) (h : ¬ Digits acc) :
    fieldDone use acc t s = failReceive .malformed s := by
  cases use with
  | asciiId | ackId | binId | strId => rw [fieldDone, withId, decField_malformed h]
  | binLen | strLen => rw [fieldDone, withLength, decField_malformed h]
  | trailer =>
    have hnumber : isNumber acc = false := by rwa [← Bool.not_eq_true, isNumber_iff_digits]
    simp [fieldDone, hnumber]

theorem fieldDone_idRange {use : FieldUse} {acc : List Byte} (t : Byte) (s : State)
    (huse : use = .asciiId ∨ use = .ackId ∨ use = .binId ∨ use = .strId) (h : Digits acc) (hr : 255 < decVal acc) :
    fieldDone use acc t s = failReceive .range s := by
  obtain rfl | rfl | rfl | rfl := huse <;> rw [fieldDone, withId, decField_range h hr]

theorem fieldDone_lengthRange {use : FieldUse} {acc : List Byte} (t : Byte) (s : State)
    (huse : ∃ id, use = .binLen id ∨ use = .strLen id) (h : Digits acc) (hr : 65535 < decVal acc) :
    fieldDone use acc t s = failReceive .range s := by
  obtain ⟨id, rfl | rfl⟩ := huse <;> rw [fieldDone, withLength, decField_range h hr]

/-- Settles O25: a byte that is no terminator fails by `receiveStep_fieldEnd`; after a terminator the field fails as
`fieldDone` does. -/
theorem numericFieldFailures : Obligations.NumericFieldFailures := by
  intro s u use acc b rest he hk hx hf fails isId isLength ends
  have hends : ends ↔ fieldTerminator use b = true := by
    cases use <;> simp [ends, fieldTerminator, chComma, chSemi]
  have hpoll := receiveStep_fieldEnd (use := use) (acc := acc) hx hf
  have hdone : ∀ code, ends → (∀ v, fieldDone use acc b v = failReceive code v) → fails code := by
    intro code h hcode
    rw [if_pos (hends.mp h), hcode] at hpoll
    exact step_fails_taken he hk hpoll
  refine ⟨fun h => ?_, fun h hd => hdone _ h (fieldDone_malformed use b · hd),
    fun h hd hi hr => hdone _ h (fieldDone_idRange b · hi hd hr),
    fun h hd hl hr => hdone _ h (fieldDone_lengthRange b · hl hd hr)⟩
  rw [if_neg (mt hends.mpr h)] at hpoll
  exact step_fails_taken he hk hpoll

/-! ## The capacity check -/

/-- A binary length that does not fit drains the queue (R191). -/
theorem startBinary_rejects {s : State} (id : Byte) {length : U16}
    (h : s.binRxDesc.assigned = false ∨ s.binRxDesc.cap.toNat < length.toNat) :
    startBinary id length s = failReceive .capacity (rxDiscard s) := by
  rw [startBinary, if_pos (by simpa using h)]

/-- Settles O26: the `;` ends the length field, and `startBinary` rejects the length. -/
theorem capacityRejectionDrains : Obligations.CapacityRejectionDrains := by
  intro s u id acc rest he hk hx hf hd hv hcap
  have hlength : (BitVec.ofNat 16 (decVal acc)).toNat = decVal acc := Nat.mod_eq_of_lt (by omega)
  have hpoll : receiveStep (.fieldEnd (.binLen id) acc) u =
      .next (failReceive .capacity (rxDiscard (byteTaken true chSemi rest u))) := by
    rw [receiveStep_fieldEnd hx hf, if_pos (by rfl), fieldDone, withLength_digits hd hv,
      startBinary_rejects id (by simpa [hlength] using hcap)]
    rfl
  obtain ⟨t, hstep, hphase, hkind, hfail, hrecords, hqueue, hmem⟩ := step_fails he hk hpoll
  exact ⟨t, hstep, by simpa using hqueue, hphase, hkind, hfail, hrecords, by simpa using hmem⟩

/-! ## Payloads -/

/-- Where a payload must end, any other byte than `;` fails (R189). -/
theorem payloadEnd_malformed {u : State} {m : Parsed} {b : Byte} {rest : List Byte} (hx : expired u = false)
    (hf : u.rxFifo = b :: rest) (hb : b ≠ chSemi) :
    settle u (waitByte true (afterPayloadEnd m) u) = .next (failReceive .malformed (byteTaken true b rest u)) := by
  rw [settle_waitByte hx hf, afterPayloadEnd, if_neg hb, settle_ok]

/-- A full text takes no more bytes (R195). -/
theorem asciiByte_overflow {u : State} {id : Byte} {np : Nat} {text : List Byte} {b : Byte} {rest : List Byte}
    (hx : expired u = false) (hf : u.rxFifo = b :: rest) (hfull : text.length = u.config.textCap) (hb : b ≠ chSemi) :
    receiveStep (.asciiByte id np text) u = .next (failReceive .overflow (byteTaken true b rest u)) := by
  rw [receiveStep, settle_waitByte hx hf, afterAsciiByte, if_neg hb, if_pos (by simpa using hfull), settle_ok]

/-- An ACK value is `0` or `1` (R197). -/
theorem ackValue_malformed {u : State} {id : Byte} {b : Byte} {rest : List Byte} (hx : expired u = false)
    (hf : u.rxFifo = b :: rest) (hzero : b ≠ chZero) (hone : b ≠ chOne) :
    receiveStep (.ackValue id) u = .next (failReceive .malformed (byteTaken true b rest u)) := by
  rw [receiveStep, settle_waitByte hx hf, afterAckValue, if_neg hzero, if_neg hone, settle_ok]

/-- Settles O27: each payload loop fails by its lemma, the three payload ends by `payloadEnd_malformed`. -/
theorem payloadFailures : Obligations.PayloadFailures := by
  intro s u k b rest he hk hx hf fails
  refine ⟨?_, ?_, ?_, ?_, ?_⟩
  · rintro id np text rfl hfull hb
    exact step_fails_taken he hk (asciiByte_overflow hx hf hfull hb)
  · rintro id rfl hzero hone
    exact step_fails_taken he hk (ackValue_malformed hx hf hzero hone)
  · rintro id value rfl hb
    exact step_fails_taken he hk (payloadEnd_malformed hx hf hb)
  · rintro id length rfl hb
    exact step_fails_taken he hk (payloadEnd_malformed hx hf hb)
  · rintro id length data rfl hb
    exact step_fails_taken he hk (payloadEnd_malformed hx hf hb)

/-- Settles O28: the byte is written at its place (`Memory.get_set`), or the write faults and the step is discarded. -/
theorem binaryPayloadStored : Obligations.BinaryPayloadStored := by
  intro s u id length i b rest he hk hx hf
  have hpoll : step s = settle u (afterBinByte id length i b (byteTaken true b rest u)) :=
    (step_busy he hk).trans (settle_waitByte hx hf)
  rw [hpoll, afterBinByte]
  refine ⟨fun hm => ⟨u.hostMem.set (u.binRxDesc.base + i) b, ?_, fun hwf a => ?_⟩, fun hm => ?_⟩
  · rw [memWrite_of_lt b (by simpa using hm)]
    rfl
  · simp only [Memory.get_set _ _ _ _ hwf, eq_comm]
  · rw [memWrite_of_ge b (by simpa using hm)]
    rfl

end Sys2Proof.Machine
end

section
/-! SUPPORT. Proofs about what RECEIVE leaves unchanged (42_frame_reader.md R180 to R183, R190), and that every move
keeps the received records in step with `RES_KIND` (R183, R201). -/

namespace Sys2Proof.Machine

/-! ## The frame of a poll -/

/-- The scan writes the deadline only for `!` (R190). -/
theorem scanStep_deadline {s t : State} (h : scanStep s = .next t) :
    t.deadline = s.deadline ∨ (s.rxFifo.head? = some chBang ∧
      t.deadline = s.deadline + BitVec.ofNat 32 s.config.binaryExtMs) := by
  cases hx : expired s with
  | true =>
    rw [scanStep_expired hx] at h
    cases h
    exact .inl rfl
  | false =>
    cases hf : s.rxFifo with
    | nil =>
      rw [scanStep_empty hx hf] at h
      cases h
      exact .inl rfl
    | cons b rest =>
      rw [scanStep_byte hx hf] at h
      obtain ⟨-, e⟩ | ⟨-, e⟩ | ⟨rfl, e⟩ | ⟨-, e⟩ | ⟨-, -, -, -, e⟩ :=
        scanByte_cases b (csUpdate b { s with rxFifo := rest }) <;> rw [e] at h <;> cases h
      · exact .inl rfl
      · exact .inl rfl
      · exact .inr ⟨rfl, rfl⟩
      · exact .inl rfl
      · exact .inl rfl

/-- A property of the next state that an outcome has is one of the next state it is known to be. -/
theorem holds_of_next {o : Host.Outcome State Fault Refusal} {t : State} {P : State → Prop} (h : o = .next t)
    (hex : ∃ t', o = .next t' ∧ P t') : P t := by
  obtain ⟨t', ht, hP⟩ := hex
  rw [ht] at h
  cases h
  exact hP

/-- No other wait loop writes the deadline. -/
theorem receiveStep_deadline {k : ReceiveAt} {s t : State} (hk : k ≠ .scan) (h : receiveStep k s = .next t) :
    t.deadline = s.deadline := by
  refine holds_of_next (P := fun t => t.deadline = s.deadline) h
    (receiveStep_ind k s _ rfl rfl rfl (fun _ _ _ => rfl) fun b rest _ _ => ?_)
  refine ⟨fun _ _ => ⟨rfl, rfl⟩, rfl, fun _ => ⟨rfl, rfl⟩, fun hscan => absurd hscan hk, ?_, fun _ _ _ _ _ _ => rfl⟩
  intro e m acc c _
  cases m <;> rfl

/-- Settles O30: the fields a poll leaves are in `PollEffect`, and so is its one write of memory. -/
theorem receiveFrame : Obligations.ReceiveFrame := by
  intro s u t k he hk h
  rw [step_busy he hk] at h
  have heffect := receiveStep_effect h
  refine ⟨heffect.frame, ?_, fun hnot => ?_⟩
  · by_cases hscan : k = .scan
    · subst hscan
      exact (scanStep_deadline h).imp_right fun ⟨hbang, hd⟩ => ⟨rfl, hbang, hd⟩
    · exact .inl (receiveStep_deadline hscan h)
  · obtain hm | ⟨id, length, i, -, hbin, -⟩ := heffect.memory
    · exact hm
    · exact absurd hbin (hnot id length i)

/-! ## The records and `RES_KIND` -/

/-- Default records are in step with every kind, in every phase. -/
theorem kind_of_default {s : State} (h : RecordsDefault s) : KindInv s := by
  have ⟨hascii, hack, hbin, hstr, _⟩ := h
  exact ⟨absurd hascii, absurd hack, absurd hbin, absurd hstr, fun _ _ => h⟩

/-- The end of a message writes the record of its kind, over defaults. -/
theorem kind_finishParsed {s : State} (h : RecordsDefault s) (m : Parsed) (valid : Bool) :
    KindInv (finishParsed m valid s) := by
  obtain ⟨hascii, hack, hbin, hstr, -⟩ := h
  cases m with
  | ascii => exact ⟨fun _ => rfl, absurd hack, absurd hbin, absurd hstr, fun _ hk => by cases hk⟩
  | ack => exact ⟨absurd hascii, fun _ => rfl, absurd hbin, absurd hstr, fun _ hk => by cases hk⟩
  | binary => exact ⟨absurd hascii, absurd hack, fun _ => rfl, absurd hstr, fun _ hk => by cases hk⟩
  | string => exact ⟨absurd hascii, absurd hack, absurd hbin, fun _ => rfl, fun _ hk => by cases hk⟩

/-- From default records a poll writes one only where it ends a message. -/
theorem kind_receiveStep {k : ReceiveAt} {s t : State} (hs : RecordsDefault s) (h : receiveStep k s = .next t) :
    KindInv t := by
  have hfail : ∀ code u, KindInv (failReceive code u) := fun _ _ => kind_of_default ⟨rfl, rfl, rfl, rfl, rfl⟩
  refine holds_of_next h (receiveStep_ind k s KindInv (hfail _ s) (kind_of_default hs) (kind_of_default hs)
    (fun _ _ _ => kind_of_default hs) fun b rest _ _ => ?_)
  exact ⟨fun _ _ => ⟨hfail _ _, hfail _ _⟩, hfail _ _, fun _ => ⟨kind_of_default hs, kind_of_default hs⟩,
    fun _ => ⟨kind_of_default hs, kind_of_default hs⟩,
    fun _ m _ valid _ => kind_finishParsed (s := { s with rxFifo := rest }) hs m valid,
    fun _ _ _ _ _ _ => kind_of_default hs⟩

/-- A command of one step writes neither the records nor `RES_KIND`, and ends. -/
theorem CommandEnd.kind {i : Instr} {s t : State} (h : CommandEnd i s t) (hs : KindInv s) : KindInv t := by
  obtain ⟨hascii, hack, hbin, hstr, -⟩ := hs
  have hbusy : ∀ k, t.phase = .busy k → RecordsDefault t := fun k hk => absurd hk (h.not_busy k)
  cases h with
  | fault | fail | full | append | value | copied | assignRx | assignTx | sentQuiet | sentOk =>
    exact ⟨hascii, hack, hbin, hstr, hbusy⟩

theorem kind_serveHost {s t : State} (hs : KindInv s) (h : serveHost s = .next t) : KindInv t := by
  obtain rfl | ⟨rest, ⟨i, hend⟩ | rfl | rfl | ⟨bs, -, rfl⟩ | ⟨a, bs, -, rfl⟩⟩ := serveHost_ends h
  · exact hs
  · exact hend.kind hs
  · exact kind_of_default ⟨rfl, rfl, rfl, rfl, rfl⟩
  · exact kind_of_default ⟨rfl, rfl, rfl, rfl, rfl⟩
  · exact hs
  · exact hs

/-- Settles O57: the LINK's moves write neither record nor phase, reset gives the registers of a launch, and a poll
starts from default records, as `KindInv` says of a RECEIVE in progress. -/
theorem movesKeepKind : Obligations.MovesKeepKind := by
  intro s t hs h
  obtain ⟨b, rest, -, rfl⟩ | ⟨rest, rfl⟩ | ⟨rest, -, rfl⟩ | ⟨rest, k, hk, hpoll⟩ | ⟨rest, -, hserve⟩ := move_cases h
  · exact hs
  · exact hs
  · exact kind_launch s.config s.hostMem s.rxFifo s.now
  · obtain ⟨-, -, -, -, hbusy⟩ := hs
    exact kind_receiveStep (s := { s with schedule := rest }) (hbusy k hk) hpoll
  · exact kind_serveHost (s := { s with schedule := rest }) hs hserve

end Sys2Proof.Machine
end

section
/-! SUPPORT. Proofs about the Frame Writer: what each TRANSMIT command answers (43_frame_writer.md R244 to R248), and
that a transmitted ASCII message is received as it was sent (R249, 70_reset_and_hazards.md R395). -/

namespace Sys2Proof.Machine

/-! ## TRANSMIT_ASCII and TRANSMIT_ACK (R244, R245) -/

theorem exec_transmitAscii (id : Byte) (s : State) : exec (.transmitAscii id) s =
    .next (finishQuiet { sentFrame (asciiBody (dec id.toNat) s.txText) s with txText := [] }) := by
  simp only [exec, execTransmitAscii, txAscii_eq]

theorem exec_transmitAck (id : Byte) (value : Bool) (s : State) : exec (.transmitAck id value) s =
    .next (finishQuiet (sentFrame (ackBody (dec id.toNat) value) s)) := by
  simp only [exec, execTransmitAck, txAck_eq]

/-- Settles O38: the accumulators left are the two bytes of the checksum of the body sent. -/
theorem transmitAsciiSendsFrame : Obligations.TransmitAsciiSendsFrame :=
  fun s id => ⟨rfl, _, _, (checksumOf_eq _).symm, exec_transmitAscii id s⟩

/-- Settles O39: the accumulators left are the two bytes of the checksum of the body sent. -/
theorem transmitAckSendsFrame : Obligations.TransmitAckSendsFrame :=
  fun s id value => ⟨rfl, _, _, (checksumOf_eq _).symm, exec_transmitAck id value s⟩

/-! ## Bytes of host memory as a payload -/

/-- A list that agrees with host memory byte by byte is what a read of its length gives. -/
theorem eq_bytesAt {m : Memory} {a : Nat} {bs : List Byte}
    (h : ∀ i < bs.length, bs[i]? = some (m.get (a + i))) : bs = bytesAt m a bs.length := by
  refine List.ext_getElem? fun i => ?_
  by_cases hi : i < bs.length
  · rw [h i hi, bytesAt_getElem? m a _ i hi]
  · rw [List.getElem?_eq_none (by omega), List.getElem?_eq_none (by rw [bytesAt_length]; omega)]

/-! ## TRANSMIT_BINARY (R246) -/

/-- A descriptor whose buffer TRANSMIT_BINARY takes. -/
abbrev TxDesc.Ready (d : TxDesc) : Prop := d.assigned = true ∧ d.length ≠ 0#16 ∧ d.length.toNat ≤ d.cap.toNat

/-- The command's own test of the descriptor. -/
theorem TxDesc.ready_iff (d : TxDesc) :
    d.Ready ↔ ¬ (!d.assigned || d.length == 0#16 || d.cap.toNat < d.length.toNat) = true := by
  simp [and_assoc]

theorem exec_transmitBinary_of_not_ready {id : Byte} {s : State} (h : ¬ s.binTxDesc.Ready) :
    exec (.transmitBinary id) s = .next (finishFail .txNoBuffer s) :=
  if_pos (by rwa [TxDesc.ready_iff, not_not] at h)

theorem exec_transmitBinary_in_memory {id : Byte} {s : State} (h : s.binTxDesc.Ready)
    (hm : s.binTxDesc.base + s.binTxDesc.length.toNat ≤ s.config.hostMemSize) :
    exec (.transmitBinary id) s = .next (finishOk
      (txLengthPrefixed chBang id (bytesAt s.hostMem s.binTxDesc.base s.binTxDesc.length.toNat) s)) := by
  simp only [exec, execTransmitBinary]
  rw [if_neg (s.binTxDesc.ready_iff.mp h), memReadSeq_eq, if_pos (.inr hm)]

theorem exec_transmitBinary_beyond_memory {id : Byte} {s : State} (h : s.binTxDesc.Ready)
    (hm : s.config.hostMemSize < s.binTxDesc.base + s.binTxDesc.length.toNat) :
    exec (.transmitBinary id) s = .next (enterFault .memRange s) := by
  have hread : ¬ (s.binTxDesc.length.toNat = 0 ∨
      s.binTxDesc.base + s.binTxDesc.length.toNat ≤ s.config.hostMemSize) := by
    obtain ⟨-, hlength, -⟩ := h
    exact not_or.mpr ⟨fun h0 => hlength (BitVec.eq_of_toNat_eq h0), Nat.not_le.mpr hm⟩
  simp only [exec, execTransmitBinary]
  rw [if_neg (s.binTxDesc.ready_iff.mp h), memReadSeq_eq, if_neg hread]

/-- Settles O40: the test of the descriptor, then the reads, which all lie in memory or leave it. -/
theorem transmitBinarySendsBuffer : Obligations.TransmitBinarySendsBuffer := by
  intro s id payload d ready
  refine ⟨rfl, exec_transmitBinary_of_not_ready, fun h hm hlen hbytes => ?_, exec_transmitBinary_beyond_memory⟩
  have hpayload : payload = bytesAt s.hostMem d.base d.length.toNat := hlen ▸ eq_bytesAt hbytes
  refine ⟨_, _, (checksumOf_eq _).symm, ?_⟩
  rw [exec_transmitBinary_in_memory h hm, ← hpayload, txLengthPrefixed_eq]
  rfl

/-! ## TRANSMIT_STRING and TRANSMIT_STRING_TEXT (R247, R248) -/

theorem transmitTxStr_eq (id : Byte) (s : State) : transmitTxStr id s =
    finishOk (sentFrame (stringBody (dec id.toNat) (dec s.txStr.length) s.txStr) s) := by
  rw [transmitTxStr, txLengthPrefixed_eq]
  rfl

/-- Settles O41: the command is `transmitTxStr`. -/
theorem transmitStringSendsBuffer : Obligations.TransmitStringSendsBuffer :=
  fun s id => ⟨rfl, _, _, (checksumOf_eq _).symm, congrArg Host.Outcome.next (transmitTxStr_eq id s)⟩

/-- Settles O42, by what the read of the text answers: the text, one that is too long, or a fault. -/
theorem transmitStringTextSendsText : Obligations.TransmitStringTextSendsText := by
  intro s id text
  refine ⟨rfl, fun bs hl hm hbytes hnul hend => ?_, fun hm hne => ?_, fun n hn hm hne => ?_⟩
  · have hne : ∀ i < bs.length, s.hostMem.get (text + i) ≠ chNul := fun i hi h =>
      hnul (List.mem_of_getElem? ((hbytes i hi).trans (congrArg some h)))
    have hread := readText_of_text s s.config.strCap text bs.length hl hm hne hend
    rw [← eq_bytesAt hbytes] at hread
    refine ⟨_, _, (checksumOf_eq _).symm, ?_⟩
    simp only [exec, execTransmitStringText, hread, transmitTxStr_eq]
    rfl
  · simp only [FailsWith, exec, execTransmitStringText, readText_of_long s s.config.strCap text hm hne]
    rfl
  · simp only [exec, execTransmitStringText, readText_of_outside s s.config.strCap text n hn hm hne]
    rfl

/-! ## RECEIVE presented, from the command to the scan -/

/-- RECEIVE is presented on an Idle engine that has a byte queued, and no reset and fewer ticks than its timeout are
scheduled. -/
structure Presented (r : State) : Prop where
  idle : r.phase = .idle
  port : r.port = [.command ⟨0x01#8, []⟩]
  queued : r.rxFifo ≠ []
  noReset : .reset ∉ r.schedule
  ticks : r.schedule.count .tick < r.config.baseTimeoutMs
  timeout : r.config.baseTimeoutMs ≤ 2 ^ 31

/-- The scanning RECEIVE that the first step of the command leaves. -/
def startedScan (r : State) : State := awaitAt .scan (csReset (resetRxRecords (armDeadline { r with port := [] })))

theorem step_presented {s u : State} (he : EngineNext s u) (h : Presented u) : step s = .next (startedScan u) := by
  have hcommand : step s = exec .receive { u with port := [] } := by
    rw [step_idle he h.idle, serveHost, h.port]
    rfl
  obtain ⟨hq, -⟩ | ⟨-, e⟩ := execReceive_cases { u with port := [] }
  · exact absurd hq h.queued
  · exact hcommand.trans e

/-- The deadline armed lies a timeout ahead, beyond the ticks scheduled (R93, R182). -/
theorem inTime_startedScan {u : State} (h : Presented u) :
    InTime (startedScan u).deadline (startedScan u).now (startedScan u).schedule :=
  ⟨h.noReset, u.config.baseTimeoutMs, h.ticks, h.timeout, rfl⟩

/-- Whatever LINK does before the ENGINE's first turn, RECEIVE starts, with the same bytes queued or arriving. -/
theorem runs_to_scan {r : State} (h : Presented r) : ∃ n u, runs n r (startedScan u) ∧ Presented u ∧
    u.config = r.config ∧ u.rxFifo ++ arrivals u.schedule = r.rxFifo ++ arrivals r.schedule := by
  obtain ⟨turns, hturns⟩ : ∃ turns, r.schedule = turns := ⟨_, rfl⟩
  induction turns generalizing r with
  | nil =>
    have he := engineNext_self hturns (onlyWaits_of_presented h.idle (by simp [h.port]))
    exact ⟨1, r, runs_one (step_presented he h), h, rfl, rfl⟩
  | cons m turns ih =>
    have hreset : .reset ∉ turns := fun hm => h.noReset (by simp [hturns, hm])
    have hticks : turns.count .tick < r.config.baseTimeoutMs :=
      List.count_le_count_cons.trans_lt (hturns ▸ h.ticks)
    have hrest : Presented { r with schedule := turns } := ⟨h.idle, h.port, h.queued, hreset, hticks, h.timeout⟩
    cases m with
    | arrive b =>
      have hnext : Presented (linkArrive b { r with schedule := turns }) :=
        { hrest with queued := by simp [linkArrive] }
      obtain ⟨n, u, hruns, hu, hconfig, hbytes⟩ := ih hnext rfl
      exact ⟨n + 1, u, ⟨_, step_arrive hturns, hruns⟩, hu, hconfig, by simp [hbytes, hturns, linkArrive, arrivals]⟩
    | tick =>
      have hnext : Presented (linkTick { r with schedule := turns }) := { hrest with }
      obtain ⟨n, u, hruns, hu, hconfig, hbytes⟩ := ih hnext rfl
      exact ⟨n + 1, u, ⟨_, step_tick hturns, hruns⟩, hu, hconfig, by simp [hbytes, hturns, linkTick, arrivals]⟩
    | engine =>
      exact ⟨1, _, runs_one (step_presented (.inr ⟨turns, hturns, rfl⟩) hrest), hrest, rfl, by simp [hturns, arrivals]⟩
    | reset => exact absurd (by simp [hturns]) h.noReset

/-! ## The round trip (R249) -/

/-- An id, as TRANSMIT sends it, fits its field. -/
theorem dec_byte_length_le (id : Byte) : (dec id.toNat).length ≤ 3 :=
  dec_length_le (by decide) (id.isLt.trans (by decide))

/-- A checksum, as TRANSMIT sends it, fits the trailer. -/
theorem dec_checksum_length_le (c : U16) : (dec c.toNat).length ≤ 5 :=
  dec_length_le (by decide) (c.isLt.trans (by decide))

/-- Settles O37: RECEIVE comes to its scan (`runs_to_scan`), which receives the frame (`asciiFrameReceived`); the
decimal id and checksum that were sent read back as themselves. -/
theorem asciiRoundTrip : Obligations.AsciiRoundTrip := by
  intro s r id htext hled hsemi hcap hidle hport hqueued hreset htextCap hidDigits hcsDigits hticks htimeout
  refine ⟨_, _, exec_transmitAscii id s, rfl, fun hframe => ?_⟩
  obtain ⟨n, v, hruns, hv, hconfig, hbytes⟩ := runs_to_scan ⟨hidle, hport, hqueued, hreset, hticks, htimeout⟩
  rw [← hconfig] at htextCap hidDigits hcsDigits
  obtain ⟨m, u, hruns', hphase, hkind, hfail, hrest, hascii, -⟩ :=
    asciiFrameReceived (startedScan v) (dec id.toNat) s.txText
      (dec (checksumOf (asciiBody (dec id.toNat) s.txText)).toNat) [chNewline] rfl rfl rfl (inTime_startedScan hv)
      (digits_dec _) ((dec_byte_length_le id).trans hidDigits) ((decVal_dec_eq _).trans_le (Nat.le_of_lt_succ id.isLt))
      (digits_dec _) ((dec_checksum_length_le _).trans hcsDigits) hled hsemi (htext.trans_eq htextCap.symm)
      (htextCap.trans_lt hcap) ((hbytes.trans hframe).trans (by simp [wireFrame, chSemi]))
  rw [decVal_dec_eq, decVal_dec_eq] at hascii
  exact ⟨n + m, u, runs_add hruns hruns', hphase, hkind, hfail, by simpa using hascii, hrest⟩

end Sys2Proof.Machine
end

section
/-! SUPPORT. Proofs about the ASCII Parameter Codec (44_param_codec.md): what the ADD commands append (R271 to R279),
and what the GET commands read from the field at the cursor (R280 to R292). -/

namespace Sys2Proof.Machine

/-! ## The numeric ADD commands (R271 to R278) -/

/-- A command that is one append. -/
theorem appendsRendering {i : Instr} {r : List Byte} {s : State} (h : exec i s = .next (appendParam r s)) :
    AppendsRendering i r s := by
  refine ⟨fun hfits => ?_, fun hfull => ?_⟩
  · rw [h, appendParam_fits hfits, List.append_assoc]
    rfl
  · rw [h, appendParam_full hfull]
    rfl

/-- Settles O44: each of the seven commands is one append of its rendering. -/
theorem addNumberAppends : Obligations.AddNumberAppends := fun _ =>
  ⟨fun _ => ⟨rfl, appendsRendering rfl⟩, fun _ => ⟨rfl, appendsRendering rfl⟩, fun _ => ⟨rfl, appendsRendering rfl⟩,
    fun _ => ⟨rfl, appendsRendering rfl⟩, fun _ => ⟨rfl, appendsRendering rfl⟩, fun _ => ⟨rfl, appendsRendering rfl⟩,
    fun _ => ⟨rfl, appendsRendering rfl⟩⟩

/-! ## ADD_STRING (R279) -/

/-- A text in memory, followed by its NUL, is what the read of at most `room` bytes gives. -/
theorem readText_of_bytes {s : State} {room a : Nat} {bs : List Byte} (hl : bs.length ≤ room)
    (hm : a + bs.length < s.config.hostMemSize) (hbytes : ∀ i < bs.length, bs[i]? = some (s.hostMem.get (a + i)))
    (hnul : chNul ∉ bs) (hend : s.hostMem.get (a + bs.length) = chNul) : readText s room a = .ok (some bs) := by
  have hne : ∀ i < bs.length, s.hostMem.get (a + i) ≠ chNul := fun i hi h =>
    hnul (List.mem_of_getElem? ((hbytes i hi).trans (congrArg some h)))
  rw [readText_of_text s room a bs.length hl hm hne hend, ← eq_bytesAt hbytes]

/-- Settles O45: with room for the `,`, the command goes by what the read of the text answers: a text that fits, one
that is too long, or a fault. -/
theorem addStringAppendsText : Obligations.AddStringAppendsText := by
  intro s text room full
  refine ⟨rfl, fun hfull => ?_, fun hroom => ?_⟩
  · simp only [full, exec, execAddString, if_pos hfull, appendParam_full (r := []) hfull]
    rfl
  · have hcomma : ¬ s.config.textCap < s.txText.length + 1 := by omega
    have hleft : s.config.textCap - s.txText.length - 1 = room := by omega
    refine ⟨fun bs hl hm hbytes hnul hend => ?_, fun hm hne => ?_, fun n hn hm hne => ?_⟩
    · have hfits : s.txText.length + 1 + bs.length ≤ s.config.textCap := by omega
      have happend : exec (.addString text) s = .next (appendParam bs s) := by
        simp only [exec, execAddString, if_neg hcomma, hleft, readText_of_bytes hl hm hbytes hnul hend]
      exact (appendsRendering happend).1 hfits
    · simp only [full, exec, execAddString, if_neg hcomma, hleft, readText_of_long s room text hm hne]
      rfl
    · simp only [exec, execAddString, if_neg hcomma, hleft, readText_of_outside s room text n hn hm hne]
      rfl

/-! ## The numeric GET commands, for any reading of the field (R280) -/

/-- `i` is the numeric GET of a field of at most `width` bytes, read by `parse`. -/
def ReadsField (i : Instr) (width : Nat) (parse : List Byte → Except FailCode U32) : Prop :=
  ∀ s, exec i s = .next (getValue width parse s)

section
variable {i : Instr} {width : Nat} {parse : List Byte → Except FailCode U32} {s : State} {f : List Byte}

theorem ReadsField.noField (hi : ReadsField i width parse) (h : NoField s) : FailsWith i s .getNoField := by
  rw [FailsWith, hi, getValue, getField_of_noField _ h]
  rfl

theorem ReadsField.wide (hi : ReadsField i width parse) (h : FieldAt s f) (hw : width < f.length) :
    FailsWith i s .getSyntax := by
  rw [FailsWith, hi, getValue, getField_of_wide h hw]
  rfl

/-- A field within the width is found whole. -/
theorem getField_within (h : FieldAt s f) (hw : f.length ≤ width) :
    getField (some width) s = .ok (f, s.rxCursor + 1 + f.length) :=
  getField_of_field _ h fun _ hn => Option.some.inj hn ▸ hw

theorem ReadsField.fails (hi : ReadsField i width parse) (h : FieldAt s f) (hw : f.length ≤ width) {c : FailCode}
    (hp : parse f = .error c) : FailsWith i s c := by
  simp only [FailsWith, hi s, getValue, getField_within h hw, hp]
  rfl

theorem ReadsField.yields (hi : ReadsField i width parse) (h : FieldAt s f) (hw : f.length ≤ width) {v : U32}
    (hp : parse f = .ok v) : YieldsValue i s f v := by
  simp only [YieldsValue, hi s, getValue, getField_within h hw, hp]
  rfl

end

/-! ## GET_UINT8, GET_UINT16 and GET_UINT32 (R281 to R283) -/

theorem parseUnsigned_syntax {limit : Nat} {f : List Byte} (h : ¬ Digits f) :
    parseUnsigned limit f = .error .getSyntax := by
  rw [← isNumber_iff_digits] at h
  simp [parseUnsigned, h]

theorem parseUnsigned_range {limit : Nat} {f : List Byte} (h : Digits f) (hv : limit < decVal f) :
    parseUnsigned limit f = .error .getRange := by
  simp [parseUnsigned, (isNumber_iff_digits f).mpr h, hv]

theorem parseUnsigned_value {limit : Nat} {f : List Byte} (h : Digits f) (hv : decVal f ≤ limit) :
    parseUnsigned limit f = .ok (BitVec.ofNat 32 (decVal f)) := by
  simp [parseUnsigned, (isNumber_iff_digits f).mpr h, Nat.not_lt.mpr hv]

/-- The three commands, with their width and limit. -/
theorem unsigned_readsField {i : Instr} {op : Byte} {width limit : Nat}
    (h : (i, op, width, limit) ∈ [(Instr.getUint8, 0x40#8, 3, 255), (.getUint16, 0x41#8, 5, 65535),
      (.getUint32, 0x42#8, 10, 4294967295)]) :
    encode i = .command ⟨op, []⟩ ∧ ReadsField i width (parseUnsigned limit) := by
  simp only [List.mem_cons, Prod.mk.injEq, List.not_mem_nil, or_false] at h
  obtain ⟨rfl, rfl, rfl, rfl⟩ | ⟨rfl, rfl, rfl, rfl⟩ | ⟨rfl, rfl, rfl, rfl⟩ := h <;> exact ⟨rfl, fun _ => rfl⟩

/-- Settles O46, by what `parseUnsigned` answers for a field within the width. -/
theorem getUnsignedDecodesField : Obligations.GetUnsignedDecodesField := by
  intro i op width limit h
  obtain ⟨hencode, hi⟩ := unsigned_readsField h
  refine ⟨hencode, fun s => ⟨hi.noField, fun f hf =>
    ⟨hi.wide hf, fun hw hd => ?_, fun hw hd hv => ?_, fun hw hd hv => ?_⟩⟩⟩
  · exact hi.fails hf hw (parseUnsigned_syntax hd)
  · exact hi.fails hf hw (parseUnsigned_range hd hv)
  · exact hi.yields hf hw (parseUnsigned_value hd hv)

/-! ## GET_INT8, GET_INT16 and GET_INT32 (R284 to R286) -/

/-- The number that a sign and digits spell. -/
def signedVal (neg : Bool) (d : List Byte) : Int := if neg then -(decVal d : Int) else decVal d

theorem signedVal_plain (d : List Byte) : signedVal false d = decVal d := rfl

theorem signedVal_minus (d : List Byte) : signedVal true d = -(decVal d : Int) := rfl

section
variable {lo hi : Int} {f d : List Byte} {neg : Bool}

theorem parseSigned_syntax (h : ∀ d, Digits d → f ≠ d ∧ f ≠ chMinus :: d) :
    parseSigned lo hi f = .error .getSyntax := by
  have hd : ¬ Digits (splitSign f).2 := fun hd => by
    obtain ⟨hplain, hminus⟩ := h _ hd
    have hspells := splitSign_spells f
    cases hneg : (splitSign f).1 <;> rw [hneg] at hspells
    · exact hplain hspells
    · exact hminus hspells
  rw [← isNumber_iff_digits] at hd
  simp [parseSigned, hd]

theorem parseSigned_range (hs : splitSign f = (neg, d)) (h : Digits d)
    (hv : signedVal neg d < lo ∨ hi < signedVal neg d) :
    parseSigned lo hi f = .error .getRange := by
  simp only [parseSigned, hs, (isNumber_iff_digits d).mpr h]
  exact if_pos hv

theorem parseSigned_value (hs : splitSign f = (neg, d)) (h : Digits d) (hlo : lo ≤ signedVal neg d)
    (hhi : signedVal neg d ≤ hi) : parseSigned lo hi f = .ok (BitVec.ofInt 32 (signedVal neg d)) := by
  simp only [parseSigned, hs, (isNumber_iff_digits d).mpr h]
  exact if_neg (not_or.mpr ⟨not_lt.mpr hlo, not_lt.mpr hhi⟩)

end

/-- The three commands, with their width and the limit of their range, which is not empty. -/
theorem signed_readsField {i : Instr} {op : Byte} {width limit : Nat}
    (h : (i, op, width, limit) ∈ [(Instr.getInt8, 0x43#8, 4, 128), (.getInt16, 0x44#8, 6, 32768),
      (.getInt32, 0x45#8, 11, 2147483648)]) :
    encode i = .command ⟨op, []⟩ ∧ 0 < limit ∧ ReadsField i width (parseSigned (-limit) (limit - 1)) := by
  simp only [List.mem_cons, Prod.mk.injEq, List.not_mem_nil, or_false] at h
  obtain ⟨rfl, rfl, rfl, rfl⟩ | ⟨rfl, rfl, rfl, rfl⟩ | ⟨rfl, rfl, rfl, rfl⟩ := h <;> exact ⟨rfl, by decide, fun _ => rfl⟩

/-- Settles O47, by what `parseSigned` answers for a field within the width: of no number, of digits, or of `-` and
digits. -/
theorem getSignedDecodesField : Obligations.GetSignedDecodesField := by
  intro i op width limit h
  obtain ⟨hencode, hlimit, hi⟩ := signed_readsField h
  refine ⟨hencode, fun s => ⟨hi.noField, fun f hf => ⟨hi.wide hf, fun hw hsyn => ?_, fun d hd hw => ?_⟩⟩⟩
  · exact hi.fails hf hw (parseSigned_syntax hsyn)
  · have hplain := splitSign_of_digits hd
    have hminus := splitSign_minus d
    refine ⟨?_, ?_, ?_, ?_⟩ <;> rintro rfl hv
    · exact hi.fails hf hw (parseSigned_range hplain hd (.inr (by rw [signedVal_plain]; omega)))
    · exact hi.yields hf hw
        (parseSigned_value hplain hd (by rw [signedVal_plain]; omega) (by rw [signedVal_plain]; omega))
    · exact hi.fails hf hw (parseSigned_range hminus hd (.inl (by rw [signedVal_minus]; omega)))
    · exact hi.yields hf hw
        (parseSigned_value hminus hd (by rw [signedVal_minus]; omega) (by rw [signedVal_minus]; omega))

/-! ## GET_FLOAT (R287, R288) -/

/-- The pattern that `ParseF` answers for a field of at most 15 bytes is the binary32 nearest to the decimal. -/
theorem nearest_of_syntax {f whole frac : List Byte} {neg : Bool} (h : FloatSyntax f neg whole frac)
    (hl : f.length ≤ 15) :
    NearestFloat neg ((if neg then -1 else 1) * (decVal (whole ++ frac) : ℚ) / 10 ^ frac.length)
      (signedBinary32 neg (decVal (whole ++ frac)) (10 ^ frac.length)) := by
  by_cases hzero : decVal (whole ++ frac) = 0
  · rw [hzero]
    simpa using nearest_zero neg (10 ^ frac.length)
  · obtain ⟨hlo, hhi⟩ := field_in_range h hl hzero
    have hnearest := nearest_roundBinary32 neg (Nat.pos_of_ne_zero hzero) (Nat.pow_pos (by decide)) hlo hhi
    rwa [← mul_div_assoc, Nat.cast_pow, Nat.cast_ofNat] at hnearest

/-- Settles O48: a field of the syntax has a value, which is the nearest; any other fails. -/
theorem getFloatDecodesNearest : Obligations.GetFloatDecodesNearest := by
  intro s
  have hi : ReadsField .getFloat 15 parseF := fun _ => rfl
  refine ⟨rfl, hi.noField, fun f hf => ⟨hi.wide hf, fun hw hsyn => ?_, fun neg whole frac hw hsyn => ?_⟩⟩
  · exact hi.fails hf hw (parseF_of_not_syntax hsyn)
  · exact ⟨_, hi.yields hf hw (parseF_of_syntax hsyn), nearest_of_syntax hsyn hw⟩

/-! ## GET_STRING (R289) -/

theorem stringBytes_length (f : List Byte) (len : U16) :
    (stringBytes f len).length = min f.length (len.toNat - 1) + 1 := by
  simp [stringBytes, min_comm]

/-- The bytes before the NUL are those of the field. -/
theorem stringBytes_getElem?_lt {f : List Byte} {len : U16} {i : Nat} (h : i < min f.length (len.toNat - 1)) :
    (stringBytes f len)[i]? = f[i]? := by
  rw [stringBytes, List.getElem?_append_left (by simp; omega), List.getElem?_take_of_lt (by omega)]

theorem stringBytes_getElem?_nul (f : List Byte) (len : U16) :
    (stringBytes f len)[min f.length (len.toNat - 1)]? = some chNul := by
  rw [stringBytes, min_comm, ← List.length_take, List.getElem?_concat_length]

/-- Memory after the copy: the bytes of the field, the NUL, and every other byte as before. -/
theorem get_setSeq_stringBytes {m : Memory} (h : m.wf) (dest a : Nat) {f : List Byte} {len : U16} {k : Nat}
    (hk : k = min f.length (len.toNat - 1)) :
    (m.setSeq dest (stringBytes f len)).get a =
      if dest ≤ a ∧ a < dest + k then f[a - dest]?.getD 0#8 else if a = dest + k then 0#8 else m.get a := by
  rw [get_setSeq_getD h, stringBytes_length, ← hk]
  by_cases hfield : dest ≤ a ∧ a < dest + k
  · rw [if_pos (by omega), if_pos hfield, stringBytes_getElem?_lt (by omega)]
  · rw [if_neg hfield]
    by_cases hnul : a = dest + k
    · subst hnul
      rw [if_pos (by omega), if_pos rfl, Nat.add_sub_cancel_left, hk, stringBytes_getElem?_nul]
      rfl
    · rw [if_neg (by omega), if_neg hnul]

/-- Settles O49: the copy of the field and its NUL either lies in memory or leaves it. -/
theorem getStringCopiesField : Obligations.GetStringCopiesField := by
  intro s dest len
  refine ⟨rfl, fun hlen => ?_, fun hlen hno => ?_, fun f k hlen hf hk => ?_⟩
  · exact if_pos hlen
  · simp only [FailsWith, exec, execGetString, if_neg hlen, getField_of_noField none hno]
    rfl
  · have hfield := getField_of_field none hf (by simp)
    have hlength : (stringBytes f len).length = k + 1 := by rw [stringBytes_length, hk]
    have hne : stringBytes f len ≠ [] := List.ne_nil_of_length_eq_add_one hlength
    refine ⟨fun hm => ⟨_, ?_, fun hwf a => get_setSeq_stringBytes hwf dest a hk⟩, fun hm => ?_⟩
    · have hwrite := (memWriteSeq_eq dest (stringBytes f len) s).trans (if_pos (.inr (by omega)))
      simp only [exec, execGetString, if_neg hlen, hfield, hwrite]
      rfl
    · have hwrite := (memWriteSeq_eq dest (stringBytes f len) s).trans (if_neg (not_or.mpr ⟨hne, by omega⟩))
      simp only [exec, execGetString, if_neg hlen, hfield, hwrite]
      rfl

/-! ## A GET that fails (R292) -/

/-- The GET commands are single steps that write `RES_OK` and never fill the text. -/
theorem isGet_traits {i : Instr} (h : isGet i = true) :
    isSingleStep i = true ∧ writesOk i = true ∧ .textFull ∉ failureCodes i := by
  cases i with
  | getUint8 | getUint16 | getUint32 | getInt8 | getInt16 | getInt32 | getFloat | getString _ _ =>
    exact ⟨rfl, rfl, by simp [failureCodes]⟩
  | _ => cases h

/-- Settles O50: of the ends of a command, only a failure is Idle with `RES_OK` 0 for a GET. -/
theorem failingGetWritesOnlyResult : Obligations.FailingGetWritesOnlyResult := by
  intro i s t hget hexec hidle hfailed
  obtain ⟨hsingle, hwrites, hfull⟩ := isGet_traits hget
  obtain ⟨t', hexec', hend⟩ := exec_ends i s hsingle
  obtain rfl : t' = t := Host.Outcome.next.inj (hexec'.symm.trans hexec)
  cases hend with
  | fail c hc _ => rfl
  | fault _ => cases hidle
  | full hc _ => exact absurd hc hfull
  | append _ _ _ _ | value _ _ _ _ _ | copied _ _ _ _ _ _ | sentOk _ _ _ _ => cases hfailed
  | assignRx _ h | assignTx _ h | sentQuiet _ _ _ h => rw [hwrites] at h; cases h

end Sys2Proof.Machine
end

section
/-! SUPPORT. Proofs about the HOST's writes of `TX_STR` and `HOSTMEM` (45_binary_string.md R324, 20_memory.md R81) and
about the ASSIGN commands (R320, R321). -/

namespace Sys2Proof.Machine

/-! ## The HOST's writes (R324, 20_memory.md R81) -/

theorem hostWriteTxStr_of_fits {bs : List Byte} {s : State} (h : bs.length ≤ s.config.strCap) :
    hostWriteTxStr bs s = .next { s with txStr := bs } := if_neg (Nat.not_lt.mpr h)

theorem hostWriteTxStr_of_too_long {bs : List Byte} {s : State} (h : s.config.strCap < bs.length) :
    hostWriteTxStr bs s = .refused .txStrTooLong := if_pos h

theorem hostPoke_of_inside {a : Nat} {bs : List Byte} {s : State} (h : a + bs.length ≤ s.config.hostMemSize) :
    hostPoke a bs s = .next { s with hostMem := s.hostMem.setSeq a bs } := if_pos (.inl h)

/-- An Idle engine serves a write of `TX_STR`. -/
theorem step_writeTxStr {s u : State} {bs : List Byte} {rest : List HostRequest} (he : EngineNext s u)
    (hp : u.phase = .idle) (hport : u.port = .writeTxStr bs :: rest) :
    step s = hostWriteTxStr bs { u with port := rest } := by
  rw [step_idle he hp, serveHost, hport]

/-- An Idle engine serves a write of `HOSTMEM`. -/
theorem step_poke {s u : State} {a : Nat} {bs : List Byte} {rest : List HostRequest} (he : EngineNext s u)
    (hp : u.phase = .idle) (hport : u.port = .poke a bs :: rest) : step s = hostPoke a bs { u with port := rest } := by
  rw [step_idle he hp, serveHost, hport]

/-- Settles O11: the request is served, and the memory a write of `HOSTMEM` leaves is read by `get_setSeq_getD`. -/
theorem hostWritesServedWhenIdle : Obligations.HostWritesServedWhenIdle := by
  intro s u rest he hp
  refine ⟨fun bs hport => ⟨fun hfits => ?_, fun hlong => ?_⟩, fun a bs hport hinside => ⟨u.hostMem.setSeq a bs, ?_, ?_⟩⟩
  · exact (step_writeTxStr he hp hport).trans (hostWriteTxStr_of_fits hfits)
  · exact (step_writeTxStr he hp hport).trans (hostWriteTxStr_of_too_long hlong)
  · exact (step_poke he hp hport).trans (hostPoke_of_inside hinside)
  · exact fun hwf x => get_setSeq_getD hwf a x bs

/-! ## The ASSIGN commands (R320, R321) -/

/-- What ASSIGN_BINARY_RX_BUFFER stores for its operands (R320). -/
def assignedRxDesc (cap : U32) : Option Nat → RxDesc
  | none => .default
  | some a => ⟨true, a, cap⟩

/-- What ASSIGN_BINARY_TX_BUFFER stores for its operands (R321). -/
def assignedTxDesc (cap : U32) (length : U16) : Option Nat → TxDesc
  | none => .default
  | some a => ⟨true, a, cap, length⟩

theorem exec_assignBinaryRxBuffer (buf : Option Nat) (cap : U32) (s : State) :
    exec (.assignBinaryRxBuffer buf cap) s = .next (finishQuiet { s with binRxDesc := assignedRxDesc cap buf }) := by
  cases buf <;> rfl

theorem exec_assignBinaryTxBuffer (buf : Option Nat) (cap : U32) (length : U16) (s : State) :
    exec (.assignBinaryTxBuffer buf cap length) s =
      .next (finishQuiet { s with binTxDesc := assignedTxDesc cap length buf }) := by
  cases buf <;> rfl

/-- Settles O43: each command stores the descriptor of its operands and finishes without a result. -/
theorem assignBuffers : Obligations.AssignBuffers := fun s _ a cap length =>
  ⟨rfl, exec_assignBinaryRxBuffer none cap s, exec_assignBinaryRxBuffer (some a) cap s,
    rfl, exec_assignBinaryTxBuffer none cap length s, exec_assignBinaryTxBuffer (some a) cap length s⟩

end Sys2Proof.Machine
end

section
/-! SUPPORT. Proofs about 60_exceptions.md: which commands are refused (R348), what a step runs (R353), the fault that
only reset leaves (R347), how a RECEIVE ends (R342 to R346), and the failure codes of the commands of one step (R345). -/

namespace Sys2Proof.Machine

/-! ## The command presented and the delimiter scanned (R348, R353) -/

/-- An Idle engine runs the command presented first, from the state without that request. -/
theorem step_command {s u : State} {r : CommandRecord} {rest : List HostRequest} (he : EngineNext s u)
    (hp : u.phase = .idle) (hport : u.port = .command r :: rest) : step s = runCommand r { u with port := rest } := by
  rw [step_idle he hp, serveHost, hport]

theorem runCommand_of_decoded {r : CommandRecord} {i : Instr} (h : decodeCommand r = .ok i) (s : State) :
    runCommand r s = exec i s := by
  rw [runCommand, h]

theorem scanByte_of_decoded {b : Byte} {i : Instr} (h : decodeWire b = .ok i) (s : State) :
    scanByte b s = exec i s := by
  rw [scanByte, h]

/-- Settles O6: an Idle engine by `step_command`, a scanning one by `step_scan`. -/
theorem stepRunsDecodedInstruction : Obligations.StepRunsDecodedInstruction := by
  intro s u i he
  refine ⟨fun r rest hp hport hi => ?_, fun b rest hk hx hf hi => ?_⟩
  · exact (step_command he hp hport).trans (runCommand_of_decoded hi _)
  · exact (step_scan he hk hx hf).trans (scanByte_of_decoded hi _)

theorem wellFormed_eq_false_iff (r : CommandRecord) :
    r.wellFormed = false ↔ ∀ ts, signature r.op.toNat = some ts → operandsFit ts r.operands = false := by
  unfold CommandRecord.wellFormed
  cases h : signature r.op.toNat with
  | none => simp
  | some ts => simp

/-- No command that decodes is refused by its meaning. -/
theorem runCommand_answers {r : CommandRecord} {i : Instr} (h : decodeCommand r = .ok i) (s : State) :
    ∃ t, runCommand r s = .next t := by
  rw [runCommand_of_decoded h]
  obtain rfl | hi := decodeCommand_kind h
  · obtain ⟨-, e⟩ | ⟨-, e⟩ := execReceive_cases s
    · exact ⟨_, e⟩
    · exact ⟨_, e⟩
  · obtain ⟨t, ht, -⟩ := exec_ends i s hi
    exact ⟨t, ht⟩

/-- Settles O4: a well-formed record decodes and then answers a next state, any other is refused. -/
theorem exactlyIllFormedCommandsRefused : Obligations.ExactlyIllFormedCommandsRefused := by
  intro s u r rest he hp hport
  rw [← wellFormed_eq_false_iff]
  cases hd : decodeCommand r with
  | error c =>
    have hnot : ¬ ∃ i, decodeCommand r = .ok i := by simp [hd]
    have hill : r.wellFormed = false := Bool.eq_false_iff.mpr (mt decodeCommand_of_wellFormed hnot)
    exact ⟨fun _ => hill, fun _ => step_refuses he hp hport hd⟩
  | ok i =>
    have hwell : r.wellFormed = true := (decodeExactlyWellFormed (.command r)).mpr ⟨i, hd⟩
    obtain ⟨t, ht⟩ := runCommand_answers hd { u with port := rest }
    rw [step_command he hp hport, ht, hwell]
    simp

/-! ## The fault (R347) -/

/-- Settles O8: in `Faulted` an ENGINE turn answers no next state, so a move that does is the LINK's or reset. -/
theorem engineStuckInFaulted : Obligations.EngineStuckInFaulted := by
  intro s u t r
  refine ⟨fun he hp => (step_of_engineNext he).trans (engineTurn_faulted hp), fun hp hr h => ?_⟩
  obtain ⟨b, rest, -, rfl⟩ | ⟨rest, rfl⟩ | ⟨rest, hs, -⟩ | ⟨rest, k, hk, -⟩ | ⟨rest, hi, -⟩ := move_cases h
  · exact ⟨hp, rfl, rfl⟩
  · exact ⟨hp, rfl, rfl⟩
  · simp [hs] at hr
  · simp [hk] at hp
  · simp [hi] at hp

/-! ## How a RECEIVE ends (R342, R344, R346) -/

/-- Settles O24: `ReadField`'s own loop stops by `receiveStep_field_stops`, every other by `receiveStep_expired`. -/
theorem expiryBeforeAvailability : Obligations.ExpiryBeforeAvailability := by
  intro s u k he hk hx
  refine ⟨?_, fun hloop => ?_⟩
  · rintro use acc rfl
    exact (step_busy he hk).trans (receiveStep_field_stops (.inl hx))
  · exact ⟨_, (step_busy he hk).trans (receiveStep_expired hx hloop), rfl, rfl, rfl, ⟨rfl, rfl, rfl, rfl, rfl⟩,
      rfl, rfl, rfl, rfl, rfl⟩

/-- A trailer of digits ends the message, valid where its value is the expected checksum (R344). -/
theorem fieldDone_trailer {expected : U16} {m : Parsed} {acc : List Byte} (t : Byte) (s : State) (h : Digits acc) :
    fieldDone (.trailer expected m) acc t s = finishParsed m (decide (decVal acc = expected.toNat)) s := by
  simp [fieldDone, (isNumber_iff_digits acc).mpr h, beq_eq_decide]

/-- Settles O29: the `;` ends the trailer, which ends the message as its kind does. -/
theorem mismatchOnlyFlagsRecord : Obligations.MismatchOnlyFlagsRecord := by
  intro s u expected m acc rest he hk hx hf hd _ valid v
  have hpoll : step s = .next (finishParsed m valid { u with rxFifo := rest }) := by
    rw [step_busy he hk, receiveStep_fieldEnd hx hf, if_pos (by rfl), fieldDone_trailer _ _ hd]
    rfl
  rw [hpoll]
  cases m with
  | ascii | ack | binary | string => rfl

/-- The ways a poll of RECEIVE can end: in progress, with a message, with a failure, or in the fault. -/
def PollOutcome (s t : State) : Prop :=
  (∃ k, t.phase = .busy k ∧ t.resKind = s.resKind ∧ t.lastFail = s.lastFail) ∨
  (t.phase = .idle ∧ t.resKind ≠ .none ∧ t.lastFail = .none) ∨
  (t.phase = .idle ∧ t.resKind = .none ∧ RecordsDefault t ∧
    t.lastFail ∈ [FailCode.timeout, .malformed, .range, .overflow, .capacity]) ∨
  t = { s with phase := .faulted .memRange }

theorem pollOutcome_fails (s v : State) {code : FailCode}
    (h : code ∈ [FailCode.timeout, .malformed, .range, .overflow, .capacity]) :
    PollOutcome s (failReceive code v) :=
  .inr (.inr (.inl ⟨rfl, rfl, ⟨rfl, rfl, rfl, rfl, rfl⟩, h⟩))

theorem pollOutcome_finishes (s v : State) (m : Parsed) (valid : Bool) : PollOutcome s (finishParsed m valid v) := by
  refine .inr (.inl ?_)
  cases m with
  | ascii | ack | binary | string => exact ⟨rfl, by simp [finishParsed, finishReceive], rfl⟩

/-- Settles O31, over the ways a poll can go (`receiveStep_ind`). -/
theorem receiveOutcomes : Obligations.ReceiveOutcomes := by
  intro s u k he hk
  rw [step_busy he hk]
  refine receiveStep_ind k u (PollOutcome u) (pollOutcome_fails u u (by simp)) (.inl ⟨k, hk, rfl, rfl⟩)
    (.inr (.inr (.inr rfl))) (fun _ _ _ => .inl ⟨_, rfl, rfl, rfl⟩) fun b rest _ _ => ?_
  refine ⟨fun c hc => ?_, pollOutcome_fails u _ (by simp),
    fun k' => ⟨.inl ⟨k', rfl, rfl, rfl⟩, .inl ⟨k', rfl, rfl, rfl⟩⟩,
    fun _ => ⟨.inl ⟨_, rfl, rfl, rfl⟩, .inl ⟨k, hk, rfl, rfl⟩⟩,
    fun _ m _ valid _ => pollOutcome_finishes u _ m valid, fun _ _ _ k' _ _ => .inl ⟨k', rfl, rfl, rfl⟩⟩
  have hcode : c ∈ [FailCode.timeout, .malformed, .range, .overflow, .capacity] := by
    simp only [List.mem_cons] at hc ⊢
    tauto
  exact ⟨pollOutcome_fails u _ hcode, pollOutcome_fails u _ hcode⟩

/-! ## The failure codes of the commands of one step (R341, R345) -/

theorem none_not_mem_failureCodes (i : Instr) : FailCode.none ∉ failureCodes i := by
  cases i <;> simp [failureCodes]

/-- The result of a command that ends: success, one of its failures, or no result to report. -/
theorem CommandEnd.result {i : Instr} {s t : State} (h : CommandEnd i s t) (hp : t.phase = .idle) :
    (writesOk i = true ∧ t.resOk = true ∧ t.lastFail = .none) ∨
    (writesOk i = true ∧ t.resOk = false ∧ t.lastFail ∈ failureCodes i) ∨
    (writesOk i = false ∧ t.lastFail = .none) := by
  cases h with
  | fault => cases hp
  | fail _ hc hw | full hc hw => exact .inr (.inl ⟨hw, rfl, hc⟩)
  | append _ _ _ hw | value _ _ _ hw | sentOk _ _ _ hw => exact .inl ⟨hw, rfl, rfl⟩
  | copied _ _ _ hi =>
    obtain ⟨len, rfl⟩ := hi
    exact .inl ⟨rfl, rfl, rfl⟩
  | assignRx _ hw | assignTx _ hw | sentQuiet _ _ _ hw => exact .inr (.inr ⟨hw, rfl⟩)

/-- Settles O53: by the result of the command's end; no command lists NONE among its failures. -/
theorem failureCodesOfEachCommand : Obligations.FailureCodesOfEachCommand := by
  intro i s t hi h hp
  have hend : CommandEnd i s t := holds_of_next h (exec_ends i s hi)
  obtain ⟨hw, hok, hnone⟩ | ⟨hw, hok, hcode⟩ | ⟨hw, hnone⟩ := hend.result hp
  · simp [hw, hok, hnone]
  · have hne : t.lastFail ≠ .none := fun e => none_not_mem_failureCodes i (e ▸ hcode)
    simp [hw, hok, hcode, hne]
  · simp [hw, hnone]

end Sys2Proof.Machine
end

section
/-! SUPPORT. Proofs about 70_reset_and_hazards.md: a poll before the deadline on an empty queue (R401), and in the loop of
`ReadField` (42_frame_reader.md R186, R188). -/

namespace Sys2Proof.Machine

/-! ## A byte queued in the loop of `ReadField` (R186) -/

/-- A terminator ends the loop and stays queued. -/
theorem receiveStep_field_terminator {u : State} {use : FieldUse} {acc : List Byte} {b : Byte} {rest : List Byte}
    (hf : u.rxFifo = b :: rest) (ht : fieldTerminator use b = true) :
    receiveStep (.field use acc) u = .next (awaitAt (.fieldEnd use acc) u) := by
  rw [receiveStep, pollField_terminator hf ht, settle_ok]

/-- Before the deadline and the digit limit, any other byte is taken into the accumulator. -/
theorem receiveStep_field_byte {u : State} {use : FieldUse} {acc : List Byte} {b : Byte} {rest : List Byte}
    (hx : expired u = false) (hl : acc.length ≠ fieldMaxDigits u.config use) (hf : u.rxFifo = b :: rest)
    (ht : fieldTerminator use b = false) :
    receiveStep (.field use acc) u =
      .next (awaitAt (.field use (acc ++ [b])) (byteTaken (fieldChecksummed use) b rest u)) := by
  rw [receiveStep, pollField_byte hx hl hf ht, settle_ok, byteTaken]

/-- Settles O21: on an empty queue the RECEIVE only waits (`receiveStep_waiting`, `step_waiting`); in `ReadField`'s loop
the poll stops or takes the byte by its lemma. -/
theorem pollsBeforeDeadline : Obligations.PollsBeforeDeadline := by
  intro s hx
  refine ⟨fun k hk hf hroom => ⟨fun rest hs => ?_, fun hs => ?_⟩, ?_⟩
  · exact (step_busy (.inr ⟨rest, hs, rfl⟩) hk).trans (receiveStep_waiting hf hx hroom)
  · exact step_waiting hs ((onlyWaits_iff hk).mpr ⟨hf, hx, hroom⟩)
  intro u use acc he hk limit ends stopped
  have hlimit : limit = fieldMaxDigits u.config use := by cases use <;> rfl
  have hends : ∀ b, ends b ↔ fieldTerminator use b = true := by
    intro b
    cases use <;> simp [ends, fieldTerminator, chComma, chSemi]
  have hstep := step_busy he hk
  refine ⟨fun hl => ?_, fun b rest hf => ⟨fun hb => ?_, fun hl hb => ?_⟩⟩
  · exact hstep.trans (receiveStep_field_stops (.inr (hl.trans hlimit)))
  · exact hstep.trans (receiveStep_field_terminator hf ((hends b).mp hb))
  · have hxu : expired u = false := by rw [he.eq]; exact hx
    have hgoes : fieldTerminator use b = false := Bool.eq_false_iff.mpr (mt (hends b).mpr hb)
    rw [hstep, receiveStep_field_byte hxu (hlimit ▸ hl) hf hgoes]
    cases use <;> rfl

end Sys2Proof.Machine
end
